-- ==== Sys2Proof/Word.lean ====
section
/-! DEFINITION. The word types of the block's two ports (R13, R16, R71, R76). Every value is unsigned (R13). -/

namespace Sys2Proof

/-- A data byte (R10: data width 8 bits). -/
abbrev Byte := BitVec 8

/-- A CPU byte address (R10: CPU address width 16 bits). -/
abbrev Addr := BitVec 16

/-- The 26-bit CPU request key K (R71). -/
abbrev CpuKey := BitVec 26

/-- The 32-bit host command word H (R76). -/
abbrev HostWord := BitVec 32

end Sys2Proof
end

