-- ==== Sys2Proof/Syntax.lean ====
section
/-! DEFINITION. The requests of the block: one constructor of `Instr` per row of spec/opcode_table.json (R73, R76). -/

namespace Sys2Proof

/-- The two request ports (R70, R210). -/
inductive Port where
  | cpu
  | host
deriving DecidableEq, Repr

/-- The two mapper capability sets (R2), Variant A (0) and Variant B (1) of `mapperVariant` (R26). -/
inductive Variant where
  | a
  | b
deriving DecidableEq, Repr

/-- The bit that stands for a variant, in the key's V and in LOAD's VARIANT (R26, R71, R78): 0 = A, 1 = B. -/
def Variant.bit : Variant → Bool
  | .a => false
  | .b => true

/-- The variant a bit stands for. -/
def Variant.ofBit : Bool → Variant
  | false => .a
  | true => .b

/-- One decoded request. A CPU constructor keeps every bit its key leaves free: `a` and `off`, `woff` are the address bits
below the row's fixed ones, `d` is D[7:0] (present on a read as well, where it is ignored: R71), `v` and `we` are the
key's V and WE where the row does not fix them (R73). A host constructor keeps the fields of its command word (R76); the
payloads beside the word (OP1, the byte string of SRAM_IMPORT, the environment's `romImage` and `ramInit`) are no bits of
the word and stand in State (`Payload`). -/
inductive Instr where
  -- Variant A register writes
  | wrARamen (a : BitVec 13) (d : Byte)
  | wrARomlo (a : BitVec 13) (d : Byte)
  | wrAHigh (a : BitVec 13) (d : Byte)
  | wrAMode (a : BitVec 13) (d : Byte)
  -- Variant B register writes
  | wrBRamen (a : BitVec 13) (d : Byte)
  | wrBRomsel (a : BitVec 13) (d : Byte)
  | wrBRamsel (a : BitVec 13) (d : Byte)
  | wrBLatch (a : BitVec 13) (d : Byte)
  -- the banked windows
  | rdRomx (v : Variant) (off : BitVec 14) (d : Byte)
  | rdRam (v : Variant) (woff : BitVec 13) (d : Byte)
  | wrRam (v : Variant) (woff : BitVec 13) (d : Byte)
  -- addresses that are not the block's
  | passRom0Rd (v : Variant) (a : BitVec 14) (d : Byte)
  | pass8000 (v : Variant) (we : Bool) (a : BitVec 13) (d : Byte)
  | passC000 (v : Variant) (we : Bool) (a : BitVec 14) (d : Byte)
  -- host commands
  | load (variant : Variant) (romShift : BitVec 4) (ramCode : BitVec 4) (eager : Bool)
  | unload
  | getRomBank (bank : BitVec 16)
  | pressureEvict
  | sramExport
  | sramImport
  | readStatus
  | readMbc
  | readSlot (slot : BitVec 16)
  | hostReserved (word : HostWord)
deriving DecidableEq, Repr

end Sys2Proof
end

