-- ==== Sys2Proof/WellFormed.lean ====
section
/-! DEFINITION. Which terms of `Instr` are requests of the block. The fields' widths do most of it; what is left to
check is that a `hostReserved` term carries a word the spec reserves (R76, R81). -/

namespace Sys2Proof

/-- CMD = H[3:0] (R76). -/
def hostCmd (h : HostWord) : Nat := (h.extractLsb' 0 4).toNat

/-- The lowest bit of H from which on every bit is reserved, by CMD (R76): LOAD uses H[13:0], GET_ROM_BANK and READ_SLOT
use H[19:0], the other commands use H[3:0] alone; `none` for the reserved CMD codes 0x0 and 0xA-0xF. -/
def hostReservedFrom (cmd : Nat) : Option Nat :=
  match cmd with
  | 1 => some 14
  | 2 => some 4
  | 3 => some 20
  | 4 => some 4
  | 5 => some 4
  | 6 => some 4
  | 7 => some 4
  | 8 => some 4
  | 9 => some 20
  | _ => none

/-- Is the word reserved (R81): its CMD is 0x0 or 0xA-0xF, or a bit its command does not list is set. -/
def reservedHostWord (h : HostWord) : Bool :=
  match hostReservedFrom (hostCmd h) with
  | none => true
  | some lo => h >>> lo != 0#32

/-- A term of `Instr` stands for a request (R73, R76, R81). -/
def Instr.wellFormed : Instr → Bool
  | .wrARamen _ _ => true
  | .wrARomlo _ _ => true
  | .wrAHigh _ _ => true
  | .wrAMode _ _ => true
  | .wrBRamen _ _ => true
  | .wrBRomsel _ _ => true
  | .wrBRamsel _ _ => true
  | .wrBLatch _ _ => true
  | .rdRomx _ _ _ => true
  | .rdRam _ _ _ => true
  | .wrRam _ _ _ => true
  | .passRom0Rd _ _ _ => true
  | .pass8000 _ _ _ _ => true
  | .passC000 _ _ _ _ => true
  | .load _ _ _ _ => true
  | .unload => true
  | .getRomBank _ => true
  | .pressureEvict => true
  | .sramExport => true
  | .sramImport => true
  | .readStatus => true
  | .readMbc => true
  | .readSlot _ => true
  | .hostReserved h => reservedHostWord h

end Sys2Proof
end

