-- ==== Sys2Proof/Decode.lean ====
section
/-! DEFINITION. The two request formats (R70): the decoder of a CPU key (R71, R73, R85) and of a host command word
(R76, R78, R79, R81), then the encoder written from the same tables. -/

namespace Sys2Proof

/-! ## The CPU key -/

/-- K = (V << 25) | (WE << 24) | (A << 8) | D (R71). -/
def assembleKey (v : Variant) (we : Bool) (a : Addr) (d : Byte) : CpuKey :=
  BitVec.ofBool v.bit ++ BitVec.ofBool we ++ a ++ d

/-- V = K[25] (R71). -/
def keyVariant (k : CpuKey) : Variant := .ofBit (k.getLsbD 25)

/-- WE = K[24] (R71). -/
def keyWrite (k : CpuKey) : Bool := k.getLsbD 24

/-- A[15:0] = K[23:8] (R71). -/
def keyAddr (k : CpuKey) : Addr := k.extractLsb' 8 16

/-- D[7:0] = K[7:0] (R71). -/
def keyData (k : CpuKey) : Byte := k.extractLsb' 0 8

/-- A[12:0] = K[20:8]: the offset in an 8KB range (R75). -/
def keyOffset13 (k : CpuKey) : BitVec 13 := k.extractLsb' 8 13

/-- A[13:0] = K[21:8]: the offset in the 16KB window (R75). -/
def keyOffset14 (k : CpuKey) : BitVec 14 := k.extractLsb' 8 14

/-- The row of a write to [0x0000,0x8000), by V and A[14:13] (R72, R73). -/
def decodeRegisterWrite (v : Variant) (a14 a13 : Bool) (a : BitVec 13) (d : Byte) : Instr :=
  match v, a14, a13 with
  | .a, false, false => .wrARamen a d
  | .a, false, true => .wrARomlo a d
  | .a, true, false => .wrAHigh a d
  | .a, true, true => .wrAMode a d
  | .b, false, false => .wrBRamen a d
  | .b, false, true => .wrBRomsel a d
  | .b, true, false => .wrBRamsel a d
  | .b, true, true => .wrBLatch a d

/-- Decoding a CPU key by V, WE and A[15:13] alone (R73); total (R80, R85). -/
def decodeKey (k : CpuKey) : Instr :=
  match keyWrite k, k.getLsbD 23, k.getLsbD 22, k.getLsbD 21 with
  | true, false, a14, a13 => decodeRegisterWrite (keyVariant k) a14 a13 (keyOffset13 k) (keyData k)
  | false, false, false, _ => .passRom0Rd (keyVariant k) (keyOffset14 k) (keyData k)
  | false, false, true, _ => .rdRomx (keyVariant k) (keyOffset14 k) (keyData k)
  | we, true, false, false => .pass8000 (keyVariant k) we (keyOffset13 k) (keyData k)
  | false, true, false, true => .rdRam (keyVariant k) (keyOffset13 k) (keyData k)
  | true, true, false, true => .wrRam (keyVariant k) (keyOffset13 k) (keyData k)
  | we, true, true, _ => .passC000 (keyVariant k) we (keyOffset14 k) (keyData k)

/-! ## The host command word -/

/-- Decoding a host command word (R76, R78, R79): a reserved word is HOST_RESERVED (R81), any other is its command. -/
def decodeHost (h : HostWord) : Instr :=
  if reservedHostWord h then .hostReserved h
  else
    match hostCmd h with
    | 1 => .load (.ofBit (h.getLsbD 4)) (h.extractLsb' 5 4) (h.extractLsb' 9 4) (h.getLsbD 13)
    | 2 => .unload
    | 3 => .getRomBank (h.extractLsb' 4 16)
    | 4 => .pressureEvict
    | 5 => .sramExport
    | 6 => .sramImport
    | 7 => .readStatus
    | 8 => .readMbc
    | 9 => .readSlot (h.extractLsb' 4 16)
    | _ => .hostReserved h

/-! ## Words of either port -/

/-- Why a 32-bit word is no request of a port. -/
inductive DecodeReject where
  /-- The CPU key has 26 bits (R71): a word with a higher bit set is none. -/
  | widerThanKey
deriving DecidableEq, Repr

/-- The decoder of both formats: a 32-bit word as the named port reads it. Every key and every host word decodes (R80, R85, R81). -/
def decode (p : Port) (w : BitVec 32) : Except DecodeReject Instr :=
  match p with
  | .cpu => if w >>> 26 = 0#32 then .ok (decodeKey (w.extractLsb' 0 26)) else .error .widerThanKey
  | .host => .ok (decodeHost w)

/-! ## Encoding -/

/-- The key of a row whose A[15:13] is fixed (R73). -/
def key13 (v : Variant) (we : Bool) (top : BitVec 3) (a : BitVec 13) (d : Byte) : CpuKey :=
  assembleKey v we (top ++ a) d

/-- The key of a row whose A[15:14] is fixed (R73). -/
def key14 (v : Variant) (we : Bool) (top : BitVec 2) (a : BitVec 14) (d : Byte) : CpuKey :=
  assembleKey v we (top ++ a) d

/-- The LOAD word (R76): H = 0x1 | VARIANT<<4 | ROMSHIFT<<5 | RAMCODE<<9 | EAGER<<13. -/
def loadWord (variant : Variant) (romShift ramCode : BitVec 4) (eager : Bool) : HostWord :=
  0#18 ++ BitVec.ofBool eager ++ ramCode ++ romShift ++ BitVec.ofBool variant.bit ++ 1#4

/-- A host word with a 16-bit field at H[19:4] (R76, R79). -/
def fieldWord (field : BitVec 16) (cmd : BitVec 4) : HostWord := 0#12 ++ field ++ cmd

/-- The port a request arrives on (R210). -/
def Instr.port : Instr → Port
  | .wrARamen _ _ => .cpu
  | .wrARomlo _ _ => .cpu
  | .wrAHigh _ _ => .cpu
  | .wrAMode _ _ => .cpu
  | .wrBRamen _ _ => .cpu
  | .wrBRomsel _ _ => .cpu
  | .wrBRamsel _ _ => .cpu
  | .wrBLatch _ _ => .cpu
  | .rdRomx _ _ _ => .cpu
  | .rdRam _ _ _ => .cpu
  | .wrRam _ _ _ => .cpu
  | .passRom0Rd _ _ _ => .cpu
  | .pass8000 _ _ _ _ => .cpu
  | .passC000 _ _ _ _ => .cpu
  | .load _ _ _ _ => .host
  | .unload => .host
  | .getRomBank _ => .host
  | .pressureEvict => .host
  | .sramExport => .host
  | .sramImport => .host
  | .readStatus => .host
  | .readMbc => .host
  | .readSlot _ => .host
  | .hostReserved _ => .host

/-- The request's word, a CPU key in the low 26 bits (R71, R73, R76). -/
def encode : Instr → BitVec 32
  | .wrARamen a d => (key13 .a true 0b000#3 a d).zeroExtend 32
  | .wrARomlo a d => (key13 .a true 0b001#3 a d).zeroExtend 32
  | .wrAHigh a d => (key13 .a true 0b010#3 a d).zeroExtend 32
  | .wrAMode a d => (key13 .a true 0b011#3 a d).zeroExtend 32
  | .wrBRamen a d => (key13 .b true 0b000#3 a d).zeroExtend 32
  | .wrBRomsel a d => (key13 .b true 0b001#3 a d).zeroExtend 32
  | .wrBRamsel a d => (key13 .b true 0b010#3 a d).zeroExtend 32
  | .wrBLatch a d => (key13 .b true 0b011#3 a d).zeroExtend 32
  | .rdRomx v off d => (key14 v false 0b01#2 off d).zeroExtend 32
  | .rdRam v woff d => (key13 v false 0b101#3 woff d).zeroExtend 32
  | .wrRam v woff d => (key13 v true 0b101#3 woff d).zeroExtend 32
  | .passRom0Rd v a d => (key14 v false 0b00#2 a d).zeroExtend 32
  | .pass8000 v we a d => (key13 v we 0b100#3 a d).zeroExtend 32
  | .passC000 v we a d => (key14 v we 0b11#2 a d).zeroExtend 32
  | .load variant romShift ramCode eager => loadWord variant romShift ramCode eager
  | .unload => 2#32
  | .getRomBank bank => fieldWord bank 3#4
  | .pressureEvict => 4#32
  | .sramExport => 5#32
  | .sramImport => 6#32
  | .readStatus => 7#32
  | .readMbc => 8#32
  | .readSlot slot => fieldWord slot 9#4
  | .hostReserved h => h

/-! ## The opcode table -/

/-- The row's name in spec/opcode_table.json. -/
def Instr.mnemonic : Instr → String
  | .wrARamen _ _ => "WR_A_RAMEN"
  | .wrARomlo _ _ => "WR_A_ROMLO"
  | .wrAHigh _ _ => "WR_A_HIGH"
  | .wrAMode _ _ => "WR_A_MODE"
  | .wrBRamen _ _ => "WR_B_RAMEN"
  | .wrBRomsel _ _ => "WR_B_ROMSEL"
  | .wrBRamsel _ _ => "WR_B_RAMSEL"
  | .wrBLatch _ _ => "WR_B_LATCH"
  | .rdRomx _ _ _ => "RD_ROMX"
  | .rdRam _ _ _ => "RD_RAM"
  | .wrRam _ _ _ => "WR_RAM"
  | .passRom0Rd _ _ _ => "PASS_ROM0_RD"
  | .pass8000 _ _ _ _ => "PASS_8000"
  | .passC000 _ _ _ _ => "PASS_C000"
  | .load _ _ _ _ => "LOAD"
  | .unload => "UNLOAD"
  | .getRomBank _ => "GET_ROM_BANK"
  | .pressureEvict => "PRESSURE_EVICT"
  | .sramExport => "SRAM_EXPORT"
  | .sramImport => "SRAM_IMPORT"
  | .readStatus => "READ_STATUS"
  | .readMbc => "READ_MBC"
  | .readSlot _ => "READ_SLOT"
  | .hostReserved _ => "HOST_RESERVED"

/-- A row of the table: the words `w` with `w & mask = value`. -/
structure TableRow where
  mnemonic : String
  mask : Nat
  value : Nat
deriving DecidableEq, Repr

/-- The row holds of a word. -/
abbrev TableRow.holds {n : Nat} (r : TableRow) (w : BitVec n) : Prop := w &&& BitVec.ofNat n r.mask = BitVec.ofNat n r.value

/-- The CPU rows of R73. The decoder does not read this table. -/
def cpuTable : List TableRow :=
  [ ⟨"WR_A_RAMEN", 0x3E00000, 0x1000000⟩, ⟨"WR_A_ROMLO", 0x3E00000, 0x1200000⟩, ⟨"WR_A_HIGH", 0x3E00000, 0x1400000⟩,
    ⟨"WR_A_MODE", 0x3E00000, 0x1600000⟩, ⟨"WR_B_RAMEN", 0x3E00000, 0x3000000⟩, ⟨"WR_B_ROMSEL", 0x3E00000, 0x3200000⟩,
    ⟨"WR_B_RAMSEL", 0x3E00000, 0x3400000⟩, ⟨"WR_B_LATCH", 0x3E00000, 0x3600000⟩, ⟨"RD_ROMX", 0x1C00000, 0x0400000⟩,
    ⟨"RD_RAM", 0x1E00000, 0x0A00000⟩, ⟨"WR_RAM", 0x1E00000, 0x1A00000⟩, ⟨"PASS_ROM0_RD", 0x1C00000, 0x0000000⟩,
    ⟨"PASS_8000", 0x0E00000, 0x0800000⟩, ⟨"PASS_C000", 0x0C00000, 0x0C00000⟩ ]

/-- The host rows of spec/opcode_table.json, HOST_RESERVED apart: by R81 that row takes every word none of these takes. -/
def hostTable : List TableRow :=
  [ ⟨"LOAD", 0xFFFFC00F, 0x1⟩, ⟨"UNLOAD", 0xFFFFFFFF, 0x2⟩, ⟨"GET_ROM_BANK", 0xFFF0000F, 0x3⟩,
    ⟨"PRESSURE_EVICT", 0xFFFFFFFF, 0x4⟩, ⟨"SRAM_EXPORT", 0xFFFFFFFF, 0x5⟩, ⟨"SRAM_IMPORT", 0xFFFFFFFF, 0x6⟩,
    ⟨"READ_STATUS", 0xFFFFFFFF, 0x7⟩, ⟨"READ_MBC", 0xFFFFFFFF, 0x8⟩, ⟨"READ_SLOT", 0xFFF0000F, 0x9⟩ ]

/-! ## Words of the opcode table

A word of spec/opcode_table.json does not say on which port it arrives, and a 26-bit key and a 32-bit host word can be the
same number. `tablePort` picks the port (DESIGN CHOICE, notes/assumptions/12.md); the machine itself has no such choice, since
a request reaches it on a port of its own. -/

/-- The port on which a table word of `nbits` bits is presented. -/
def tablePort (nbits w : Nat) : Port :=
  if nbits ≤ 16 then .host
  else if nbits < 32 then .cpu
  else if 2 ^ 26 ≤ w then .host
  else if 2 ^ 20 ≤ w then .cpu
  else if w % 256 = 0 then .cpu
  else .host

/-- The request the decoder reads from a table word. -/
def decodeTableWord (nbits w : Nat) : Option Instr :=
  (decode (tablePort nbits w) (BitVec.ofNat 32 w)).toOption

end Sys2Proof
end

