-- ==== Sys2Proof/Config.lean ====
section
/-! DEFINITION. The block's fixed constants (R10) and the reference pool size (R11).
The parameters and draws the spec leaves OPEN (`ramInit`, `romImage`, `dmaClaims`, `allocOk`, `fetchOutcome`: R11, R12)
are no constants of this file: they arrive with each request as plain data of State (`Arrival`, `Payload`, `Draws`),
so that a statement about every state is a statement about every value of them. -/

namespace Sys2Proof.Config

/-- `ROM_BANK_SIZE` (R10). -/
abbrev romBankSize : Nat := 16384

/-- `RAM_BANK_SIZE` (R10). -/
abbrev ramBankSize : Nat := 8192

/-- `RECENCY_MAX` (R10): the largest value of the 8-bit recency counter. -/
abbrev recencyMax : BitVec 8 := 255

/-- `SENTINEL` (R10): the byte of a read that cannot be served. -/
abbrev sentinel : Byte := 0xFF

/-- The reference value of the pool size `N` (R11; N itself is the length of `State.slots`, which no step changes).
DESIGN CHOICE, unsafe for a statement that rests on the number: notes/assumptions/1.md. -/
abbrev referencePoolSize : Nat := 4

end Sys2Proof.Config
end

