-- ==== Sys2Proof/Machine/State.lean ====
section
/-! DEFINITION. The block's state as plain data (10_state.md), the faults and refusals of a step, and the state after RESET
(R43, R220). -/

namespace Sys2Proof.Machine

/-- A byte buffer as the cells that differ from `Memory.blank`, addresses strictly rising (`Memory.wf`, Ops.lean); offsets
count from 0 (R50: the ROM image, the cartridge RAM, the bank-0 buffer and the slot buffers are byte offset spaces). -/
abbrev Memory := List Host.Cell

/-- `MbcState` (R20): the five MBC latches. -/
structure Mbc where
  /-- R22: 7 bits, kept below `totalBanks`. -/
  currentRomBank : BitVec 7
  /-- R23: 3 bits (Variant B; Variant A uses the low 2), kept below `max 1 ramBanks`. -/
  currentRamBank : BitVec 3
  /-- R24. -/
  ramEnabled : Bool
  /-- R25: `false` = ROM banking, `true` = RAM banking; hardwired `false` in Variant B. -/
  bankingModeSelect : Bool
  /-- R26. -/
  mapperVariant : Variant
deriving DecidableEq, Repr

/-- `st.cfg` (R44): the load configuration. -/
structure LoadCfg where
  totalBanks : Nat
  ramBanks : Nat
  ramSizeBytes : Nat
deriving DecidableEq, Repr

/-- Everything that exists only while `loaded = 1` (R32, R43: absent after RESET and UNLOAD, present after a successful LOAD):
`MbcState`, `cfg`, the mapping, the permanent bank-0 buffer, the cartridge RAM, and the image the storage serves for this load. -/
structure Cart where
  cfg : LoadCfg
  mbc : Mbc
  /-- R27: the bank the ROM window shows. -/
  mappedBank : Option Nat
  /-- R30: `bank0[0..16383]`. -/
  bank0 : Memory
  /-- R31: `ram[0..ramSizeBytes-1]`. -/
  ram : Memory
  /-- R11, R64: the immutable image behind StorageRead, given at LOAD. -/
  romImage : Memory
deriving DecidableEq, Repr

/-- What an occupied slot holds (R29): the bank (`occupant = some bank`) and the buffer's 16384 bytes. -/
structure Occupant where
  bank : Nat
  data : Memory
deriving DecidableEq, Repr

/-- A pool slot (R29). The bytes of an allocated, unoccupied buffer are unspecified and no rule reads them (R29, R43), so nothing
stands for them (DEDUCED, safe: notes/assumptions/7.md). -/
structure Slot where
  allocated : Bool
  occupant : Option Occupant
  recency : BitVec 8
deriving DecidableEq, Repr

/-- The environment's answers to the draws of one request (R12, R148): no request makes more than two `Alloc()` calls (R145),
one fetch of a bank above 0 (R147) and, in LOAD, one fetch of bank 0 (R172). Free values: every state, so every answer
(DESIGN CHOICE of representation, safe: notes/assumptions/2.md). -/
structure Draws where
  /-- The answer to ENSURE_BUFFER's first `Alloc()`. -/
  allocOk : Bool
  /-- The answer to ENSURE_BUFFER's retry after remediation. -/
  allocRetryOk : Bool
  /-- `fetchOutcome` of MISS's StorageRead. -/
  bankFetchOk : Bool
  /-- `fetchOutcome` of LOAD's bank-0 StorageRead. -/
  bank0FetchOk : Bool
deriving DecidableEq, Repr

/-- The payloads that come beside a host command word (R76). -/
structure Payload where
  /-- LOAD's OP1 = ramSizeBytes. -/
  op1 : BitVec 32
  /-- SRAM_IMPORT's byte string. -/
  src : List Byte
  /-- LOAD's environment `romImage` (R11). -/
  romImage : Memory
  /-- LOAD's OPEN `ramInit` (R11); only the first ramSizeBytes bytes are used. -/
  ramInit : Memory
deriving DecidableEq, Repr

/-- What reaches the block next, in the one serial stream of R59: a CPU access (its address, direction and data, whether the
DMA pre-stage claims it (R100), and its draws), a host command with its payloads and draws, or the RESET signal (R220). -/
inductive Arrival where
  | cpu (we : Bool) (addr : Addr) (data : Byte) (dmaClaims : Bool) (draws : Draws)
  | host (word : HostWord) (payload : Payload) (draws : Draws)
  | reset
deriving DecidableEq, Repr

/-- What the block emits besides responses (R213): `FETCH(off, n, outcome)` (R148) and `LOG(code)` (R104). -/
inductive Event where
  | fetch (off : Nat) (len : Nat) (ok : Bool)
  | log (code : BitVec 4)
deriving DecidableEq, Repr

/-- The status of a host response (R76); its number is `HostStatus.code` (Ops.lean). -/
inductive HostStatus where
  | ok
  /-- "a get that found no buffer". -/
  | null
  /-- "a malformed command or one the state forbids". -/
  | refused
  /-- "a LOAD that did not load". -/
  | failed
deriving DecidableEq, Repr

/-- What a host response carries beside its status (R76, "result out"). -/
inductive HostValue where
  | empty
  /-- A bank or the cartridge RAM (R174, R176). -/
  | bytes (bytes : List Byte)
  /-- The STATUS word (R178). -/
  | word16 (w : BitVec 16)
  /-- The MBCSTAT or the SLOTSTAT word (R179, R180). -/
  | word32 (w : BitVec 32)
deriving DecidableEq, Repr

/-- The answer to a request. -/
inductive Response where
  /-- A CPU read's byte (R52). -/
  | byte (v : Byte)
  /-- A CPU write's `respond(done)`. -/
  | done
  /-- A PASS row's "not mine" (R106). -/
  | notMine
  /-- A host command's status and value (R76). -/
  | host (status : HostStatus) (value : HostValue)
deriving DecidableEq, Repr

/-- Why the machine stops. -/
inductive Fault where
  /-- A CPU request while `fatal = 1`: "the router has no step for any request" (R101, R206). Raised by every CPU request's
  meaning (`cpuServe`, `passOn`). Safe: the model stops where the spec says no step exists
  (DEDUCED: notes/assumptions/10.md). -/
  | stuckInFatal
deriving DecidableEq, Repr

/-- Why the model gives a request no meaning. -/
inductive Refusal where
  /-- A row with no meaning yet, raised by `exec`'s arms only. Safe. No arm raises it: every row has its meaning. -/
  | notModelled (mnemonic : String)
deriving DecidableEq, Repr

/-- The state of the block, the stream of requests on its ports, and what it has answered and emitted. The last five fields are the
model's own (DESIGN CHOICE, safe: notes/assumptions/9.md, 13.md). -/
structure State where
  /-- `loaded` (R32), `MbcState`, `cfg`, `mappedBank`, `bank0Valid` and `bank0`, `ram`: present exactly while loaded (DEDUCED, safe:
  notes/assumptions/6.md). -/
  cart : Option Cart
  /-- R33. -/
  fatal : Bool
  /-- R34. -/
  romLogged : Bool
  /-- R35: 4 bits, a code of R200. -/
  lastError : BitVec 4
  /-- R29: `slot[0..N-1]`; N is the list's length. -/
  slots : List Slot
  /-- The requests not yet served, next first (R59, R65). -/
  arrivals : List Arrival
  /-- The payloads of the request being served. -/
  payload : Payload
  /-- The environment's answers to the draws of the request being served. -/
  draws : Draws
  /-- The events emitted so far, oldest first. -/
  events : List Event
  /-- The most recent response. -/
  response : Option Response
deriving DecidableEq, Repr

/-- A slot with no buffer: `allocated = 0`, occupant none, recency 0 (R43, R151). -/
def Slot.free : Slot := { allocated := false, occupant := none, recency := 0 }

/-- A payload of nothing. -/
def Payload.empty : Payload := { op1 := 0, src := [], romImage := [], ramInit := [] }

/-- Every allocation granted and every fetch OK: the answers 95_test_vectors.md takes where it lists none. -/
def Draws.allOk : Draws := { allocOk := true, allocRetryOk := true, bankFetchOk := true, bank0FetchOk := true }

/-- The state after RESET (R43, R220) of a block with a pool of `n` slots, with nothing on its ports. -/
def State.resetOf (n : Nat) : State :=
  { cart := none, fatal := false, romLogged := false, lastError := 0, slots := List.replicate n .free,
    arrivals := [], payload := .empty, draws := .allOk, events := [], response := none }

/-- The state after RESET, with the reference pool size (R11, R43, R220). -/
def State.reset : State := .resetOf Config.referencePoolSize

end Sys2Proof.Machine
end

