-- ==== Sys2Proof/Machine/Ops.lean ====
section
/-! DEFINITION. The shared operations: byte buffers, the state's accessors, responding, emitting events, raising an error
(R15, R203), and the environment's draws (R12, R148). -/

namespace Sys2Proof.Machine

/-! ## Byte buffers -/

/-- What a cell that is not listed reads as. A representation only: every buffer has finitely many bytes and all of them
are given (R30, R31, R64), so each is some list of cells whatever this byte is (DESIGN CHOICE, safe: notes/assumptions/8.md). -/
def Memory.blank : Byte := 0x00

/-- The byte at an offset. -/
def Memory.read : Memory → Nat → Byte
  | [], _ => Memory.blank
  | (k, v) :: rest, a => if k = a then v else Memory.read rest a

/-- Writing one byte, keeping the canonical form. -/
def Memory.write (a : Nat) (v : Byte) : Memory → Memory
  | [] => if v = Memory.blank then [] else [(a, v)]
  | (k, x) :: rest =>
    if a < k then (if v = Memory.blank then (k, x) :: rest else (a, v) :: (k, x) :: rest)
    else if a = k then (if v = Memory.blank then rest else (a, v) :: rest)
    else (k, x) :: Memory.write a v rest

/-- Writing the bytes of a string at consecutive offsets (R177). -/
def Memory.writeBytes (base : Nat) : List Byte → Memory → Memory
  | [], m => m
  | b :: rest, m => Memory.writeBytes (base + 1) rest (Memory.write base b m)

/-- The `len` bytes from `base` on, at offsets from 0 (R52: byte k is the byte at `base + k`). -/
def Memory.slice (base len : Nat) (m : Memory) : Memory :=
  (m.filter fun c => decide (base ≤ c.1) && decide (c.1 < base + len)).map fun c => (c.1 - base, c.2)

/-- The canonical form: addresses strictly rising, and no cell equal to what an unlisted one reads as. -/
abbrev Memory.wf (m : Memory) : Prop := m.Pairwise (fun x y => x.1 < y.1) ∧ ∀ c ∈ m, c.2 ≠ Memory.blank

/-- The first `n` bytes as a string. -/
def Memory.bytes (n : Nat) (m : Memory) : List Byte := (List.range n).map (Memory.read m)

/-! ## Accessors: the spec's names for parts of the state -/

/-- `st.loaded` (R32): an `MbcState` exists. -/
def State.loaded (s : State) : Bool := s.cart.isSome

/-- `st.bank0Valid` (R30): 1 exactly while loaded (R30, R43, 90_conflicts.md C3). -/
def State.bank0Valid (s : State) : Bool := s.cart.isSome

/-- V (R72): `st.mapperVariant`, read as 0 while not loaded. -/
def State.variant (s : State) : Variant :=
  match s.cart with
  | none => .a
  | some c => c.mbc.mapperVariant

/-- `st.mappedBank` (R27). -/
def State.mappedBank (s : State) : Option Nat := s.cart.bind (·.mappedBank)

/-- N (R11, R29). -/
def State.poolSize (s : State) : Nat := s.slots.length

/-- `slot[i].occupant` as the spec has it (R29): the bank alone. -/
def Slot.bank (sl : Slot) : Option Nat := sl.occupant.map (·.bank)

/-! ## Responses, events, errors -/

/-- `respond(v)` (R15). -/
def State.respond (s : State) (r : Response) : State := { s with response := some r }

/-- The response codes of R76: OK (0), NULL (1), REFUSED (2), FAILED (3); R76 gives no width (DEDUCED, safe:
notes/assumptions/22.md). -/
def HostStatus.code : HostStatus → Nat
  | .ok => 0
  | .null => 1
  | .refused => 2
  | .failed => 3

/-- The status code a response carries (R76); a CPU request's answer carries none. -/
def Response.statusCode : Response → Option Nat
  | .byte _ => none
  | .done => none
  | .notMine => none
  | .host status _ => some status.code

/-- An event on the storage port or the log output (R213). -/
def State.emit (s : State) (e : Event) : State := { s with events := s.events ++ [e] }

/-- The error taxonomy (R200). -/
inductive ErrorCode where
  | storageUnavailable
  | bankFetchFailed
  | allocationFailed
  | corruptOrOversizedInput
  | invariantViolation
deriving DecidableEq, Repr

/-- The numbers of R200. -/
def ErrorCode.code : ErrorCode → BitVec 4
  | .storageUnavailable => 1
  | .bankFetchFailed => 2
  | .allocationFailed => 3
  | .corruptOrOversizedInput => 4
  | .invariantViolation => 5

/-- `raise E(info)` (R15, R203): the one thing an error does to the machine. It sets `lastError`; it saves no state, takes no
vector and changes no mode, and the rule that raised it goes on. There is no return from it (R203, R207). -/
def State.raise (s : State) (e : ErrorCode) : State := { s with lastError := e.code }

/-- The one failure that ends the block's service (R205): `fatal <- 1` and BankFetchFailed recorded. It is left only by RESET (R207). -/
def State.enterFatal (s : State) : State := ({ s with fatal := true }).raise .bankFetchFailed

/-! ## Draws -/

/-- `StorageRead(off, n)` (R15, R148): the event FETCH(off, n, outcome), and the image's bytes when the outcome is OK. It always answers
(DEDUCED, unsafe, R225's blind spot: notes/assumptions/11.md). -/
def storageRead (image : Memory) (off n : Nat) (ok : Bool) (s : State) : Option Memory × State :=
  (if ok then some (image.slice off n) else none, s.emit (.fetch off n ok))

/-! ## Changing parts of the loaded cartridge -/

/-- The cartridge with other MBC latches. -/
def Cart.withMbc (c : Cart) (m : Mbc) : Cart := { c with mbc := m }

/-- The state with another cartridge. -/
def State.withCart (s : State) (c : Cart) : State := { s with cart := some c }

/-- The state with another pool. -/
def State.withSlots (s : State) (slots : List Slot) : State := { s with slots := slots }

/-! ## Entry checks -/

/-- Gating of a CPU request that is not a PASS row (R101): stuck in FATAL, `unloaded` answered with no state change while
not loaded, and the row's effect on the loaded cartridge otherwise. -/
def cpuServe (s : State) (unloaded : Response) (effect : Cart → State) : Host.Outcome State Fault Refusal :=
  if s.fatal then .fault .stuckInFatal
  else
    match s.cart with
    | none => .next (s.respond unloaded)
    | some c => .next (effect c)

/-- A PASS row (R101, R106): "not mine" in every case except FATAL. -/
def passOn (s : State) : Host.Outcome State Fault Refusal :=
  if s.fatal then .fault .stuckInFatal else .next (s.respond .notMine)

/-- A host command's REFUSED (R81, R170): no state changes, not even `lastError`. -/
def State.refuse (s : State) : State := s.respond (.host .refused .empty)

/-- Host entry check 2 (R170): REFUSED in FATAL, else the command. -/
def hostServe (s : State) (effect : State) : Host.Outcome State Fault Refusal :=
  .next (if s.fatal then s.refuse else effect)

/-- Host entry checks 2 and 3 (R170): REFUSED in FATAL or while not loaded, else the command on the loaded cartridge. -/
def hostServeLoaded (s : State) (effect : Cart → State) : Host.Outcome State Fault Refusal :=
  hostServe s (match s.cart with
    | none => s.refuse
    | some c => effect c)

/-! ## Requests on the ports -/

/-- The key of a CPU access (R71, R72): V comes from the state, the rest from the bus. -/
def State.key (s : State) (we : Bool) (a : Addr) (d : Byte) : CpuKey := assembleKey s.variant we a d

/-- The state in which a CPU access runs: its draws latched, the rest of the stream left. -/
def State.latchCpu (s : State) (rest : List Arrival) (draws : Draws) : State :=
  { s with arrivals := rest, draws := draws }

/-- The state in which a host command runs: its payloads and draws latched, the rest of the stream left. -/
def State.latchHost (s : State) (rest : List Arrival) (p : Payload) (draws : Draws) : State :=
  { s with arrivals := rest, payload := p, draws := draws }

/-- RESET (R220): every field of R43 at its value after RESET. N is no field of R43, and what was answered and emitted before stays
(DESIGN CHOICE: notes/assumptions/5.md). -/
def State.afterReset (s : State) : State :=
  { s with cart := none, fatal := false, romLogged := false, lastError := 0, slots := s.slots.map fun _ => Slot.free }

/-! ## Placing a table word (`State.withFetchWord`, Step.lean) -/

/-- A Variant B cartridge of one bank and no RAM with every latch at its value after LOAD (R43), mapped to bank 0 as such a LOAD
leaves it (R172). -/
def Cart.minimal (v : Variant) : Cart :=
  { cfg := { totalBanks := 1, ramBanks := 0, ramSizeBytes := 0 }
    mbc := { currentRomBank := 0, currentRamBank := 0, ramEnabled := false, bankingModeSelect := false, mapperVariant := v }
    mappedBank := some 0, bank0 := [], ram := [], romImage := [] }

/-- The state in which the next CPU key has the given V (R72). V is a state bit, so a key with another V needs another cartridge:
a loaded one gets the variant (with the mode latch of R25), and an unloaded block, whose V reads 0, gets a minimal Variant B cartridge
for V = 1. DESIGN CHOICE: notes/assumptions/12.md. -/
def State.withVariant (s : State) (v : Variant) : State :=
  match s.cart, v with
  | none, .a => s
  | none, .b => s.withCart (Cart.minimal .b)
  | some c, .a => s.withCart (c.withMbc { c.mbc with mapperVariant := .a })
  | some c, .b => s.withCart (c.withMbc { c.mbc with mapperVariant := .b, bankingModeSelect := false })

/-- The arrival of a table word: on the port `tablePort` picks, unclaimed, with empty payloads and every draw OK. -/
def tableArrival (nbits w : Nat) : Arrival :=
  match tablePort nbits w with
  | .cpu =>
    let k : CpuKey := BitVec.ofNat 26 w
    .cpu (keyWrite k) (keyAddr k) (keyData k) false .allOk
  | .host => .host (BitVec.ofNat 32 w) .empty .allOk

/-- The state with a table word at the head of the stream, and its V in the state when it is a CPU key. -/
def State.present (s : State) (nbits w : Nat) : State :=
  let s' := match tablePort nbits w with
    | .cpu => s.withVariant (keyVariant (BitVec.ofNat 26 w))
    | .host => s
  { s' with arrivals := tableArrival nbits w :: s.arrivals }

end Sys2Proof.Machine
end

