-- ==== Sys2Proof/Machine/Operands.lean ====
section
/-! DEFINITION. Operand assembly (R74, R75, R78, R79): which bits of a request's data, address or word each rule reads, and the
values they give. -/

namespace Sys2Proof.Machine

/-! ## MBC write data (R74) -/

/-- `en = (D[3:0] = 0xA)` (R74, R122, R126). -/
def ramEnableValue (d : Byte) : Bool := d.extractLsb' 0 4 == 0xA#4

/-- `lo = D[4:0]` (R74, R123). -/
def romLowField (d : Byte) : Nat := (d.extractLsb' 0 5).toNat

/-- `hi = D[1:0]` (R74, R124). -/
def highField (d : Byte) : Nat := (d.extractLsb' 0 2).toNat

/-- `m = D[0]` (R74, R125). -/
def modeField (d : Byte) : Bool := d.getLsbD 0

/-- `b = D[6:0]` (R74, R127). -/
def romSelField (d : Byte) : Nat := (d.extractLsb' 0 7).toNat

/-- `r = D[2:0]` (R74, R128). -/
def ramSelField (d : Byte) : Nat := (d.extractLsb' 0 3).toNat

/-- "Selecting bank 0 is remapped to bank 1" on the field written (R123, R127, R131). -/
def zeroRemap (field : Nat) : Nat := if field = 0 then 1 else field

/-! ## Bank numbers (R123, R124, R127, R128, R132) -/

/-- A ROM bank number masked to the cartridge (R22, R132). -/
def maskRomBank (cfg : LoadCfg) (b : Nat) : BitVec 7 := BitVec.ofNat 7 (b % cfg.totalBanks)

/-- A RAM bank number masked to the cartridge, 0 when it has no RAM (R23, R124, R128). -/
def maskRamBank (cfg : LoadCfg) (r : Nat) : BitVec 3 := BitVec.ofNat 3 (if cfg.ramBanks = 0 then 0 else r % cfg.ramBanks)

/-- `((currentRomBank & 0x60) | lo) mod totalBanks` with the zero remap on `lo` (R123). -/
def romLowSelect (cfg : LoadCfg) (cur : BitVec 7) (d : Byte) : BitVec 7 :=
  maskRomBank cfg ((cur.toNat &&& 0x60) ||| zeroRemap (romLowField d))

/-- `((currentRomBank & 0x1F) | (hi << 5)) mod totalBanks` (R124, mode 0). -/
def romHighSelect (cfg : LoadCfg) (cur : BitVec 7) (d : Byte) : BitVec 7 :=
  maskRomBank cfg ((cur.toNat &&& 0x1F) ||| (highField d <<< 5))

/-- `b mod totalBanks` with the zero remap on `b` (R127). -/
def romFullSelect (cfg : LoadCfg) (d : Byte) : BitVec 7 := maskRomBank cfg (zeroRemap (romSelField d))

/-! ## The RAM window (R57, R105) -/

/-- RAMOFF(woff) (R105): the cartridge RAM offset of a RAM-window access, or none when the access has no effect. -/
def ramOffset (c : Cart) (woff : BitVec 13) : Option Nat :=
  if c.mbc.ramEnabled = false then none
  else if c.cfg.ramBanks = 0 then none
  else
    let k := c.mbc.currentRamBank.toNat * Config.ramBankSize + woff.toNat
    if k < c.cfg.ramSizeBytes then some k else none

/-! ## LOAD (R78, R171) -/

/-- `totalBanks = 1 << ROMSHIFT` (R78). -/
def totalBanksOf (romShift : BitVec 4) : Nat := 1 <<< romShift.toNat

/-- `ramBanks`: 0 for RAMCODE 0, else `1 << (RAMCODE - 1)` (R78); used for RAMCODE ≤ 5 only. -/
def ramBanksOf (ramCode : BitVec 4) : Nat := if ramCode.toNat = 0 then 0 else 1 <<< (ramCode.toNat - 1)

/-- The configuration a LOAD asks for (R44, R78). -/
def loadCfgOf (romShift ramCode : BitVec 4) (op1 : BitVec 32) : LoadCfg :=
  { totalBanks := totalBanksOf romShift, ramBanks := ramBanksOf ramCode, ramSizeBytes := op1.toNat }

/-- LOAD validation (R171). -/
def loadValid (ramCode : BitVec 4) (cfg : LoadCfg) : Bool :=
  decide (ramCode.toNat ≤ 5) &&
  (if cfg.ramBanks = 0 then decide (cfg.ramSizeBytes = 0)
   else decide (1 ≤ cfg.ramSizeBytes) && decide (cfg.ramSizeBytes ≤ cfg.ramBanks * Config.ramBankSize))

/-! ## Bank addresses (R52, R147) -/

/-- The image offset of a bank: `b × ROM_BANK_SIZE`. -/
def bankOffset (b : Nat) : Nat := b * Config.romBankSize

end Sys2Proof.Machine
end

