-- ==== Sys2Proof/Machine/Cache.lean ====
section
/-! DEFINITION. The LRU cache controller (42_cache.md): CACHE_GET and its steps. None of these is a request of its own. -/

namespace Sys2Proof.Machine

/-- What CACHE_GET answers (R140): BANK0, SLOT(i) with the bytes of that slot, or NULL. -/
inductive GetResult where
  | bank0
  | slot (i : Nat) (data : Memory)
  | null
deriving DecidableEq, Repr

/-! ## Lookup and recency -/

/-- The bytes of a slot that holds bank `b`: `allocated = 1` and `occupant = some b` (R142). -/
def Slot.holding (b : Nat) (sl : Slot) : Option Memory :=
  if sl.allocated then
    match sl.occupant with
    | none => none
    | some o => if o.bank = b then some o.data else none
  else none

/-- LOOKUP(b) (R142): the slot that holds bank `b`, and its bytes. -/
def lookup (b : Nat) : List Slot → Option (Nat × Memory)
  | [] => none
  | sl :: rest =>
    match sl.holding b with
    | some data => some (0, data)
    | none => (lookup b rest).map fun r => (r.1 + 1, r.2)

/-- `sat_dec` of a recency counter (R13, R143). -/
def satDec (r : BitVec 8) : BitVec 8 := if r = 0 then 0 else r - 1

/-- One slot's part of TOUCH (R143). -/
def Slot.touched (hit : Bool) (sl : Slot) : Slot :=
  { sl with recency := if hit then Config.recencyMax else satDec sl.recency }

/-- TOUCH(i) (R143): slot `i` to 255, every other slot one down, floor 0. -/
def touch (i : Nat) (slots : List Slot) : List Slot :=
  match slots with
  | [] => []
  | sl :: rest =>
    match i with
    | 0 => sl.touched true :: rest.map (Slot.touched false)
    | j + 1 => sl.touched false :: touch j rest
termination_by structural slots

/-- The least recency in the pool (255 for an empty pool). -/
def minRecency : List Slot → Nat
  | [] => Config.recencyMax.toNat
  | sl :: rest => min sl.recency.toNat (minRecency rest)

/-- The least index whose slot satisfies `p` (the length if none does). -/
def firstIndex (p : Slot → Bool) : List Slot → Nat
  | [] => 0
  | sl :: rest => if p sl then 0 else firstIndex p rest + 1

/-- VICTIM() (R144): the least index with the least recency, whatever the slots hold. -/
def victim (slots : List Slot) : Nat := firstIndex (fun sl => sl.recency.toNat == minRecency slots) slots

/-- The largest recency among the occupied slots (0 if none is occupied). -/
def maxOccupiedRecency : List Slot → Nat
  | [] => 0
  | sl :: rest => if sl.occupant.isSome then max sl.recency.toNat (maxOccupiedRecency rest) else maxOccupiedRecency rest

/-- HOTTEST() (R150): the least index among the occupied slots with the largest recency; none if no slot is occupied. -/
def hottest (slots : List Slot) : Option Nat :=
  let i := firstIndex (fun sl => sl.occupant.isSome && sl.recency.toNat == maxOccupiedRecency slots) slots
  if i < slots.length then some i else none

/-! ## Eviction and allocation -/

/-- Free every allocated slot whose index, counted from `j`, is not the kept one (R151). -/
def freeExcept (keep : Option Nat) (j : Nat) : List Slot → List Slot
  | [] => []
  | sl :: rest => (if sl.allocated && keep != some j then Slot.free else sl) :: freeExcept keep (j + 1) rest

/-- EVICT_NONESSENTIAL() (R151); REMEDIATE() is the same pass (R146). -/
def evictNonessential (s : State) : State := s.withSlots (freeExcept (hottest s.slots) 0 s.slots)

/-- Does slot `v` own a buffer? -/
def slotAllocated (v : Nat) (slots : List Slot) : Bool :=
  match slots[v]? with
  | none => false
  | some sl => sl.allocated

/-- `slot[v].allocated <- 1` (R145). -/
def allocate (v : Nat) (slots : List Slot) : List Slot := slots.modify v fun sl => { sl with allocated := true }

/-- ENSURE_BUFFER(v) (R145): the first `Alloc()`, then one remediation and one retry. -/
def ensureBuffer (v : Nat) (s : State) : Bool × State :=
  if slotAllocated v s.slots then (true, s)
  else if s.draws.allocOk then (true, s.withSlots (allocate v s.slots))
  else
    let s1 := evictNonessential s
    if s1.draws.allocRetryOk then (true, s1.withSlots (allocate v s1.slots)) else (false, s1)

/-- The overwrite of a fill (R147): the slot's bytes and occupant. -/
def fill (v b : Nat) (data : Memory) (slots : List Slot) : List Slot :=
  slots.modify v fun sl => { sl with occupant := some { bank := b, data := data } }

/-- INIT_POOL(eager) (R152). -/
def initPool (eager : Bool) (slots : List Slot) : List Slot :=
  slots.map fun _ => { allocated := eager, occupant := none, recency := 0 }

/-! ## get -/

/-- MISS(b) (R147), for a bank `b > 0` that is not resident: victim, buffer, fetch, overwrite, touch. -/
def miss (c : Cart) (b : Nat) (s : State) : GetResult × State :=
  let v := victim s.slots
  match ensureBuffer v s with
  | (false, s1) => (.null, s1.raise .allocationFailed)
  | (true, s1) =>
    match storageRead c.romImage (bankOffset b) Config.romBankSize s1.draws.bankFetchOk s1 with
    | (none, s2) => (.null, s2.raise .bankFetchFailed)
    | (some data, s2) => (.slot v data, s2.withSlots (touch v (fill v b data s2.slots)))

/-- CACHE_GET(b) (R140, R141): bank 0 bypasses the pool; a hit touches; anything else is a miss. -/
def cacheGet (c : Cart) (b : Nat) (s : State) : GetResult × State :=
  if b = 0 then (.bank0, s)
  else
    match lookup b s.slots with
    | some (i, data) => (.slot i data, s.withSlots (touch i s.slots))
    | none => miss c b s

/-- RESOLVE(b) (R103): the mapped bank as a buffer at the time of the read; a resident bank is read with no recency change. -/
def resolve (c : Cart) (b : Nat) (s : State) : GetResult × State :=
  if b = 0 then (.bank0, s)
  else
    match lookup b s.slots with
    | some (i, data) => (.slot i data, s)
    | none => cacheGet c b s

end Sys2Proof.Machine
end

