-- ==== Sys2Proof/Machine/Flags.lean ====
section
/-! DEFINITION. The one-bit flags (R40) and the status words a host reads (R36, R37, R38). -/

namespace Sys2Proof.Machine

/-! ## Flags (R40) -/

/-- `ramEnabled <- en` (R122, R126). -/
def Mbc.setRamEnabled (m : Mbc) (en : Bool) : Mbc := { m with ramEnabled := en }

/-- `bankingModeSelect <- m` (R125). -/
def Mbc.setMode (m : Mbc) (mode : Bool) : Mbc := { m with bankingModeSelect := mode }

/-- `romLogged <- 1` with its LOG event, the first time only (R104). -/
def State.logRomOnce (s : State) : State :=
  if s.romLogged then s else ({ s with romLogged := true }).emit (.log s.lastError)

/-- What LOAD clears at its entry (R172, R209): `lastError` and `romLogged`. -/
def State.clearLoadFlags (s : State) : State := { s with lastError := 0, romLogged := false }

/-! ## Status words -/

/-- The STATUS word (R36): LOADED [0], FATAL [1], ROMLOG [2], LASTERR [7:4], the other bits 0. -/
def statusWord (s : State) : BitVec 16 :=
  0#8 ++ s.lastError ++ 0#1 ++ BitVec.ofBool s.romLogged ++ BitVec.ofBool s.fatal ++ BitVec.ofBool s.loaded

/-- The MBCSTAT word of a loaded cartridge (R37): ROMBANK [6:0], RAMBANK [10:8], RAMEN [11], MODE [12], VARIANT [13], MAPV [14],
MAPPED [22:16], the other bits 0. -/
def cartStatusWord (c : Cart) : BitVec 32 :=
  0#9 ++ BitVec.ofNat 7 (c.mappedBank.getD 0) ++ 0#1 ++ BitVec.ofBool c.mappedBank.isSome ++ BitVec.ofBool c.mbc.mapperVariant.bit ++
    BitVec.ofBool c.mbc.bankingModeSelect ++ BitVec.ofBool c.mbc.ramEnabled ++ c.mbc.currentRamBank ++ 0#1 ++ c.mbc.currentRomBank

/-- The MBCSTAT word (R37, R179): 0 while not loaded. -/
def mbcStatusWord (s : State) : BitVec 32 :=
  match s.cart with
  | none => 0
  | some c => cartStatusWord c

/-- The SLOTSTAT word (R38): RECENCY [7:0], OCCUPANT [23:8], ALLOC [24], OCC [25], the other bits 0. -/
def slotStatusWord (sl : Slot) : BitVec 32 :=
  0#6 ++ BitVec.ofBool sl.bank.isSome ++ BitVec.ofBool sl.allocated ++ BitVec.ofNat 16 (sl.bank.getD 0) ++ sl.recency

end Sys2Proof.Machine
end

