-- ==== Sys2Proof/Machine/Mbc.lean ====
section
/-! DEFINITION. The MBC state machine (41_mbc.md): the register writes of Variant A and Variant B, and SELECT. -/

namespace Sys2Proof.Machine

/-- SELECT() (R121) on the cartridge `c`: the mapping follows a CACHE_GET that found its bank and stays on NULL. -/
def select (c : Cart) (s : State) : State :=
  match cacheGet c c.mbc.currentRomBank.toNat s with
  | (.bank0, s1) => s1.withCart { c with mappedBank := some 0 }
  | (.slot _ _, s1) => s1.withCart { c with mappedBank := some c.mbc.currentRomBank.toNat }
  | (.null, s1) => s1.withCart c

/-- A register write (R110, R120): dropped while not loaded (R101), else its effect and `respond(done)`. -/
def mbcWrite (s : State) (effect : Cart → State) : Host.Outcome State Fault Refusal :=
  cpuServe s .done fun c => (effect c).respond .done

/-- A write that changes a latch and runs no SELECT. -/
def latchWrite (s : State) (f : Cart → Mbc) : Host.Outcome State Fault Refusal :=
  mbcWrite s fun c => s.withCart (c.withMbc (f c))

/-- `currentRomBank <- b`, then SELECT (R121). -/
def selectBank (c : Cart) (b : BitVec 7) (s : State) : State :=
  select (c.withMbc { c.mbc with currentRomBank := b }) s

/-! ## Variant A -/

/-- WR_A_RAMEN (R122). -/
def execWrARamen (d : Byte) (s : State) : Host.Outcome State Fault Refusal :=
  latchWrite s fun c => c.mbc.setRamEnabled (ramEnableValue d)

/-- WR_A_ROMLO (R123). -/
def execWrARomlo (d : Byte) (s : State) : Host.Outcome State Fault Refusal :=
  mbcWrite s fun c => selectBank c (romLowSelect c.cfg c.mbc.currentRomBank d) s

/-- WR_A_HIGH (R124): the ROM-bank high bits in mode 0, the RAM bank in mode 1. -/
def execWrAHigh (d : Byte) (s : State) : Host.Outcome State Fault Refusal :=
  mbcWrite s fun c =>
    if c.mbc.bankingModeSelect then
      s.withCart (c.withMbc { c.mbc with currentRamBank := maskRamBank c.cfg (highField d) })
    else selectBank c (romHighSelect c.cfg c.mbc.currentRomBank d) s

/-- WR_A_MODE (R125). -/
def execWrAMode (d : Byte) (s : State) : Host.Outcome State Fault Refusal :=
  latchWrite s fun c => c.mbc.setMode (modeField d)

/-! ## Variant B -/

/-- WR_B_RAMEN (R126). -/
def execWrBRamen (d : Byte) (s : State) : Host.Outcome State Fault Refusal :=
  latchWrite s fun c => c.mbc.setRamEnabled (ramEnableValue d)

/-- WR_B_ROMSEL (R127). -/
def execWrBRomsel (d : Byte) (s : State) : Host.Outcome State Fault Refusal :=
  mbcWrite s fun c => selectBank c (romFullSelect c.cfg d) s

/-- WR_B_RAMSEL (R128). -/
def execWrBRamsel (d : Byte) (s : State) : Host.Outcome State Fault Refusal :=
  latchWrite s fun c => { c.mbc with currentRamBank := maskRamBank c.cfg (ramSelField d) }

/-- WR_B_LATCH (R129): changes no state. -/
def execWrBLatch (s : State) : Host.Outcome State Fault Refusal :=
  mbcWrite s fun _ => s

end Sys2Proof.Machine
end

