-- ==== Sys2Proof/Machine/HostPort.lean ====
section
/-! DEFINITION. The host commands (43_host.md). The entry checks of R170 stand in `hostServe` and `hostServeLoaded` (Ops.lean). -/

namespace Sys2Proof.Machine

/-- UNLOAD_EFFECTS() (R173): every buffer freed, `MbcState`, `cfg`, the mapping, bank 0 and the RAM destroyed. -/
def unloadEffects (s : State) : State :=
  { s with cart := none, slots := s.slots.map fun _ => Slot.free }

/-- The cartridge right after LOAD and before its initial SELECT (R172, R43). -/
def freshCart (variant : Variant) (cfg : LoadCfg) (bank0 : Memory) (p : Payload) : Cart :=
  { cfg := cfg
    mbc := { currentRomBank := maskRomBank cfg 1, currentRamBank := 0, ramEnabled := false, bankingModeSelect := false,
             mapperVariant := variant }
    mappedBank := none
    bank0 := bank0
    ram := p.ramInit.slice 0 cfg.ramSizeBytes
    romImage := p.romImage }

/-- What LOAD starts from, once its operands are valid (R172): a loaded cartridge is unloaded, `lastError` and `romLogged` cleared. -/
def loadEntry (s : State) : State := (if s.loaded then unloadEffects s else s).clearLoadFlags

/-- LOAD of a valid configuration (R172): bank 0 fetched once; FATAL if that fails (R205); else the fresh cartridge, the pool, and
the initial SELECT. -/
def loadCartridge (variant : Variant) (cfg : LoadCfg) (eager : Bool) (s : State) : State :=
  match storageRead s.payload.romImage (bankOffset 0) Config.romBankSize s.draws.bank0FetchOk (loadEntry s) with
  | (none, s1) => s1.enterFatal.respond (.host .failed .empty)
  | (some bank0, s1) =>
    (select (freshCart variant cfg bank0 s.payload) (s1.withSlots (initPool eager s1.slots))).respond (.host .ok .empty)

/-- LOAD (R171, R172). -/
def execLoad (variant : Variant) (romShift ramCode : BitVec 4) (eager : Bool) (s : State) : Host.Outcome State Fault Refusal :=
  let cfg := loadCfgOf romShift ramCode s.payload.op1
  hostServe s
    (if loadValid ramCode cfg then loadCartridge variant cfg eager s
     else (s.raise .corruptOrOversizedInput).respond (.host .failed .empty))

/-- UNLOAD (R173): no effect while nothing is loaded. -/
def execUnload (s : State) : Host.Outcome State Fault Refusal :=
  hostServe s ((if s.loaded then unloadEffects s else s).respond (.host .ok .empty))

/-- The answer of GET_ROM_BANK, once the cache has answered (R174). -/
def answerGet (c : Cart) (r : GetResult × State) : State :=
  match r with
  | (.bank0, s) => s.respond (.host .ok (.bytes (c.bank0.bytes Config.romBankSize)))
  | (.slot _ data, s) => s.respond (.host .ok (.bytes (data.bytes Config.romBankSize)))
  | (.null, s) => s.respond (.host .null .empty)

/-- GET_ROM_BANK (R174). -/
def execGetRomBank (bank : BitVec 16) (s : State) : Host.Outcome State Fault Refusal :=
  hostServeLoaded s fun c =>
    if c.cfg.totalBanks ≤ bank.toNat then (s.raise .corruptOrOversizedInput).respond (.host .null .empty)
    else answerGet c (cacheGet c bank.toNat s)

/-- PRESSURE_EVICT (R175). -/
def execPressureEvict (s : State) : Host.Outcome State Fault Refusal :=
  hostServeLoaded s fun _ => (evictNonessential s).respond (.host .ok .empty)

/-- SRAM_EXPORT (R176). -/
def execSramExport (s : State) : Host.Outcome State Fault Refusal :=
  hostServeLoaded s fun c => s.respond (.host .ok (.bytes (c.ram.bytes c.cfg.ramSizeBytes)))

/-- SRAM_IMPORT (R177): the first `min(L, ramSizeBytes)` bytes of the string. -/
def execSramImport (s : State) : Host.Outcome State Fault Refusal :=
  hostServeLoaded s fun c =>
    (s.withCart { c with ram := Memory.writeBytes 0 (s.payload.src.take c.cfg.ramSizeBytes) c.ram }).respond (.host .ok .empty)

/-- READ_STATUS (R178): in every state, FATAL included. -/
def execReadStatus (s : State) : Host.Outcome State Fault Refusal := .next (s.respond (.host .ok (.word16 (statusWord s))))

/-- READ_MBC (R179): in every state. -/
def execReadMbc (s : State) : Host.Outcome State Fault Refusal := .next (s.respond (.host .ok (.word32 (mbcStatusWord s))))

/-- READ_SLOT (R180): in every state; REFUSED for a slot that does not exist. -/
def execReadSlot (slot : BitVec 16) (s : State) : Host.Outcome State Fault Refusal :=
  match s.slots[slot.toNat]? with
  | none => .next s.refuse
  | some sl => .next (s.respond (.host .ok (.word32 (slotStatusWord sl))))

/-- HOST_RESERVED (R81): REFUSED with no state change. -/
def execHostReserved (s : State) : Host.Outcome State Fault Refusal := .next s.refuse

end Sys2Proof.Machine
end

