-- ==== Sys2Proof/Machine/Router.lean ====
section
/-! DEFINITION. The banked memory router (40_router.md): the ROM window, the RAM window and the addresses that are passed on. -/

namespace Sys2Proof.Machine

/-- SENTINEL_ROM() (R104): 0xFF, logged once per load. -/
def sentinelRom (s : State) : State := s.logRomOnce.respond (.byte Config.sentinel)

/-- The answer to a ROM-window read at `off`, once the mapped bank is resolved (R107). -/
def answerRomx (c : Cart) (off : Nat) (r : GetResult × State) : State :=
  match r with
  | (.bank0, s) => s.respond (.byte (c.bank0.read off))
  | (.slot _ data, s) => s.respond (.byte (data.read off))
  | (.null, s) => sentinelRom s

/-- RD_ROMX(off) on a loaded cartridge (R107). -/
def readRomWindow (c : Cart) (off : Nat) (s : State) : State :=
  match c.mappedBank with
  | none => sentinelRom s
  | some b => answerRomx c off (resolve c b s)

/-- RD_RAM(woff) on a loaded cartridge (R108). -/
def readRamWindow (c : Cart) (woff : BitVec 13) (s : State) : State :=
  match ramOffset c woff with
  | none => s.respond (.byte Config.sentinel)
  | some k => s.respond (.byte (c.ram.read k))

/-- WR_RAM(woff, d) on a loaded cartridge (R109). -/
def writeRamWindow (c : Cart) (woff : BitVec 13) (d : Byte) (s : State) : State :=
  match ramOffset c woff with
  | none => s.respond .done
  | some k => (s.withCart { c with ram := c.ram.write k d }).respond .done

/-- RD_ROMX (R107); while not loaded it answers 0xFF (R101). -/
def execRdRomx (off : BitVec 14) (s : State) : Host.Outcome State Fault Refusal :=
  cpuServe s (.byte Config.sentinel) fun c => readRomWindow c off.toNat s

/-- RD_RAM (R108); while not loaded it answers 0xFF (R101). -/
def execRdRam (woff : BitVec 13) (s : State) : Host.Outcome State Fault Refusal :=
  cpuServe s (.byte Config.sentinel) fun c => readRamWindow c woff s

/-- WR_RAM (R109); while not loaded it is dropped (R101). -/
def execWrRam (woff : BitVec 13) (d : Byte) (s : State) : Host.Outcome State Fault Refusal :=
  cpuServe s .done fun c => writeRamWindow c woff d s

/-- PASS_ROM0_RD (R106): a read of [0x0000,0x4000). -/
def execPassRom0Rd (s : State) : Host.Outcome State Fault Refusal := passOn s

/-- PASS_8000 (R106): an access to [0x8000,0xA000). -/
def execPass8000 (s : State) : Host.Outcome State Fault Refusal := passOn s

/-- PASS_C000 (R106): an access to [0xC000,0x10000). -/
def execPassC000 (s : State) : Host.Outcome State Fault Refusal := passOn s

end Sys2Proof.Machine
end

