-- ==== Sys2Proof/Machine/Dispatch.lean ====
section
/-! DEFINITION. One arm per request of the opcode table, each a direct call of its meaning (R102, R170). -/

namespace Sys2Proof.Machine

def exec (i : Instr) (s : State) : Host.Outcome State Fault Refusal :=
  match i with
  | .wrARamen _ d => Sys2Proof.Machine.execWrARamen d s
  | .wrARomlo _ d => Sys2Proof.Machine.execWrARomlo d s
  | .wrAHigh _ d => Sys2Proof.Machine.execWrAHigh d s
  | .wrAMode _ d => Sys2Proof.Machine.execWrAMode d s
  | .wrBRamen _ d => Sys2Proof.Machine.execWrBRamen d s
  | .wrBRomsel _ d => Sys2Proof.Machine.execWrBRomsel d s
  | .wrBRamsel _ d => Sys2Proof.Machine.execWrBRamsel d s
  | .wrBLatch _ _ => Sys2Proof.Machine.execWrBLatch s
  | .rdRomx _ off _ => Sys2Proof.Machine.execRdRomx off s
  | .rdRam _ woff _ => Sys2Proof.Machine.execRdRam woff s
  | .wrRam _ woff d => Sys2Proof.Machine.execWrRam woff d s
  | .passRom0Rd _ _ _ => Sys2Proof.Machine.execPassRom0Rd s
  | .pass8000 _ _ _ _ => Sys2Proof.Machine.execPass8000 s
  | .passC000 _ _ _ _ => Sys2Proof.Machine.execPassC000 s
  | .load variant romShift ramCode eager => Sys2Proof.Machine.execLoad variant romShift ramCode eager s
  | .unload => Sys2Proof.Machine.execUnload s
  | .getRomBank bank => Sys2Proof.Machine.execGetRomBank bank s
  | .pressureEvict => Sys2Proof.Machine.execPressureEvict s
  | .sramExport => Sys2Proof.Machine.execSramExport s
  | .sramImport => Sys2Proof.Machine.execSramImport s
  | .readStatus => Sys2Proof.Machine.execReadStatus s
  | .readMbc => Sys2Proof.Machine.execReadMbc s
  | .readSlot slot => Sys2Proof.Machine.execReadSlot slot s
  | .hostReserved _ => Sys2Proof.Machine.execHostReserved s

end Sys2Proof.Machine
end

