-- ==== Sys2Proof/Machine/Step.lean ====
section
/-! DEFINITION. One step: the block serves the next request of its stream (R54, R59), or takes the RESET signal (R220). -/

namespace Sys2Proof.Machine

/-- One step. A CPU access the DMA stage claims is taken off the stream and nothing else happens (R100); an unclaimed one is
decoded with V from the state (R72, R102); a host command is decoded from its word (R170); with nothing waiting the block
does nothing (DESIGN CHOICE, safe: notes/assumptions/4.md). -/
def step (s : State) : Host.Outcome State Fault Refusal :=
  match s.arrivals with
  | [] => .next s
  | .reset :: rest => .next ({ s with arrivals := rest }).afterReset
  | .cpu we a d dmaClaims draws :: rest =>
    if dmaClaims then .next { s with arrivals := rest }
    else exec (decodeKey (s.key we a d)) (s.latchCpu rest draws)
  | .host w p draws :: rest => exec (decodeHost w) (s.latchHost rest p draws)

/-- The state with a word of the opcode table as the next request (Ops.lean, `State.present`). -/
def State.withFetchWord (s : State) (nbits w : Nat) : State := s.present nbits w

end Sys2Proof.Machine
end

