-- ==== Sys2Proof/Safety.lean ====
section
/-! DEFINITION. What a sound state is: the invariants of R42, the ranges of R11, R22, R23 and R29, and the canonical form of every
byte buffer. -/

namespace Sys2Proof.Machine

/-- A load configuration of R11 and R171. -/
structure LoadCfg.Valid (cfg : LoadCfg) : Prop where
  totalBanks : ∃ k, k ≤ 15 ∧ cfg.totalBanks = 2 ^ k
  ramBanks : cfg.ramBanks = 0 ∨ ∃ k, k ≤ 4 ∧ cfg.ramBanks = 2 ^ k
  noRam : cfg.ramBanks = 0 → cfg.ramSizeBytes = 0
  someRam : 0 < cfg.ramBanks → 1 ≤ cfg.ramSizeBytes ∧ cfg.ramSizeBytes ≤ cfg.ramBanks * 8192

/-- The cartridge part of R42 (INV4, INV8, INV9), with R23's 2 bits in Variant A. -/
structure Cart.Sound (c : Cart) : Prop where
  cfg : c.cfg.Valid
  romBank : c.mbc.currentRomBank.toNat < c.cfg.totalBanks
  ramBank : c.mbc.currentRamBank.toNat < max 1 c.cfg.ramBanks
  ramBankA : c.mbc.mapperVariant = .a → c.mbc.currentRamBank.toNat < 4
  modeB : c.mbc.mapperVariant = .b → c.mbc.bankingModeSelect = false
  mapped : ∀ b, c.mappedBank = some b → b < c.cfg.totalBanks ∧ b < 128
  bank0 : ∀ k, k < 16384 → c.bank0.read k = c.romImage.read k

/-- The pool part of R42 (INV1, INV2, INV5, INV7) and R11's `N ≥ 1`. -/
structure PoolSound (slots : List Slot) : Prop where
  nonempty : 1 ≤ slots.length
  oneHome : ∀ (i j : Nat) (x y : Slot) (b : Nat),
    slots[i]? = some x → slots[j]? = some y → x.bank = some b → y.bank = some b → i = j
  notBank0 : ∀ x, x ∈ slots → x.bank ≠ some 0
  allocated : ∀ x, x ∈ slots → x.bank ≠ none → x.allocated = true
  oneHot : ∀ (i j : Nat) (x y : Slot),
    slots[i]? = some x → slots[j]? = some y → x.recency = 255 → y.recency = 255 → i = j

/-- A slot's occupant is a bank of the cartridge and its bytes are that bank's (R29, R42 INV6). -/
def Slot.Faithful (c : Cart) (sl : Slot) : Prop :=
  ∀ o, sl.occupant = some o → o.bank < c.cfg.totalBanks ∧ ∀ k, k < 16384 → o.data.read k = c.romImage.read (o.bank * 16384 + k)

/-- The invariant of R42, with what R43 says of a block that is not loaded and of a fatal one (a fatal block holds no cartridge: the
LOAD that failed unloaded it, and LOAD is refused in FATAL). -/
structure State.Sound (s : State) : Prop where
  pool : PoolSound s.slots
  cart : ∀ c, s.cart = some c → c.Sound ∧ ∀ x ∈ s.slots, x.Faithful c
  unloaded : s.cart = none → ∀ x ∈ s.slots, x = Slot.free
  fatal : s.fatal = true → s.cart = none

/-- The buffers a payload brings are in canonical form. -/
def Payload.Canonical (p : Payload) : Prop := p.romImage.wf ∧ p.ramInit.wf

/-- The buffers an arrival brings are in canonical form. -/
def Arrival.Canonical : Arrival → Prop
  | .cpu _ _ _ _ _ => True
  | .host _ p _ => p.Canonical
  | .reset => True

/-- A cartridge's buffers are in canonical form, and its RAM has no byte from `ramSizeBytes` on (R31). -/
structure Cart.Canonical (c : Cart) : Prop where
  bank0 : c.bank0.wf
  ram : c.ram.wf
  ramBound : ∀ cell ∈ c.ram, cell.1 < c.cfg.ramSizeBytes
  romImage : c.romImage.wf

/-- Every byte buffer of the state is in canonical form. -/
structure State.Canonical (s : State) : Prop where
  cart : ∀ c, s.cart = some c → c.Canonical
  slots : ∀ x ∈ s.slots, ∀ o, x.occupant = some o → o.data.wf
  payload : s.payload.Canonical
  arrivals : ∀ a ∈ s.arrivals, a.Canonical

end Sys2Proof.Machine
end

