-- ==== Sys2Proof/Certificates/Slice0/Obligations.lean ====
section
/-! DEFINITION. The statements for the provers. Each names the rule of spec/ it formalises; where a clause rests on a choice of the
model's, it says so. Values are written from the spec's own formulas, not through the model's operand helpers. Where the spec marks a
rule as its own choice (a decision D<n> of 92_eei_decisions.md) or as derived from other rules, the statement formalises the rule as it
is written there; OBLIGATIONS.json lists the rules the spec derives as the basis 'derived'. -/

open Sys2Proof Sys2Proof.Machine

/-- What a write of ROM bank `b` leaves besides its response (R121): the latch, and what CACHE_GET and the mapping rule of SELECT
change; every field not named is that of `s`. -/
def Sys2Proof.Machine.afterSelect (s : State) (c : Cart) (b : BitVec 7) : State :=
  let c' : Cart := { c with mbc := { c.mbc with currentRomBank := b } }
  let g := cacheGet c' b.toNat s
  { s with
    slots := g.2.slots
    lastError := g.2.lastError
    events := g.2.events
    cart := some { c' with
      mappedBank := match g.1 with
        | .bank0 => some 0
        | .slot _ _ => some b.toNat
        | .null => c.mappedBank } }

/-- Slot `i` of `slots` holds bank `b` with the bytes `data` (R142). -/
def Sys2Proof.Machine.Resident (slots : List Slot) (i b : Nat) (data : Memory) : Prop :=
  ∃ r, slots[i]? = some { allocated := true, occupant := some { bank := b, data := data }, recency := r }

/-- `v` is the victim of `slots` (R144): the least index with the least recency. -/
def Sys2Proof.Machine.IsVictim (slots : List Slot) (v : Nat) : Prop :=
  ∃ x, slots[v]? = some x ∧ (∀ y ∈ slots, x.recency.toNat ≤ y.recency.toNat) ∧
    ∀ j y, j < v → slots[j]? = some y → x.recency.toNat < y.recency.toNat

/-- `h` is the hottest slot of `slots` (R150): the least index among the occupied slots with the largest recency. -/
def Sys2Proof.Machine.IsHottest (slots : List Slot) (h : Nat) : Prop :=
  ∃ x, slots[h]? = some x ∧ x.occupant ≠ none ∧ (∀ y ∈ slots, y.occupant ≠ none → y.recency.toNat ≤ x.recency.toNat) ∧
    ∀ j y, j < h → slots[j]? = some y → y.occupant ≠ none → y.recency.toNat < x.recency.toNat

/-- `slots'` is `slots` after EVICT_NONESSENTIAL (R151): every allocated slot but the hottest is free, the others are as before. -/
def Sys2Proof.Machine.Evicted (slots slots' : List Slot) : Prop :=
  slots'.length = slots.length ∧ ∀ (i : Nat) (x : Slot), slots[i]? = some x →
    (x.allocated = true → ¬ IsHottest slots i → slots'[i]? = some { allocated := false, occupant := none, recency := 0 }) ∧
    (x.allocated = false ∨ IsHottest slots i → slots'[i]? = some x)

/-! ## Encoding -/

/-- Decoding the word of any well-formed request, on its port, gives the request back: no field is dropped (R70, R71, R73, R76). -/
def Obligations.DecodeOfEncodeGivesTheRequestBack : Prop :=
  ∀ i : Instr, i.wellFormed = true → decode i.port (encode i) = .ok i

/-- Each word has one meaning and one spelling: what a port's word decodes to is well-formed, belongs to that port, and encodes to
the same word (R70, R85). -/
def Obligations.EncodeOfDecodeGivesTheWordBack : Prop :=
  ∀ (p : Port) (w : BitVec 32) (i : Instr), decode p w = .ok i → i.wellFormed = true ∧ i.port = p ∧ encode i = w

/-- R71: K = (V << 25) | (WE << 24) | (A << 8) | D, as a number. -/
def Obligations.KeyIsAssembledAsR71Says : Prop :=
  ∀ (v : Variant) (we : Bool) (a : Addr) (d : Byte),
    (assembleKey v we a d).toNat = (v.bit.toNat <<< 25) ||| (we.toNat <<< 24) ||| (a.toNat <<< 8) ||| d.toNat

/-- R73, R85: every key matches exactly one row of the table, and the decoder answers that row. -/
def Obligations.CpuKeyDecodesToTheOneRowItMatches : Prop :=
  ∀ k : CpuKey, ∃ r ∈ cpuTable, r.holds k ∧ (decodeKey k).mnemonic = r.mnemonic ∧ ∀ r' ∈ cpuTable, r'.holds k → r' = r

/-- R76, R81: a host word decodes to the command whose mask and value it matches, and to HOST_RESERVED when it matches none (CMD 0x0
or 0xA-0xF, or a reserved bit set). -/
def Obligations.HostWordDecodesByItsMaskAndValue : Prop :=
  ∀ h : HostWord,
    (∀ r ∈ hostTable, r.holds h ↔ (decodeHost h).mnemonic = r.mnemonic) ∧
    ((∀ r ∈ hostTable, ¬ r.holds h) ↔ decodeHost h = .hostReserved h)

/-- R76, R78, R79: where the fields of LOAD, GET_ROM_BANK and READ_SLOT stand in the word, as numbers. -/
def Obligations.HostFieldsStandWhereR76PutsThem : Prop :=
  (∀ (v : Variant) (shift code : BitVec 4) (eager : Bool),
    decodeHost (BitVec.ofNat 32 (1 + 16 * v.bit.toNat + 32 * shift.toNat + 512 * code.toNat + 8192 * eager.toNat)) =
      .load v shift code eager) ∧
  (∀ bank : BitVec 16, decodeHost (BitVec.ofNat 32 (3 + 16 * bank.toNat)) = .getRomBank bank) ∧
  (∀ slot : BitVec 16, decodeHost (BitVec.ofNat 32 (9 + 16 * slot.toNat)) = .readSlot slot)

/-- Words of 95_test_vectors.md, written out there, decode to the requests they stand for. -/
def Obligations.SpecWordsDecodeToTheirRequests : Prop :=
  decodeKey 0x100000A#26 = .wrARamen 0 0x0A ∧ decodeKey 0x13FFF1F#26 = .wrARomlo 0x1FFF 0x1F ∧
  decodeKey 0x3200045#26 = .wrBRomsel 0 0x45 ∧ decodeKey 0x07FFF00#26 = .rdRomx .a 0x3FFF 0 ∧
  decodeKey 0x3A01042#26 = .wrRam .b 0x10 0x42 ∧ decodeKey 0x1FFFF00#26 = .passC000 .a true 0x3FFF 0 ∧
  decodeHost 0x00002241#32 = .load .a 2 1 true ∧ decodeHost 0x00000053#32 = .getRomBank 5 ∧
  decodeHost 0x00000012#32 = .hostReserved 0x12

/-! ## One step -/

/-- R71, R72, R102: an unclaimed CPU access at the head of the stream runs the request its key decodes to, with V taken from the state
(0 while not loaded); a host command (R70, R76) runs the request its word decodes to. The request leaves the stream, and its
payloads and draws are the ones in force. -/
def Obligations.StepRunsTheDecodedRequest : Prop :=
  (∀ (s : State) (we : Bool) (a : Addr) (d : Byte) (dr : Draws) (rest : List Arrival),
    s.arrivals = .cpu we a d false dr :: rest →
    step s = exec (decodeKey (assembleKey (match s.cart with | none => .a | some c => c.mbc.mapperVariant) we a d))
      { s with arrivals := rest, draws := dr }) ∧
  (∀ (s : State) (w : HostWord) (p : Payload) (dr : Draws) (rest : List Arrival),
    s.arrivals = .host w p dr :: rest →
    step s = exec (decodeHost w) { s with arrivals := rest, payload := p, draws := dr })

/-- R100: a CPU access the DMA stage claims gets no step of the block: it leaves the stream, and no state changes and no response is
given. That a block with nothing waiting does nothing is the model's choice (notes/assumptions/4.md). -/
def Obligations.ClaimedAccessAndIdleBlockChangeNothing : Prop :=
  (∀ (s : State) (we : Bool) (a : Addr) (d : Byte) (dr : Draws) (rest : List Arrival),
    s.arrivals = .cpu we a d true dr :: rest → step s = .next { s with arrivals := rest }) ∧
  (∀ s : State, s.arrivals = [] → step s = .next s)

/-- R220: the RESET signal leaves nothing loaded, FATAL, ROMLOG and LASTERR clear, and every slot free, from any state; it makes no
storage request. What stays (the rest of the stream, the answers and events already given) is the model's choice
(notes/assumptions/5.md). -/
def Obligations.ResetSignalEmptiesTheBlock : Prop :=
  ∀ (s : State) (rest : List Arrival), s.arrivals = .reset :: rest →
    step s = .next { s with
      arrivals := rest, cart := none, fatal := false, romLogged := false, lastError := 0
      slots := List.replicate s.slots.length { allocated := false, occupant := none, recency := 0 } }

/-- R220, R43 (column "after RESET"): the state after reset. The pool size 4 is the reference value (notes/assumptions/1.md) and is not
stated here. -/
def Obligations.ResetStateHoldsTheValuesOfR43 : Prop :=
  State.reset.cart = none ∧ State.reset.loaded = false ∧ State.reset.bank0Valid = false ∧ State.reset.mappedBank = none ∧
  State.reset.fatal = false ∧ State.reset.romLogged = false ∧ State.reset.lastError = 0 ∧
  ∀ x ∈ State.reset.slots, x = { allocated := false, occupant := none, recency := 0 }

/-! ## Invariants -/

/-- The invariant of R42 and the canonical form hold after reset, whatever the pool's size N ≥ 1. -/
def Obligations.ResetStateIsSound : Prop :=
  ∀ n, 1 ≤ n → (State.resetOf n).Sound ∧ (State.resetOf n).Canonical

/-- Every step keeps the invariant of R42 (INV1, INV2, INV4 to INV9, with the ranges of R11, R22, R23), from every state that has it. -/
def Obligations.StepKeepsTheInvariantOfR42 : Prop :=
  ∀ s t : State, s.Sound → step s = .next t → t.Sound

/-- Every step keeps every byte buffer in canonical form and the cartridge RAM inside `ramSizeBytes` bytes (R31). -/
def Obligations.StepKeepsBuffersCanonical : Prop :=
  ∀ s t : State, s.Canonical → step s = .next t → t.Canonical

/-- R42, word for word, of every state reached from reset by any stream of requests on a block of any pool size N ≥ 1. -/
def Obligations.ReachedStatesMeetTheNineInvariants : Prop :=
  ∀ (n : Nat) (stream : List Arrival) (steps : Nat) (s : State) (c : Cart), 1 ≤ n →
    core.run steps { State.resetOf n with arrivals := stream } = .next s → s.cart = some c →
    -- INV1
    (∀ (i j b : Nat) (x y : Slot), 0 < b → s.slots[i]? = some x → s.slots[j]? = some y → x.bank = some b → y.bank = some b → i = j) ∧
    -- INV2
    (∀ x ∈ s.slots, x.bank ≠ some 0) ∧
    -- INV3
    (s.slots.filterMap Slot.bank).dedup.length ≤ n ∧
    -- INV4
    (s.bank0Valid = true ∧ ∀ k, k < 16384 → c.bank0.read k = c.romImage.read k) ∧
    -- INV5
    (∀ x ∈ s.slots, x.bank ≠ none → x.allocated = true) ∧
    -- INV6
    (∀ x ∈ s.slots, ∀ o, x.occupant = some o → ∀ k, k < 16384 → o.data.read k = c.romImage.read (o.bank * 16384 + k)) ∧
    -- INV7
    (∀ (i j : Nat) (x y : Slot), s.slots[i]? = some x → s.slots[j]? = some y → x.recency = 255 → y.recency = 255 → i = j) ∧
    -- INV8
    (c.mbc.currentRomBank.toNat < c.cfg.totalBanks ∧ c.mbc.currentRamBank.toNat < max 1 c.cfg.ramBanks ∧
      (c.mbc.mapperVariant = .b → c.mbc.bankingModeSelect = false)) ∧
    -- INV9
    (∀ b, c.mappedBank = some b → b < c.cfg.totalBanks)

/-- N is fixed (R11, R29): no step changes the number of slots. -/
def Obligations.StepKeepsThePoolSize : Prop :=
  ∀ s t : State, step s = .next t → t.slots.length = s.slots.length

/-- R53: every storage fetch a step makes is of 16384 bytes at a multiple of 16384, and (R16) below 2^29; a step makes at most two. -/
def Obligations.StepFetchesWholeAlignedBanks : Prop :=
  ∀ s t : State, s.Sound → step s = .next t → ∃ new : List Event,
    t.events = s.events ++ new ∧ (new.filter fun e => match e with | .fetch _ _ _ => true | .log _ => false).length ≤ 2 ∧
    ∀ off len ok, Event.fetch off len ok ∈ new → len = 16384 ∧ off % 16384 = 0 ∧ off < 2 ^ 29

/-! ## Whole-machine rules -/

/-- Every host command completes, and every CPU request completes unless the block is fatal, where it is stuck (R101, R206). -/
def Obligations.OnlyACpuRequestInFatalIsStuck : Prop :=
  ∀ (i : Instr) (s : State),
    (i.port = .host → ∃ t, exec i s = .next t) ∧
    (i.port = .cpu → s.fatal = false → ∃ t, exec i s = .next t) ∧
    (i.port = .cpu → s.fatal = true → exec i s = .fault .stuckInFatal)

/-- R206, R207: in FATAL no step but RESET changes anything the block holds or emits, FATAL included. -/
def Obligations.FatalIsLeftOnlyByReset : Prop :=
  ∀ s t : State, s.fatal = true → step s = .next t →
    (∃ rest, s.arrivals = .reset :: rest) ∨
    (t.fatal = true ∧ t.cart = s.cart ∧ t.romLogged = s.romLogged ∧ t.lastError = s.lastError ∧ t.slots = s.slots ∧ t.events = s.events)

/-- R205, R201: FATAL is entered only by a LOAD whose bank-0 fetch failed, which leaves `lastError` 2, nothing loaded, and answers
FAILED. -/
def Obligations.FatalIsEnteredOnlyByAFailedBank0Fetch : Prop :=
  ∀ s t : State, s.fatal = false → step s = .next t → t.fatal = true →
    ∃ w p dr rest v shift code eager, s.arrivals = .host w p dr :: rest ∧ decodeHost w = .load v shift code eager ∧
      dr.bank0FetchOk = false ∧ t.lastError = 2 ∧ t.cart = none ∧ t.response = some (.host .failed .empty)

/-- R26, R30, R44, R64: while a cartridge stays loaded, only LOAD changes its configuration, its variant, its image or its bank-0
buffer. -/
def Obligations.OnlyLoadChangesTheCartridge : Prop :=
  ∀ (s t : State) (c c' : Cart), step s = .next t → s.cart = some c → t.cart = some c' →
    (∃ w p dr rest v shift code eager, s.arrivals = .host w p dr :: rest ∧ decodeHost w = .load v shift code eager) ∨
    (c'.cfg = c.cfg ∧ c'.mbc.mapperVariant = c.mbc.mapperVariant ∧ c'.romImage = c.romImage ∧ c'.bank0 = c.bank0)

/-- R133: while `ramEnabled = 0` no CPU request changes the cartridge RAM, none reads it (on any other RAM contents the request does
just the same), and an RD_RAM answers 0xFF; and an enable, a write, then a read of the same address and bank gives the written byte,
when `ramBanks > 0` and the offset is below `ramSizeBytes`. -/
def Obligations.RamEnableLaw : Prop :=
  (∀ (s t : State) (c : Cart) (i : Instr), s.cart = some c → c.mbc.ramEnabled = false → i.port = .cpu → exec i s = .next t →
    (∃ c', t.cart = some c' ∧ c'.ram = c.ram) ∧
    (∀ ram', exec i { s with cart := some { c with ram := ram' } } = .next { t with cart := t.cart.map fun x => { x with ram := ram' } }) ∧
    (∀ v woff d, i = .rdRam v woff d → t.response = some (.byte 0xFF))) ∧
  (∀ (s : State) (c : Cart) (a : BitVec 13) (en : Instr) (v v' : Variant) (woff : BitVec 13) (d d' : Byte),
    s.fatal = false → s.cart = some c → c.ram.wf → 0 < c.cfg.ramBanks →
    c.mbc.currentRamBank.toNat * 8192 + woff.toNat < c.cfg.ramSizeBytes → (en = .wrARamen a 0x0A ∨ en = .wrBRamen a 0x0A) →
    ∃ s1 s2 s3, exec en s = .next s1 ∧ exec (.wrRam v woff d) s1 = .next s2 ∧ exec (.rdRam v' woff d') s2 = .next s3 ∧
      s3.response = some (.byte d))

/-- R56: a ROM-window read of a mapped bank answers that bank's image byte, or, when the bank is not resident and its refetch finds
no buffer, the sentinel 0xFF with the condition logged. -/
def Obligations.RomWindowShowsTheMappedBank : Prop :=
  ∀ (s : State) (c : Cart) (b : Nat) (v : Variant) (off : BitVec 14) (d : Byte),
    s.Sound → s.cart = some c → c.mappedBank = some b → ∃ t, exec (.rdRomx v off d) s = .next t ∧
      (t.response = some (.byte (c.romImage.read (b * 16384 + off.toNat))) ∨
        (b ≠ 0 ∧ (∀ x ∈ s.slots, x.bank ≠ some b) ∧ (s.draws.bankFetchOk = false ∨ s.draws.allocRetryOk = false) ∧
          t.response = some (.byte 0xFF) ∧ t.romLogged = true))

/-- R155: after a `get` of a bank b > 0 that answered SLOT(i), the next `get` of b is a hit on slot i with the same bytes and no storage
request, whatever else of the state or the draws differs; the first made a request only if b was not resident. -/
def Obligations.SecondGetIsAHit : Prop :=
  ∀ (c : Cart) (b i : Nat) (data : Memory) (s s1 s2 : State),
    PoolSound s.slots → b ≠ 0 → cacheGet c b s = (.slot i data, s1) → s2.slots = s1.slots →
    (∃ s3, cacheGet c b s2 = (.slot i data, s3) ∧ s3.events = s2.events) ∧
    ((∃ x ∈ s.slots, x.bank = some b) → s1.events = s.events)

/-! ## The router -/

/-- R101: while nothing is loaded (and not in FATAL) window reads answer 0xFF and writes to the RAM window and to the MBC registers are
dropped, with no state change. -/
def Obligations.UnloadedBlockAnswersFFAndDropsWrites : Prop :=
  ∀ (s : State) (v : Variant) (off : BitVec 14) (a : BitVec 13) (d : Byte), s.fatal = false → s.cart = none →
    exec (.rdRomx v off d) s = .next { s with response := some (.byte 0xFF) } ∧
    exec (.rdRam v a d) s = .next { s with response := some (.byte 0xFF) } ∧
    ∀ i ∈ [Instr.wrRam v a d, .wrARamen a d, .wrARomlo a d, .wrAHigh a d, .wrAMode a d,
           .wrBRamen a d, .wrBRomsel a d, .wrBRamsel a d, .wrBLatch a d],
      exec i s = .next { s with response := some .done }

/-- R106: the PASS rows answer "not mine" and change nothing, loaded or not, in every state but FATAL; and where they decode. -/
def Obligations.PassRowsAreNotTheBlocks : Prop :=
  ∀ (s : State) (v : Variant) (we : Bool) (a13 : BitVec 13) (a14 : BitVec 14) (d : Byte), s.fatal = false →
    exec (.passRom0Rd v a14 d) s = .next { s with response := some .notMine } ∧
    exec (.pass8000 v we a13 d) s = .next { s with response := some .notMine } ∧
    exec (.passC000 v we a14 d) s = .next { s with response := some .notMine } ∧
    decodeKey (assembleKey v false (0b00#2 ++ a14) d) = .passRom0Rd v a14 d ∧
    decodeKey (assembleKey v we (0b100#3 ++ a13) d) = .pass8000 v we a13 d ∧
    decodeKey (assembleKey v we (0b11#2 ++ a14) d) = .passC000 v we a14 d

/-- R107, R103: RD_ROMX of a mapped bank that is bank 0 or resident answers its byte and changes no state. -/
def Obligations.RomReadOfAResidentBankChangesNothing : Prop :=
  ∀ (s : State) (c : Cart) (v : Variant) (off : BitVec 14) (d : Byte), s.fatal = false → s.cart = some c →
    (c.mappedBank = some 0 →
      exec (.rdRomx v off d) s = .next { s with response := some (.byte (c.bank0.read off.toNat)) }) ∧
    (∀ (b i : Nat) (data : Memory), PoolSound s.slots → b ≠ 0 → c.mappedBank = some b → Resident s.slots i b data →
      exec (.rdRomx v off d) s = .next { s with response := some (.byte (data.read off.toNat)) })

/-- R104, R107: RD_ROMX with no bank mapped answers 0xFF with no fetch; the first such answer of a load sets `romLogged` and emits one
LOG of `lastError`, later ones change nothing more. -/
def Obligations.RomReadWithNothingMappedIsTheLoggedSentinel : Prop :=
  ∀ (s : State) (c : Cart) (v : Variant) (off : BitVec 14) (d : Byte), s.fatal = false → s.cart = some c → c.mappedBank = none →
    exec (.rdRomx v off d) s = .next { s with
      romLogged := true
      events := if s.romLogged then s.events else s.events ++ [.log s.lastError]
      response := some (.byte 0xFF) }

/-- R103, R107, R226: RD_ROMX of a mapped bank that is no longer resident is a CACHE_GET of that bank: its changes stay, its byte is
answered, and a NULL answers the sentinel as R104 says. The cartridge, `currentRomBank` and `mappedBank` included, never changes. -/
def Obligations.RomReadOfAnEvictedBankRefetchesIt : Prop :=
  ∀ (s : State) (c : Cart) (b : Nat) (v : Variant) (off : BitVec 14) (d : Byte), s.fatal = false → s.cart = some c →
    b ≠ 0 → c.mappedBank = some b → (∀ x ∈ s.slots, x.bank ≠ some b) →
    let g := cacheGet c b s
    let t := { s with slots := g.2.slots, lastError := g.2.lastError, events := g.2.events }
    (∀ i data, g.1 = .slot i data → exec (.rdRomx v off d) s = .next { t with response := some (.byte (data.read off.toNat)) }) ∧
    (g.1 = .null → exec (.rdRomx v off d) s = .next { t with
      romLogged := true
      events := if s.romLogged then t.events else t.events ++ [.log t.lastError]
      response := some (.byte 0xFF) }) ∧
    g.1 ≠ .bank0

/-- R108, R105, R57: RD_RAM answers the byte at `currentRamBank × 8192 + woff` when the latch is enabled, RAM is declared and the offset
lies in the buffer, and 0xFF otherwise; it changes no state. -/
def Obligations.RamReadAnswersTheBankedByte : Prop :=
  ∀ (s : State) (c : Cart) (v : Variant) (woff : BitVec 13) (d : Byte), s.fatal = false → s.cart = some c →
    let k := c.mbc.currentRamBank.toNat * 8192 + woff.toNat
    exec (.rdRam v woff d) s = .next { s with
      response := some (.byte
        (if c.mbc.ramEnabled = true ∧ 0 < c.cfg.ramBanks ∧ k < c.cfg.ramSizeBytes then c.ram.read k else 0xFF)) } ∧
    decodeKey (assembleKey v false (0b101#3 ++ woff) d) = .rdRam v woff d

/-- R109, R105, R57: WR_RAM stores `d` at `currentRamBank × 8192 + woff` under the same condition and changes no other byte and no other
state; otherwise it is dropped. -/
def Obligations.RamWriteStoresTheBankedByte : Prop :=
  ∀ (s : State) (c : Cart) (v : Variant) (woff : BitVec 13) (d : Byte), s.fatal = false → s.cart = some c → c.ram.wf →
    let k := c.mbc.currentRamBank.toNat * 8192 + woff.toNat
    (c.mbc.ramEnabled = true ∧ 0 < c.cfg.ramBanks ∧ k < c.cfg.ramSizeBytes →
      ∃ ram', exec (.wrRam v woff d) s = .next { s with cart := some { c with ram := ram' }, response := some .done } ∧
        ∀ x, ram'.read x = if x = k then d else c.ram.read x) ∧
    (¬ (c.mbc.ramEnabled = true ∧ 0 < c.cfg.ramBanks ∧ k < c.cfg.ramSizeBytes) →
      exec (.wrRam v woff d) s = .next { s with response := some .done }) ∧
    decodeKey (assembleKey v true (0b101#3 ++ woff) d) = .wrRam v woff d

/-! ## The MBC -/

/-- R122, R126: WR_A_RAMEN and WR_B_RAMEN set `ramEnabled` to (D[3:0] = 0xA) and change nothing else; and where they decode. -/
def Obligations.RamEnableWriteSetsTheLatch : Prop :=
  ∀ (s : State) (c : Cart) (a : BitVec 13) (d : Byte), s.fatal = false → s.cart = some c →
    let t := { s with cart := some { c with mbc := { c.mbc with ramEnabled := decide (d.toNat % 16 = 0xA) } }, response := some .done }
    exec (.wrARamen a d) s = .next t ∧ exec (.wrBRamen a d) s = .next t ∧
    decodeKey (assembleKey .a true (0b000#3 ++ a) d) = .wrARamen a d ∧ decodeKey (assembleKey .b true (0b000#3 ++ a) d) = .wrBRamen a d

/-- R123: WR_A_ROMLO writes ((currentRomBank & 0x60) | lo) mod totalBanks, lo = D[4:0] with 0 remapped to 1, and runs SELECT. -/
def Obligations.RomLowWriteSelectsTheBank : Prop :=
  ∀ (s : State) (c : Cart) (a : BitVec 13) (d : Byte), s.fatal = false → s.cart = some c →
    let lo := if d.toNat % 32 = 0 then 1 else d.toNat % 32
    let b := ((c.mbc.currentRomBank.toNat &&& 0x60) ||| lo) % c.cfg.totalBanks
    exec (.wrARomlo a d) s = .next { afterSelect s c (BitVec.ofNat 7 b) with response := some .done } ∧
    decodeKey (assembleKey .a true (0b001#3 ++ a) d) = .wrARomlo a d

/-- R124: WR_A_HIGH writes ((currentRomBank & 0x1F) | (hi << 5)) mod totalBanks and runs SELECT in mode 0, and writes the RAM bank
(0 with no RAM, else hi mod ramBanks) with no SELECT in mode 1; hi = D[1:0]. -/
def Obligations.HighWriteSelectsRomOrRamBankByMode : Prop :=
  ∀ (s : State) (c : Cart) (a : BitVec 13) (d : Byte), s.fatal = false → s.cart = some c →
    let hi := d.toNat % 4
    (c.mbc.bankingModeSelect = false →
      exec (.wrAHigh a d) s = .next { afterSelect s c (BitVec.ofNat 7 (((c.mbc.currentRomBank.toNat &&& 0x1F) ||| (hi <<< 5)) % c.cfg.totalBanks))
        with response := some .done }) ∧
    (c.mbc.bankingModeSelect = true →
      exec (.wrAHigh a d) s = .next { s with
        cart := some { c with mbc := { c.mbc with
          currentRamBank := BitVec.ofNat 3 (if c.cfg.ramBanks = 0 then 0 else hi % c.cfg.ramBanks) } }
        response := some .done }) ∧
    decodeKey (assembleKey .a true (0b010#3 ++ a) d) = .wrAHigh a d

/-- R125, R129: WR_A_MODE sets `bankingModeSelect` to D[0] and nothing else (no SELECT); WR_B_LATCH changes no state. -/
def Obligations.ModeWriteSetsTheLatchAndTheStubDoesNothing : Prop :=
  ∀ (s : State) (c : Cart) (a : BitVec 13) (d : Byte), s.fatal = false → s.cart = some c →
    exec (.wrAMode a d) s = .next { s with
      cart := some { c with mbc := { c.mbc with bankingModeSelect := decide (d.toNat % 2 = 1) } }, response := some .done } ∧
    exec (.wrBLatch a d) s = .next { s with response := some .done } ∧
    decodeKey (assembleKey .a true (0b011#3 ++ a) d) = .wrAMode a d ∧ decodeKey (assembleKey .b true (0b011#3 ++ a) d) = .wrBLatch a d

/-- R127: WR_B_ROMSEL writes b mod totalBanks, b = D[6:0] with 0 remapped to 1, and runs SELECT. -/
def Obligations.RomSelectWriteSelectsTheBank : Prop :=
  ∀ (s : State) (c : Cart) (a : BitVec 13) (d : Byte), s.fatal = false → s.cart = some c →
    let b := (if d.toNat % 128 = 0 then 1 else d.toNat % 128) % c.cfg.totalBanks
    exec (.wrBRomsel a d) s = .next { afterSelect s c (BitVec.ofNat 7 b) with response := some .done } ∧
    decodeKey (assembleKey .b true (0b001#3 ++ a) d) = .wrBRomsel a d

/-- R128: WR_B_RAMSEL writes the RAM bank: 0 with no RAM, else D[2:0] mod ramBanks; no SELECT. -/
def Obligations.RamSelectWriteSelectsTheRamBank : Prop :=
  ∀ (s : State) (c : Cart) (a : BitVec 13) (d : Byte), s.fatal = false → s.cart = some c →
    exec (.wrBRamsel a d) s = .next { s with
      cart := some { c with mbc := { c.mbc with
        currentRamBank := BitVec.ofNat 3 (if c.cfg.ramBanks = 0 then 0 else d.toNat % 8 % c.cfg.ramBanks) } }
      response := some .done } ∧
    decodeKey (assembleKey .b true (0b010#3 ++ a) d) = .wrBRamsel a d

/-- R131: with no masking to hide it (128 banks), a ROM-bank select write never leaves 0 in the field it writes: the low 5 bits of
Variant A, the 7 bits of Variant B. -/
def Obligations.SelectWritesNeverStoreZeroInTheirField : Prop :=
  ∀ (s t : State) (c c' : Cart) (a : BitVec 13) (d : Byte), s.cart = some c → c.cfg.totalBanks = 128 → t.cart = some c' →
    (exec (.wrARomlo a d) s = .next t → c'.mbc.currentRomBank.toNat % 32 ≠ 0) ∧
    (exec (.wrBRomsel a d) s = .next t → c'.mbc.currentRomBank.toNat ≠ 0)

/-- R132: masking at each write gives the same bank as keeping the unmasked 7-bit value and masking at use: for any unmasked value `raw`,
the select writes of Variant A act on the masked latch as they would on `raw`, masked after. -/
def Obligations.MaskingAtTheWriteEqualsMaskingAtUse : Prop :=
  ∀ (cfg : LoadCfg) (k raw : Nat) (d : Byte), k ≤ 15 → cfg.totalBanks = 2 ^ k → raw < 128 →
    (romLowSelect cfg (BitVec.ofNat 7 (raw % 2 ^ k)) d).toNat =
      ((raw &&& 0x60) ||| (if d.toNat % 32 = 0 then 1 else d.toNat % 32)) % 2 ^ k ∧
    (romHighSelect cfg (BitVec.ofNat 7 (raw % 2 ^ k)) d).toNat = ((raw &&& 0x1F) ||| ((d.toNat % 4) <<< 5)) % 2 ^ k

/-! ## The cache -/

/-- R140, R141: CACHE_GET(0) answers BANK0 and changes no state; a hit answers the slot, touches it, and makes no storage request. -/
def Obligations.GetOfBank0OrAResidentBankFetchesNothing : Prop :=
  ∀ (c : Cart) (s : State),
    cacheGet c 0 s = (.bank0, s) ∧
    ∀ (b i : Nat) (data : Memory), PoolSound s.slots → b ≠ 0 → Resident s.slots i b data →
      ∃ slots', cacheGet c b s = (.slot i data, { s with slots := slots' }) ∧ slots'.length = s.slots.length ∧
        ∀ (j : Nat) (x : Slot), s.slots[j]? = some x →
          slots'[j]? = some { x with recency := if j = i then 255 else BitVec.ofNat 8 (x.recency.toNat - 1) }

/-- R147 (success), R143, R148: a miss whose victim owns a buffer, or is given one, and whose fetch answers OK: the victim holds the bank
with its image bytes and recency 255, every other slot is decremented, and one fetch is recorded. -/
def Obligations.MissFillsTheVictim : Prop :=
  ∀ (c : Cart) (b v : Nat) (x : Slot) (s : State), PoolSound s.slots → b ≠ 0 → (∀ y ∈ s.slots, y.bank ≠ some b) →
    IsVictim s.slots v → s.slots[v]? = some x → (x.allocated = true ∨ s.draws.allocOk = true) → s.draws.bankFetchOk = true →
    ∃ (data : Memory) (slots' : List Slot),
      cacheGet c b s = (.slot v data, { s with slots := slots', events := s.events ++ [.fetch (b * 16384) 16384 true] }) ∧
      (∀ k, k < 16384 → data.read k = c.romImage.read (b * 16384 + k)) ∧ slots'.length = s.slots.length ∧
      slots'[v]? = some { allocated := true, occupant := some { bank := b, data := data }, recency := 255 } ∧
      ∀ (j : Nat) (y : Slot), j ≠ v → s.slots[j]? = some y → slots'[j]? = some { y with recency := BitVec.ofNat 8 (y.recency.toNat - 1) }

/-- R147 (failed fetch): NULL, BankFetchFailed recorded, the failed fetch recorded, and every slot as it was but for a buffer newly
allocated for the victim, which stays, unoccupied. -/
def Obligations.FailedFetchKeepsThePool : Prop :=
  ∀ (c : Cart) (b v : Nat) (x : Slot) (s : State), PoolSound s.slots → b ≠ 0 → (∀ y ∈ s.slots, y.bank ≠ some b) →
    IsVictim s.slots v → s.slots[v]? = some x → (x.allocated = true ∨ s.draws.allocOk = true) → s.draws.bankFetchOk = false →
    ∃ slots', cacheGet c b s = (.null, { s with
        slots := slots', lastError := 2, events := s.events ++ [.fetch (b * 16384) 16384 false] }) ∧
      slots'.length = s.slots.length ∧ slots'[v]? = some { x with allocated := true } ∧
      ∀ (j : Nat) (y : Slot), j ≠ v → s.slots[j]? = some y → slots'[j]? = some y

/-- R145, R146, R147, R208: when the victim has no buffer and the first allocation fails, exactly one remediation pass runs. If the retry
fails too: NULL, AllocationFailed, no fetch. If it succeeds, the victim gets its buffer in the remediated pool and the fetch decides. -/
def Obligations.AllocationFailureRemediatesOnce : Prop :=
  ∀ (c : Cart) (b v : Nat) (x : Slot) (s : State), PoolSound s.slots → b ≠ 0 → (∀ y ∈ s.slots, y.bank ≠ some b) →
    IsVictim s.slots v → s.slots[v]? = some x → x.allocated = false → s.draws.allocOk = false →
    ∃ evicted, Evicted s.slots evicted ∧ evicted[v]? = some x ∧
      (s.draws.allocRetryOk = false → cacheGet c b s = (.null, { s with slots := evicted, lastError := 3 })) ∧
      (s.draws.allocRetryOk = true → s.draws.bankFetchOk = false → ∃ slots', cacheGet c b s = (.null, { s with
          slots := slots', lastError := 2, events := s.events ++ [.fetch (b * 16384) 16384 false] }) ∧
        slots'[v]? = some { x with allocated := true } ∧ ∀ j, j ≠ v → slots'[j]? = evicted[j]?) ∧
      (s.draws.allocRetryOk = true → s.draws.bankFetchOk = true → ∃ data slots', cacheGet c b s = (.slot v data, { s with
          slots := slots', events := s.events ++ [.fetch (b * 16384) 16384 true] }) ∧
        (∀ k, k < 16384 → data.read k = c.romImage.read (b * 16384 + k)) ∧
        slots'[v]? = some { allocated := true, occupant := some { bank := b, data := data }, recency := 255 } ∧
        ∀ (j : Nat) (y : Slot), j ≠ v → evicted[j]? = some y →
          slots'[j]? = some { y with recency := BitVec.ofNat 8 (y.recency.toNat - 1) })

/-- R144: VICTIM is the least index with the least recency, whatever the slots hold. -/
def Obligations.VictimIsTheLowestOfTheLeastRecent : Prop :=
  ∀ slots : List Slot, 1 ≤ slots.length → IsVictim slots (victim slots) ∧ ∀ v, IsVictim slots v → v = victim slots

/-- R150: HOTTEST is the least index among the occupied slots with the largest recency, and none when no slot is occupied. -/
def Obligations.HottestIsTheLowestOfTheMostRecentOccupied : Prop :=
  ∀ slots : List Slot,
    (∀ h, hottest slots = some h ↔ IsHottest slots h) ∧ (hottest slots = none ↔ ∀ x ∈ slots, x.occupant = none)

/-- R151: EVICT_NONESSENTIAL frees every allocated slot except the hottest, changes nothing else, and leaves at most one slot
allocated. -/
def Obligations.EvictionKeepsOnlyTheHottest : Prop :=
  ∀ s : State, ∃ slots', evictNonessential s = { s with slots := slots' } ∧ Evicted s.slots slots' ∧
    (∀ (i j : Nat) (x y : Slot), slots'[i]? = some x → slots'[j]? = some y → x.allocated = true → y.allocated = true → i = j)

/-- R154: (a) a touched slot is the unique hottest at 255, every other at most 254; (b) with two slots or more it is never the next
victim; (c) a slot left untouched by n touches of other slots has lost n, floor 0, so 255 touches leave it at 0. -/
def Obligations.TouchedSlotIsHottestAndNotTheVictim : Prop :=
  ∀ (slots : List Slot) (i : Nat), i < slots.length →
    (∀ (j : Nat) (x : Slot), (touch i slots)[j]? = some x → (j = i → x.recency = 255) ∧ (j ≠ i → x.recency.toNat ≤ 254)) ∧
    (2 ≤ slots.length → victim (touch i slots) ≠ i) ∧
    (∀ (j : Nat) (x : Slot) (touches : List Nat), slots[j]? = some x → j ∉ touches →
      ((touches.foldl (fun p t => touch t p) slots)[j]?).map (fun y => y.recency.toNat) = some (x.recency.toNat - touches.length))

/-! ## Host commands -/

/-- R170, R206: in FATAL every command but READ_STATUS, READ_MBC and READ_SLOT, and while nothing is loaded GET_ROM_BANK,
PRESSURE_EVICT, SRAM_EXPORT and SRAM_IMPORT, answer REFUSED with no state change. -/
def Obligations.RefusedCommandsChangeNothing : Prop :=
  ∀ (s : State) (bank : BitVec 16) (v : Variant) (shift code : BitVec 4) (eager : Bool),
    (s.fatal = true → ∀ i ∈ [Instr.load v shift code eager, .unload, .getRomBank bank, .pressureEvict, .sramExport, .sramImport],
      exec i s = .next { s with response := some (.host .refused .empty) }) ∧
    (s.cart = none → ∀ i ∈ [Instr.getRomBank bank, .pressureEvict, .sramExport, .sramImport],
      exec i s = .next { s with response := some (.host .refused .empty) })

/-- R81: a reserved host word, CMD 0x0 or 0xA-0xF or a reserved bit set, answers REFUSED in every state and changes none of it; a LOAD
with RAMCODE 6..15 is taken (when the block is not in FATAL), answers FAILED and sets `lastError` to 4. -/
def Obligations.ReservedHostWordIsRefused : Prop :=
  ∀ (s : State) (h : HostWord),
    exec (.hostReserved h) s = .next { s with response := some (.host .refused .empty) } ∧
    (h.toNat % 16 ∈ [0, 10, 11, 12, 13, 14, 15] → decodeHost h = .hostReserved h) ∧
    (h.toNat % 16 ∈ [2, 4, 5, 6, 7, 8] → 16 ≤ h.toNat → decodeHost h = .hostReserved h) ∧
    (h.toNat % 16 = 1 → 2 ^ 14 ≤ h.toNat → decodeHost h = .hostReserved h) ∧
    (h.toNat % 16 ∈ [3, 9] → 2 ^ 20 ≤ h.toNat → decodeHost h = .hostReserved h) ∧
    ∀ (v : Variant) (shift code : BitVec 4) (eager : Bool), s.fatal = false → 6 ≤ code.toNat →
      exec (.load v shift code eager) s = .next { s with lastError := 4, response := some (.host .failed .empty) }

/-- R171: a LOAD with RAMCODE above 5, a RAM size with no RAM bank, or a size outside 1..ramBanks × 8192 answers FAILED and does only
`lastError <- 4`; a loaded cartridge stays loaded. -/
def Obligations.InvalidLoadOnlyRecordsTheError : Prop :=
  ∀ (s : State) (v : Variant) (shift code : BitVec 4) (eager : Bool), s.fatal = false →
    (5 < code.toNat ∨ (code.toNat = 0 ∧ s.payload.op1.toNat ≠ 0) ∨
      (1 ≤ code.toNat ∧ (s.payload.op1.toNat = 0 ∨ 2 ^ (code.toNat - 1) * 8192 < s.payload.op1.toNat))) →
    exec (.load v shift code eager) s = .next { s with lastError := 4, response := some (.host .failed .empty) }

/-- R172, R205: a valid LOAD whose bank-0 fetch fails unloads what was loaded, sets FATAL and `lastError` 2, clears `romLogged`, and
answers FAILED. -/
def Obligations.FailedBank0FetchIsFatal : Prop :=
  ∀ (s : State) (v : Variant) (shift code : BitVec 4) (eager : Bool), s.Sound → s.fatal = false →
    code.toNat ≤ 5 → (code.toNat = 0 → s.payload.op1.toNat = 0) →
    (1 ≤ code.toNat → 1 ≤ s.payload.op1.toNat ∧ s.payload.op1.toNat ≤ 2 ^ (code.toNat - 1) * 8192) →
    s.draws.bank0FetchOk = false →
    exec (.load v shift code eager) s = .next { s with
      cart := none, fatal := true, romLogged := false, lastError := 2
      slots := List.replicate s.slots.length { allocated := false, occupant := none, recency := 0 }
      events := s.events ++ [.fetch 0 16384 false], response := some (.host .failed .empty) }

/-- R172, R43 (column "after successful LOAD"), R152, R78: a valid LOAD whose bank-0 fetch is OK answers OK and leaves the values of
R43: bank 0 and the RAM filled, the latches at their values, the pool initialised; then the initial SELECT maps bank 0 (one bank),
or fills slot 0 with bank 1 and maps it, or records 3 (no buffer) or 2 (failed fetch) and maps nothing. -/
def Obligations.SuccessfulLoadLeavesTheValuesOfR43 : Prop :=
  ∀ (s : State) (v : Variant) (shift code : BitVec 4) (eager : Bool), s.Sound → s.fatal = false →
    code.toNat ≤ 5 → (code.toNat = 0 → s.payload.op1.toNat = 0) →
    (1 ≤ code.toNat → 1 ≤ s.payload.op1.toNat ∧ s.payload.op1.toNat ≤ 2 ^ (code.toNat - 1) * 8192) →
    s.draws.bank0FetchOk = true →
    ∃ (t : State) (c : Cart), exec (.load v shift code eager) s = .next t ∧ t.cart = some c ∧ t.response = some (.host .ok .empty) ∧
      t.fatal = false ∧ t.romLogged = false ∧ t.arrivals = s.arrivals ∧ t.payload = s.payload ∧ t.draws = s.draws ∧
      c.cfg = { totalBanks := 2 ^ shift.toNat, ramBanks := if code.toNat = 0 then 0 else 2 ^ (code.toNat - 1)
                ramSizeBytes := s.payload.op1.toNat } ∧
      c.mbc = { currentRomBank := BitVec.ofNat 7 (1 % 2 ^ shift.toNat), currentRamBank := 0, ramEnabled := false
                bankingModeSelect := false, mapperVariant := v } ∧
      c.romImage = s.payload.romImage ∧ (∀ k, k < 16384 → c.bank0.read k = s.payload.romImage.read k) ∧
      (∀ k, k < s.payload.op1.toNat → c.ram.read k = s.payload.ramInit.read k) ∧
      t.slots.length = s.slots.length ∧
      (∀ (j : Nat) (x : Slot), 1 ≤ j → t.slots[j]? = some x → x = { allocated := eager, occupant := none, recency := 0 }) ∧
      (shift = 0 → c.mappedBank = some 0 ∧ t.lastError = 0 ∧ t.events = s.events ++ [.fetch 0 16384 true] ∧
        t.slots[0]? = some { allocated := eager, occupant := none, recency := 0 }) ∧
      (shift ≠ 0 → (eager = true ∨ s.draws.allocOk = true ∨ s.draws.allocRetryOk = true) →
        (s.draws.bankFetchOk = true → c.mappedBank = some 1 ∧ t.lastError = 0 ∧
          t.events = s.events ++ [.fetch 0 16384 true, .fetch 16384 16384 true] ∧
          ∃ data, t.slots[0]? = some { allocated := true, occupant := some { bank := 1, data := data }, recency := 255 } ∧
            ∀ k, k < 16384 → data.read k = s.payload.romImage.read (16384 + k)) ∧
        (s.draws.bankFetchOk = false → c.mappedBank = none ∧ t.lastError = 2 ∧
          t.events = s.events ++ [.fetch 0 16384 true, .fetch 16384 16384 false] ∧
          t.slots[0]? = some { allocated := true, occupant := none, recency := 0 })) ∧
      (shift ≠ 0 → eager = false → s.draws.allocOk = false → s.draws.allocRetryOk = false →
        c.mappedBank = none ∧ t.lastError = 3 ∧ t.events = s.events ++ [.fetch 0 16384 true] ∧
        t.slots[0]? = some { allocated := false, occupant := none, recency := 0 })

/-- R173, R43 (column "after UNLOAD"): UNLOAD answers OK; it destroys the cartridge and frees every slot, and leaves FATAL, ROMLOG and
LASTERR; with nothing loaded it changes nothing. -/
def Obligations.UnloadDestroysTheCartridge : Prop :=
  ∀ s : State, s.fatal = false →
    (s.cart ≠ none → exec .unload s = .next { s with
      cart := none
      slots := List.replicate s.slots.length { allocated := false, occupant := none, recency := 0 }
      response := some (.host .ok .empty) }) ∧
    (s.cart = none → exec .unload s = .next { s with response := some (.host .ok .empty) }) ∧
    decodeHost 0x2#32 = .unload

/-- R174: GET_ROM_BANK of a bank outside the image answers NULL with code 4 and no fetch; of bank 0 its bytes, with no change; of any
other bank what CACHE_GET answers, whose bytes are the bank's image bytes. The cartridge (`currentRomBank`, `mappedBank`) never
changes. -/
def Obligations.GetRomBankAnswersTheBanksBytes : Prop :=
  ∀ (s : State) (c : Cart) (bank : BitVec 16), s.Sound → s.cart = some c →
    (c.cfg.totalBanks ≤ bank.toNat →
      exec (.getRomBank bank) s = .next { s with lastError := 4, response := some (.host .null .empty) }) ∧
    (bank.toNat < c.cfg.totalBanks →
      let g := cacheGet c bank.toNat s
      let t := { s with slots := g.2.slots, lastError := g.2.lastError, events := g.2.events }
      (g.1 = .null → exec (.getRomBank bank) s = .next { t with response := some (.host .null .empty) }) ∧
      (g.1 ≠ .null → ∃ bytes, exec (.getRomBank bank) s = .next { t with response := some (.host .ok (.bytes bytes)) } ∧
        bytes.length = 16384 ∧ ∀ k, k < 16384 → bytes[k]? = some (c.romImage.read (bank.toNat * 16384 + k))) ∧
      (bank = 0 → g.1 = .bank0 ∧ t = s)) ∧
    decodeHost (BitVec.ofNat 32 (3 + 16 * bank.toNat)) = .getRomBank bank

/-- R175: PRESSURE_EVICT on a loaded block runs EVICT_NONESSENTIAL and answers OK. -/
def Obligations.PressureEvictRunsTheEviction : Prop :=
  ∀ (s : State) (c : Cart), s.fatal = false → s.cart = some c →
    (∃ slots', exec .pressureEvict s = .next { s with slots := slots', response := some (.host .ok .empty) } ∧ Evicted s.slots slots') ∧
    decodeHost 0x4#32 = .pressureEvict

/-- R176: SRAM_EXPORT on a loaded block answers OK with the `ramSizeBytes` bytes of the RAM and changes nothing. R177: SRAM_IMPORT copies
the first min(L, ramSizeBytes) bytes of its string to the start of the RAM, leaves the tail and everything else, and answers OK.
Neither reads `ramEnabled`. -/
def Obligations.SramTransfersMoveTheWholeRam : Prop :=
  ∀ (s : State) (c : Cart), s.fatal = false → s.cart = some c →
    (∃ bytes, exec .sramExport s = .next { s with response := some (.host .ok (.bytes bytes)) } ∧ bytes.length = c.cfg.ramSizeBytes ∧
      ∀ k, k < c.cfg.ramSizeBytes → bytes[k]? = some (c.ram.read k)) ∧
    (c.ram.wf → ∃ ram', exec .sramImport s = .next { s with cart := some { c with ram := ram' }, response := some (.host .ok .empty) } ∧
      ∀ x, ram'.read x = if x < min s.payload.src.length c.cfg.ramSizeBytes then s.payload.src[x]?.getD 0 else c.ram.read x) ∧
    decodeHost 0x5#32 = .sramExport ∧ decodeHost 0x6#32 = .sramImport

/-- R178, R36: READ_STATUS answers the STATUS word in every state, FATAL included, and changes nothing. -/
def Obligations.ReadStatusAnswersTheStatusWord : Prop :=
  decodeHost 0x7#32 = .readStatus ∧ ∀ s : State, ∃ w : BitVec 16, exec .readStatus s = .next { s with response := some (.host .ok (.word16 w)) } ∧
    w.toNat = s.cart.isSome.toNat + 2 * s.fatal.toNat + 4 * s.romLogged.toNat + 16 * s.lastError.toNat

/-- R179, R37: READ_MBC answers the MBCSTAT word in every state and changes nothing: 0 while nothing is loaded, else the fields of R37. -/
def Obligations.ReadMbcAnswersTheMbcStatusWord : Prop :=
  decodeHost 0x8#32 = .readMbc ∧ ∀ s : State,
    (s.cart = none → exec .readMbc s = .next { s with response := some (.host .ok (.word32 0)) }) ∧
    (∀ c, s.cart = some c → c.Sound → ∃ w : BitVec 32, exec .readMbc s = .next { s with response := some (.host .ok (.word32 w)) } ∧
      w.toNat = c.mbc.currentRomBank.toNat + 2 ^ 8 * c.mbc.currentRamBank.toNat + 2 ^ 11 * c.mbc.ramEnabled.toNat +
        2 ^ 12 * c.mbc.bankingModeSelect.toNat + 2 ^ 13 * c.mbc.mapperVariant.bit.toNat + 2 ^ 14 * c.mappedBank.isSome.toNat +
        2 ^ 16 * c.mappedBank.getD 0)

/-- R180, R38: READ_SLOT answers the SLOTSTAT word of an existing slot in every state, REFUSED for SLOT ≥ N, and changes nothing. -/
def Obligations.ReadSlotAnswersTheSlotStatusWord : Prop :=
  ∀ (s : State) (slot : BitVec 16),
    (s.slots.length ≤ slot.toNat → exec (.readSlot slot) s = .next { s with response := some (.host .refused .empty) }) ∧
    (∀ x, s.slots[slot.toNat]? = some x → s.Sound →
      ∃ w : BitVec 32, exec (.readSlot slot) s = .next { s with response := some (.host .ok (.word32 w)) } ∧
        w.toNat = x.recency.toNat + 2 ^ 8 * x.bank.getD 0 + 2 ^ 24 * x.allocated.toNat + 2 ^ 25 * x.bank.isSome.toNat) ∧
    decodeHost (BitVec.ofNat 32 (9 + 16 * slot.toNat)) = .readSlot slot

/-- R76: the response codes are OK 0, NULL 1, REFUSED 2, FAILED 3; every host command completes and its answer carries one of them.
NULL comes from GET_ROM_BANK alone and FAILED from LOAD alone, REFUSED changes nothing but the answer (R81, R170), and only an OK answer
carries a value. -/
def Obligations.HostAnswersCarryTheStatusesOfR76 : Prop :=
  (∀ v : HostValue, (Response.host .ok v).statusCode = some 0 ∧ (Response.host .null v).statusCode = some 1 ∧
    (Response.host .refused v).statusCode = some 2 ∧ (Response.host .failed v).statusCode = some 3) ∧
  ∀ (i : Instr) (s : State), i.port = .host →
    ∃ (t : State) (status : HostStatus) (v : HostValue), exec i s = .next t ∧ t.response = some (.host status v) ∧
      (status = .null → ∃ bank, i = .getRomBank bank) ∧
      (status = .failed → ∃ variant shift code eager, i = .load variant shift code eager) ∧
      (status = .refused → t = { s with response := some (.host .refused .empty) }) ∧
      (v ≠ .empty → status = .ok)
end

