-- ==== Sys2Proof/Laws/State.lean ====
section
/-! SUPPORT. What each update of the state leaves in each field: one lemma per field per update, so that no later proof unfolds a
record update. -/

namespace Sys2Proof.Machine

/-! ### `State.respond` -/

@[simp] theorem State.respond_cart (s : State) (r : Response) : (s.respond r).cart = s.cart := rfl
@[simp] theorem State.respond_fatal (s : State) (r : Response) : (s.respond r).fatal = s.fatal := rfl
@[simp] theorem State.respond_romLogged (s : State) (r : Response) : (s.respond r).romLogged = s.romLogged := rfl
@[simp] theorem State.respond_lastError (s : State) (r : Response) : (s.respond r).lastError = s.lastError := rfl
@[simp] theorem State.respond_slots (s : State) (r : Response) : (s.respond r).slots = s.slots := rfl
@[simp] theorem State.respond_arrivals (s : State) (r : Response) : (s.respond r).arrivals = s.arrivals := rfl
@[simp] theorem State.respond_payload (s : State) (r : Response) : (s.respond r).payload = s.payload := rfl
@[simp] theorem State.respond_draws (s : State) (r : Response) : (s.respond r).draws = s.draws := rfl
@[simp] theorem State.respond_events (s : State) (r : Response) : (s.respond r).events = s.events := rfl
@[simp] theorem State.respond_response (s : State) (r : Response) : (s.respond r).response = some r := rfl

/-! ### `State.emit` -/

@[simp] theorem State.emit_cart (s : State) (e : Event) : (s.emit e).cart = s.cart := rfl
@[simp] theorem State.emit_fatal (s : State) (e : Event) : (s.emit e).fatal = s.fatal := rfl
@[simp] theorem State.emit_romLogged (s : State) (e : Event) : (s.emit e).romLogged = s.romLogged := rfl
@[simp] theorem State.emit_lastError (s : State) (e : Event) : (s.emit e).lastError = s.lastError := rfl
@[simp] theorem State.emit_slots (s : State) (e : Event) : (s.emit e).slots = s.slots := rfl
@[simp] theorem State.emit_arrivals (s : State) (e : Event) : (s.emit e).arrivals = s.arrivals := rfl
@[simp] theorem State.emit_payload (s : State) (e : Event) : (s.emit e).payload = s.payload := rfl
@[simp] theorem State.emit_draws (s : State) (e : Event) : (s.emit e).draws = s.draws := rfl
@[simp] theorem State.emit_events (s : State) (e : Event) : (s.emit e).events = s.events ++ [e] := rfl
@[simp] theorem State.emit_response (s : State) (e : Event) : (s.emit e).response = s.response := rfl

/-! ### `State.raise` -/

@[simp] theorem State.raise_cart (s : State) (e : ErrorCode) : (s.raise e).cart = s.cart := rfl
@[simp] theorem State.raise_fatal (s : State) (e : ErrorCode) : (s.raise e).fatal = s.fatal := rfl
@[simp] theorem State.raise_romLogged (s : State) (e : ErrorCode) : (s.raise e).romLogged = s.romLogged := rfl
@[simp] theorem State.raise_lastError (s : State) (e : ErrorCode) : (s.raise e).lastError = e.code := rfl
@[simp] theorem State.raise_slots (s : State) (e : ErrorCode) : (s.raise e).slots = s.slots := rfl
@[simp] theorem State.raise_arrivals (s : State) (e : ErrorCode) : (s.raise e).arrivals = s.arrivals := rfl
@[simp] theorem State.raise_payload (s : State) (e : ErrorCode) : (s.raise e).payload = s.payload := rfl
@[simp] theorem State.raise_draws (s : State) (e : ErrorCode) : (s.raise e).draws = s.draws := rfl
@[simp] theorem State.raise_events (s : State) (e : ErrorCode) : (s.raise e).events = s.events := rfl
@[simp] theorem State.raise_response (s : State) (e : ErrorCode) : (s.raise e).response = s.response := rfl

/-! ### `State.withCart` -/

@[simp] theorem State.withCart_cart (s : State) (c : Cart) : (s.withCart c).cart = some c := rfl
@[simp] theorem State.withCart_fatal (s : State) (c : Cart) : (s.withCart c).fatal = s.fatal := rfl
@[simp] theorem State.withCart_romLogged (s : State) (c : Cart) : (s.withCart c).romLogged = s.romLogged := rfl
@[simp] theorem State.withCart_lastError (s : State) (c : Cart) : (s.withCart c).lastError = s.lastError := rfl
@[simp] theorem State.withCart_slots (s : State) (c : Cart) : (s.withCart c).slots = s.slots := rfl
@[simp] theorem State.withCart_arrivals (s : State) (c : Cart) : (s.withCart c).arrivals = s.arrivals := rfl
@[simp] theorem State.withCart_payload (s : State) (c : Cart) : (s.withCart c).payload = s.payload := rfl
@[simp] theorem State.withCart_draws (s : State) (c : Cart) : (s.withCart c).draws = s.draws := rfl
@[simp] theorem State.withCart_events (s : State) (c : Cart) : (s.withCart c).events = s.events := rfl
@[simp] theorem State.withCart_response (s : State) (c : Cart) : (s.withCart c).response = s.response := rfl

/-! ### `State.withSlots` -/

@[simp] theorem State.withSlots_cart (s : State) (p : List Slot) : (s.withSlots p).cart = s.cart := rfl
@[simp] theorem State.withSlots_fatal (s : State) (p : List Slot) : (s.withSlots p).fatal = s.fatal := rfl
@[simp] theorem State.withSlots_romLogged (s : State) (p : List Slot) : (s.withSlots p).romLogged = s.romLogged := rfl
@[simp] theorem State.withSlots_lastError (s : State) (p : List Slot) : (s.withSlots p).lastError = s.lastError := rfl
@[simp] theorem State.withSlots_slots (s : State) (p : List Slot) : (s.withSlots p).slots = p := rfl
@[simp] theorem State.withSlots_arrivals (s : State) (p : List Slot) : (s.withSlots p).arrivals = s.arrivals := rfl
@[simp] theorem State.withSlots_payload (s : State) (p : List Slot) : (s.withSlots p).payload = s.payload := rfl
@[simp] theorem State.withSlots_draws (s : State) (p : List Slot) : (s.withSlots p).draws = s.draws := rfl
@[simp] theorem State.withSlots_events (s : State) (p : List Slot) : (s.withSlots p).events = s.events := rfl
@[simp] theorem State.withSlots_response (s : State) (p : List Slot) : (s.withSlots p).response = s.response := rfl

/-! ### `State.refuse` -/

@[simp] theorem State.refuse_cart (s : State) : (s.refuse).cart = s.cart := rfl
@[simp] theorem State.refuse_fatal (s : State) : (s.refuse).fatal = s.fatal := rfl
@[simp] theorem State.refuse_romLogged (s : State) : (s.refuse).romLogged = s.romLogged := rfl
@[simp] theorem State.refuse_lastError (s : State) : (s.refuse).lastError = s.lastError := rfl
@[simp] theorem State.refuse_slots (s : State) : (s.refuse).slots = s.slots := rfl
@[simp] theorem State.refuse_arrivals (s : State) : (s.refuse).arrivals = s.arrivals := rfl
@[simp] theorem State.refuse_payload (s : State) : (s.refuse).payload = s.payload := rfl
@[simp] theorem State.refuse_draws (s : State) : (s.refuse).draws = s.draws := rfl
@[simp] theorem State.refuse_events (s : State) : (s.refuse).events = s.events := rfl
@[simp] theorem Response.statusCode_host (status : HostStatus) (v : HostValue) :
    (Response.host status v).statusCode = some status.code := rfl
@[simp] theorem State.refuse_response (s : State) : (s.refuse).response = some (.host .refused .empty) := rfl

/-! ### `State.enterFatal` -/

@[simp] theorem State.enterFatal_cart (s : State) : (s.enterFatal).cart = s.cart := rfl
@[simp] theorem State.enterFatal_fatal (s : State) : (s.enterFatal).fatal = true := rfl
@[simp] theorem State.enterFatal_romLogged (s : State) : (s.enterFatal).romLogged = s.romLogged := rfl
@[simp] theorem State.enterFatal_lastError (s : State) : (s.enterFatal).lastError = ErrorCode.bankFetchFailed.code := rfl
@[simp] theorem State.enterFatal_slots (s : State) : (s.enterFatal).slots = s.slots := rfl
@[simp] theorem State.enterFatal_arrivals (s : State) : (s.enterFatal).arrivals = s.arrivals := rfl
@[simp] theorem State.enterFatal_payload (s : State) : (s.enterFatal).payload = s.payload := rfl
@[simp] theorem State.enterFatal_draws (s : State) : (s.enterFatal).draws = s.draws := rfl
@[simp] theorem State.enterFatal_events (s : State) : (s.enterFatal).events = s.events := rfl
@[simp] theorem State.enterFatal_response (s : State) : (s.enterFatal).response = s.response := rfl

/-! ### `State.latchCpu` -/

@[simp] theorem State.latchCpu_cart (s : State) (rest : List Arrival) (dr : Draws) : (s.latchCpu rest dr).cart = s.cart := rfl
@[simp] theorem State.latchCpu_fatal (s : State) (rest : List Arrival) (dr : Draws) : (s.latchCpu rest dr).fatal = s.fatal := rfl
@[simp] theorem State.latchCpu_romLogged (s : State) (rest : List Arrival) (dr : Draws) : (s.latchCpu rest dr).romLogged = s.romLogged := rfl
@[simp] theorem State.latchCpu_lastError (s : State) (rest : List Arrival) (dr : Draws) : (s.latchCpu rest dr).lastError = s.lastError := rfl
@[simp] theorem State.latchCpu_slots (s : State) (rest : List Arrival) (dr : Draws) : (s.latchCpu rest dr).slots = s.slots := rfl
@[simp] theorem State.latchCpu_arrivals (s : State) (rest : List Arrival) (dr : Draws) : (s.latchCpu rest dr).arrivals = rest := rfl
@[simp] theorem State.latchCpu_payload (s : State) (rest : List Arrival) (dr : Draws) : (s.latchCpu rest dr).payload = s.payload := rfl
@[simp] theorem State.latchCpu_draws (s : State) (rest : List Arrival) (dr : Draws) : (s.latchCpu rest dr).draws = dr := rfl
@[simp] theorem State.latchCpu_events (s : State) (rest : List Arrival) (dr : Draws) : (s.latchCpu rest dr).events = s.events := rfl
@[simp] theorem State.latchCpu_response (s : State) (rest : List Arrival) (dr : Draws) : (s.latchCpu rest dr).response = s.response := rfl

/-! ### `State.latchHost` -/

@[simp] theorem State.latchHost_cart (s : State) (rest : List Arrival) (p : Payload) (dr : Draws) : (s.latchHost rest p dr).cart = s.cart := rfl
@[simp] theorem State.latchHost_fatal (s : State) (rest : List Arrival) (p : Payload) (dr : Draws) : (s.latchHost rest p dr).fatal = s.fatal := rfl
@[simp] theorem State.latchHost_romLogged (s : State) (rest : List Arrival) (p : Payload) (dr : Draws) : (s.latchHost rest p dr).romLogged = s.romLogged := rfl
@[simp] theorem State.latchHost_lastError (s : State) (rest : List Arrival) (p : Payload) (dr : Draws) : (s.latchHost rest p dr).lastError = s.lastError := rfl
@[simp] theorem State.latchHost_slots (s : State) (rest : List Arrival) (p : Payload) (dr : Draws) : (s.latchHost rest p dr).slots = s.slots := rfl
@[simp] theorem State.latchHost_arrivals (s : State) (rest : List Arrival) (p : Payload) (dr : Draws) : (s.latchHost rest p dr).arrivals = rest := rfl
@[simp] theorem State.latchHost_payload (s : State) (rest : List Arrival) (p : Payload) (dr : Draws) : (s.latchHost rest p dr).payload = p := rfl
@[simp] theorem State.latchHost_draws (s : State) (rest : List Arrival) (p : Payload) (dr : Draws) : (s.latchHost rest p dr).draws = dr := rfl
@[simp] theorem State.latchHost_events (s : State) (rest : List Arrival) (p : Payload) (dr : Draws) : (s.latchHost rest p dr).events = s.events := rfl
@[simp] theorem State.latchHost_response (s : State) (rest : List Arrival) (p : Payload) (dr : Draws) : (s.latchHost rest p dr).response = s.response := rfl

/-! ### `State.afterReset` -/

@[simp] theorem State.afterReset_cart (s : State) : (s.afterReset).cart = none := rfl
@[simp] theorem State.afterReset_fatal (s : State) : (s.afterReset).fatal = false := rfl
@[simp] theorem State.afterReset_romLogged (s : State) : (s.afterReset).romLogged = false := rfl
@[simp] theorem State.afterReset_lastError (s : State) : (s.afterReset).lastError = 0 := rfl
@[simp] theorem State.afterReset_slots (s : State) : (s.afterReset).slots = s.slots.map fun _ => Slot.free := rfl
@[simp] theorem State.afterReset_arrivals (s : State) : (s.afterReset).arrivals = s.arrivals := rfl
@[simp] theorem State.afterReset_payload (s : State) : (s.afterReset).payload = s.payload := rfl
@[simp] theorem State.afterReset_draws (s : State) : (s.afterReset).draws = s.draws := rfl
@[simp] theorem State.afterReset_events (s : State) : (s.afterReset).events = s.events := rfl
@[simp] theorem State.afterReset_response (s : State) : (s.afterReset).response = s.response := rfl

/-! ### `State.clearLoadFlags` -/

@[simp] theorem State.clearLoadFlags_cart (s : State) : (s.clearLoadFlags).cart = s.cart := rfl
@[simp] theorem State.clearLoadFlags_fatal (s : State) : (s.clearLoadFlags).fatal = s.fatal := rfl
@[simp] theorem State.clearLoadFlags_romLogged (s : State) : (s.clearLoadFlags).romLogged = false := rfl
@[simp] theorem State.clearLoadFlags_lastError (s : State) : (s.clearLoadFlags).lastError = 0 := rfl
@[simp] theorem State.clearLoadFlags_slots (s : State) : (s.clearLoadFlags).slots = s.slots := rfl
@[simp] theorem State.clearLoadFlags_arrivals (s : State) : (s.clearLoadFlags).arrivals = s.arrivals := rfl
@[simp] theorem State.clearLoadFlags_payload (s : State) : (s.clearLoadFlags).payload = s.payload := rfl
@[simp] theorem State.clearLoadFlags_draws (s : State) : (s.clearLoadFlags).draws = s.draws := rfl
@[simp] theorem State.clearLoadFlags_events (s : State) : (s.clearLoadFlags).events = s.events := rfl
@[simp] theorem State.clearLoadFlags_response (s : State) : (s.clearLoadFlags).response = s.response := rfl

/-! ### `Cart.withMbc` -/

@[simp] theorem Cart.withMbc_cfg (c : Cart) (m : Mbc) : (c.withMbc m).cfg = c.cfg := rfl
@[simp] theorem Cart.withMbc_mbc (c : Cart) (m : Mbc) : (c.withMbc m).mbc = m := rfl
@[simp] theorem Cart.withMbc_mappedBank (c : Cart) (m : Mbc) : (c.withMbc m).mappedBank = c.mappedBank := rfl
@[simp] theorem Cart.withMbc_bank0 (c : Cart) (m : Mbc) : (c.withMbc m).bank0 = c.bank0 := rfl
@[simp] theorem Cart.withMbc_ram (c : Cart) (m : Mbc) : (c.withMbc m).ram = c.ram := rfl
@[simp] theorem Cart.withMbc_romImage (c : Cart) (m : Mbc) : (c.withMbc m).romImage = c.romImage := rfl

/-! ### `Mbc.setRamEnabled` -/

@[simp] theorem Mbc.setRamEnabled_currentRomBank (m : Mbc) (x : Bool) : (m.setRamEnabled x).currentRomBank = m.currentRomBank := rfl
@[simp] theorem Mbc.setRamEnabled_currentRamBank (m : Mbc) (x : Bool) : (m.setRamEnabled x).currentRamBank = m.currentRamBank := rfl
@[simp] theorem Mbc.setRamEnabled_ramEnabled (m : Mbc) (x : Bool) : (m.setRamEnabled x).ramEnabled = x := rfl
@[simp] theorem Mbc.setRamEnabled_bankingModeSelect (m : Mbc) (x : Bool) : (m.setRamEnabled x).bankingModeSelect = m.bankingModeSelect := rfl
@[simp] theorem Mbc.setRamEnabled_mapperVariant (m : Mbc) (x : Bool) : (m.setRamEnabled x).mapperVariant = m.mapperVariant := rfl

/-! ### `Mbc.setMode` -/

@[simp] theorem Mbc.setMode_currentRomBank (m : Mbc) (x : Bool) : (m.setMode x).currentRomBank = m.currentRomBank := rfl
@[simp] theorem Mbc.setMode_currentRamBank (m : Mbc) (x : Bool) : (m.setMode x).currentRamBank = m.currentRamBank := rfl
@[simp] theorem Mbc.setMode_ramEnabled (m : Mbc) (x : Bool) : (m.setMode x).ramEnabled = m.ramEnabled := rfl
@[simp] theorem Mbc.setMode_bankingModeSelect (m : Mbc) (x : Bool) : (m.setMode x).bankingModeSelect = x := rfl
@[simp] theorem Mbc.setMode_mapperVariant (m : Mbc) (x : Bool) : (m.setMode x).mapperVariant = m.mapperVariant := rfl

/-! ### Slots -/

@[simp] theorem Slot.touched_allocated (hit : Bool) (sl : Slot) : (sl.touched hit).allocated = sl.allocated := rfl
@[simp] theorem Slot.touched_occupant (hit : Bool) (sl : Slot) : (sl.touched hit).occupant = sl.occupant := rfl
@[simp] theorem Slot.touched_true_recency (sl : Slot) : (sl.touched true).recency = 255 := rfl
@[simp] theorem Slot.touched_false_recency (sl : Slot) : (sl.touched false).recency = satDec sl.recency := rfl
@[simp] theorem Slot.touched_bank (hit : Bool) (sl : Slot) : (sl.touched hit).bank = sl.bank := rfl
@[simp] theorem Slot.free_allocated : Slot.free.allocated = false := rfl
@[simp] theorem Slot.free_occupant : Slot.free.occupant = none := rfl
@[simp] theorem Slot.free_recency : Slot.free.recency = 0 := rfl
@[simp] theorem Slot.free_bank : Slot.free.bank = none := rfl

/-! ### `State.logRomOnce` and `sentinelRom` -/

@[simp] theorem State.logRomOnce_cart (s : State) : s.logRomOnce.cart = s.cart := by rw [State.logRomOnce]; split <;> rfl
@[simp] theorem State.logRomOnce_fatal (s : State) : s.logRomOnce.fatal = s.fatal := by rw [State.logRomOnce]; split <;> rfl
@[simp] theorem State.logRomOnce_lastError (s : State) : s.logRomOnce.lastError = s.lastError := by rw [State.logRomOnce]; split <;> rfl
@[simp] theorem State.logRomOnce_slots (s : State) : s.logRomOnce.slots = s.slots := by rw [State.logRomOnce]; split <;> rfl
@[simp] theorem State.logRomOnce_arrivals (s : State) : s.logRomOnce.arrivals = s.arrivals := by rw [State.logRomOnce]; split <;> rfl
@[simp] theorem State.logRomOnce_payload (s : State) : s.logRomOnce.payload = s.payload := by rw [State.logRomOnce]; split <;> rfl
@[simp] theorem State.logRomOnce_draws (s : State) : s.logRomOnce.draws = s.draws := by rw [State.logRomOnce]; split <;> rfl
@[simp] theorem State.logRomOnce_response (s : State) : s.logRomOnce.response = s.response := by rw [State.logRomOnce]; split <;> rfl
@[simp] theorem State.logRomOnce_romLogged (s : State) : s.logRomOnce.romLogged = true := by
  rw [State.logRomOnce]; split <;> simp_all
@[simp] theorem State.logRomOnce_events (s : State) :
    s.logRomOnce.events = if s.romLogged then s.events else s.events ++ [.log s.lastError] := by
  rw [State.logRomOnce]; split <;> rfl
@[simp] theorem sentinelRom_cart (s : State) : (sentinelRom s).cart = s.cart := by simp [sentinelRom]
@[simp] theorem sentinelRom_fatal (s : State) : (sentinelRom s).fatal = s.fatal := by simp [sentinelRom]
@[simp] theorem sentinelRom_romLogged (s : State) : (sentinelRom s).romLogged = true := by simp [sentinelRom]
@[simp] theorem sentinelRom_lastError (s : State) : (sentinelRom s).lastError = s.lastError := by simp [sentinelRom]
@[simp] theorem sentinelRom_slots (s : State) : (sentinelRom s).slots = s.slots := by simp [sentinelRom]
@[simp] theorem sentinelRom_arrivals (s : State) : (sentinelRom s).arrivals = s.arrivals := by simp [sentinelRom]
@[simp] theorem sentinelRom_payload (s : State) : (sentinelRom s).payload = s.payload := by simp [sentinelRom]
@[simp] theorem sentinelRom_draws (s : State) : (sentinelRom s).draws = s.draws := by simp [sentinelRom]
@[simp] theorem sentinelRom_events (s : State) : (sentinelRom s).events = if s.romLogged then s.events else s.events ++ [.log s.lastError] := by simp [sentinelRom]
@[simp] theorem sentinelRom_response (s : State) : (sentinelRom s).response = some (.byte 0xFF) := by simp [sentinelRom]

end Sys2Proof.Machine
end

