-- ==== Sys2Proof/Laws/Cache.lean ====
section
/-! SUPPORT. What each step of the cache controller can do (42_cache.md): lookup, touch, victim, hottest, eviction, allocation,
fill, CACHE_GET, and the part of R42 that each keeps. -/

namespace Sys2Proof.Machine

/-! ## Lookup (R142) -/

theorem Slot.holding_eq_some {b : Nat} {sl : Slot} {data : Memory} :
    sl.holding b = some data ↔ sl.allocated = true ∧ sl.occupant = some { bank := b, data := data } := by
  rw [Slot.holding]
  cases hal : sl.allocated with
  | false => simp
  | true =>
    cases ho : sl.occupant with
    | none => simp
    | some o =>
      obtain ⟨ob, od⟩ := o
      by_cases hb : ob = b <;> simp [hb]

/-- A slot that holds nothing of bank `b`. -/
theorem Slot.holding_eq_none {b : Nat} {sl : Slot} (hal : sl.bank ≠ none → sl.allocated = true) :
    sl.holding b = none ↔ sl.bank ≠ some b := by
  rw [Slot.holding]
  cases ho : sl.occupant with
  | none => simp [Slot.bank, ho]
  | some o =>
    have h : sl.allocated = true := hal (by simp [Slot.bank, ho])
    by_cases hb : o.bank = b <;> simp [h, Slot.bank, ho, hb]

/-- LOOKUP finds a slot that holds the bank, and no slot before it does. -/
theorem lookup_eq_some {b : Nat} {slots : List Slot} {i : Nat} {data : Memory} :
    lookup b slots = some (i, data) ↔
      (∃ sl, slots[i]? = some sl ∧ sl.holding b = some data) ∧ ∀ j sl, j < i → slots[j]? = some sl → sl.holding b = none := by
  induction slots generalizing i with
  | nil => simp [lookup]
  | cons x rest ih =>
    rw [lookup]
    cases hx : x.holding b with
    | some d =>
      simp only [Option.some.injEq, Prod.mk.injEq]
      constructor
      · rintro ⟨rfl, rfl⟩
        exact ⟨⟨x, rfl, hx⟩, fun j sl hj => absurd hj (by omega)⟩
      · rintro ⟨⟨sl, hsl, hh⟩, hlt⟩
        cases i with
        | zero =>
          simp only [List.getElem?_cons_zero, Option.some.injEq] at hsl
          subst hsl
          exact ⟨rfl, by simpa [hx] using hh⟩
        | succ i => exact absurd (hlt 0 x (by omega) rfl) (by simp [hx])
    | none =>
      simp only [Option.map_eq_some_iff, Prod.exists, Prod.mk.injEq]
      constructor
      · rintro ⟨i', d', h, rfl, rfl⟩
        obtain ⟨⟨sl, hsl, hh⟩, hlt⟩ := ih.1 h
        refine ⟨⟨sl, by simpa using hsl, hh⟩, fun j sl' hj hsl' => ?_⟩
        cases j with
        | zero =>
          simp only [List.getElem?_cons_zero, Option.some.injEq] at hsl'
          subst hsl'
          exact hx
        | succ j => exact hlt j sl' (by omega) (by simpa using hsl')
      · rintro ⟨⟨sl, hsl, hh⟩, hlt⟩
        cases i with
        | zero =>
          simp only [List.getElem?_cons_zero, Option.some.injEq] at hsl
          subst hsl
          simp [hx] at hh
        | succ i =>
          refine ⟨i, data, ih.2 ⟨⟨sl, by simpa using hsl, hh⟩, fun j sl' hj hsl' => ?_⟩, rfl, rfl⟩
          exact hlt (j + 1) sl' (by omega) (by simpa using hsl')

theorem lookup_eq_none {b : Nat} {slots : List Slot} :
    lookup b slots = none ↔ ∀ sl ∈ slots, sl.holding b = none := by
  induction slots with
  | nil => simp [lookup]
  | cons x rest ih =>
    rw [lookup]
    cases hx : x.holding b with
    | some d => simp [hx]
    | none => simp [hx, ih]

/-! ## Touch (R143) -/

@[simp] theorem length_touch (i : Nat) (slots : List Slot) : (touch i slots).length = slots.length := by
  induction slots generalizing i with
  | nil => rfl
  | cons x rest ih => cases i <;> simp [touch, ih]

/-- Each slot after a touch: 255 at the touched index, one down everywhere else. -/
theorem getElem?_touch (i : Nat) (slots : List Slot) (j : Nat) :
    (touch i slots)[j]? = slots[j]?.map (Slot.touched (decide (j = i))) := by
  induction slots generalizing i j with
  | nil => simp [touch]
  | cons x rest ih =>
    cases i with
    | zero => cases j <;> simp [touch]
    | succ i => cases j <;> simp [touch, ih]

theorem satDec_toNat (r : BitVec 8) : (satDec r).toNat = r.toNat - 1 := by
  rw [satDec]
  split_ifs with h
  · simp [h]
  · have : r.toNat ≠ 0 := fun e => h (BitVec.eq_of_toNat_eq (by simpa using e))
    have := r.isLt
    rw [BitVec.toNat_sub, show (1 : BitVec 8).toNat = 1 from rfl]
    omega

theorem satDec_ne_max (r : BitVec 8) : satDec r ≠ 255 := by
  intro h
  have := congrArg BitVec.toNat h
  rw [satDec_toNat] at this
  have := r.isLt
  simp at *
  omega

/-! ## Victim (R144) -/

/-- `firstIndex` finds the first slot with the property, if there is one. -/
theorem firstIndex_spec (p : Slot → Bool) (slots : List Slot) (h : ∃ x ∈ slots, p x = true) :
    ∃ x, slots[firstIndex p slots]? = some x ∧ p x = true ∧
      ∀ j y, j < firstIndex p slots → slots[j]? = some y → p y = false := by
  induction slots with
  | nil => simp at h
  | cons x rest ih =>
    rw [firstIndex]
    cases hx : p x with
    | true => exact ⟨x, by simp, hx, fun j y hj => absurd hj (by simp)⟩
    | false =>
      obtain ⟨z, hz, hpz⟩ := h
      have : z ∈ rest := by
        rcases List.mem_cons.1 hz with rfl | hz
        · simp [hx] at hpz
        · exact hz
      obtain ⟨y, hy, hpy, hlt⟩ := ih ⟨z, this, hpz⟩
      refine ⟨y, by simpa using hy, hpy, fun j w hj hw => ?_⟩
      cases j with
      | zero =>
        simp only [List.getElem?_cons_zero, Option.some.injEq] at hw
        rw [← hw, hx]
      | succ j => exact hlt j w (by simpa using hj) (by simpa using hw)

theorem firstIndex_le (p : Slot → Bool) (slots : List Slot) : firstIndex p slots ≤ slots.length := by
  induction slots with
  | nil => simp [firstIndex]
  | cons x rest ih =>
    rw [firstIndex]
    split
    · omega
    · simpa using ih

theorem firstIndex_eq_length (p : Slot → Bool) (slots : List Slot) (h : ∀ x ∈ slots, p x = false) :
    firstIndex p slots = slots.length := by
  induction slots with
  | nil => rfl
  | cons x rest ih =>
    rw [firstIndex, h x (by simp), ih fun y hy => h y (by simp [hy])]
    rfl

theorem minRecency_le (slots : List Slot) (x : Slot) (h : x ∈ slots) : minRecency slots ≤ x.recency.toNat := by
  induction slots with
  | nil => simp at h
  | cons y rest ih =>
    rw [minRecency]
    rcases List.mem_cons.1 h with rfl | h
    · exact Nat.min_le_left _ _
    · exact (Nat.min_le_right _ _).trans (ih h)

theorem minRecency_attained (slots : List Slot) (h : slots ≠ []) : ∃ x ∈ slots, x.recency.toNat = minRecency slots := by
  induction slots with
  | nil => simp at h
  | cons y rest ih =>
    rw [minRecency]
    by_cases hr : rest = []
    · subst hr
      refine ⟨y, by simp, ?_⟩
      have := y.recency.isLt
      simp [minRecency]
      omega
    · obtain ⟨x, hx, hxr⟩ := ih hr
      by_cases hle : y.recency.toNat ≤ minRecency rest
      · exact ⟨y, by simp, by omega⟩
      · exact ⟨x, by simp [hx], by omega⟩

/-- The victim of a pool that is not empty: a slot of least recency, and every slot before it has more. -/
theorem victim_spec (slots : List Slot) (h : slots ≠ []) :
    ∃ x, slots[victim slots]? = some x ∧ (∀ y ∈ slots, x.recency.toNat ≤ y.recency.toNat) ∧
      ∀ j y, j < victim slots → slots[j]? = some y → x.recency.toNat < y.recency.toNat := by
  obtain ⟨z, hz, hzr⟩ := minRecency_attained slots h
  obtain ⟨x, hx, hp, hlt⟩ := firstIndex_spec (fun sl => sl.recency.toNat == minRecency slots) slots
    ⟨z, hz, by simpa using hzr⟩
  have hxr : x.recency.toNat = minRecency slots := by simpa using hp
  refine ⟨x, hx, fun y hy => by rw [hxr]; exact minRecency_le slots y hy, fun j y hj hy => ?_⟩
  have h1 : y.recency.toNat ≠ minRecency slots := by simpa using hlt j y hj hy
  have h2 := minRecency_le slots y (List.mem_of_getElem? hy)
  omega

theorem victim_lt (slots : List Slot) (h : slots ≠ []) : victim slots < slots.length := by
  obtain ⟨x, hx, -, -⟩ := victim_spec slots h
  exact (List.getElem?_eq_some_iff.1 hx).1

/-! ## Hottest (R150) -/

theorem le_maxOccupiedRecency (slots : List Slot) (x : Slot) (h : x ∈ slots) (ho : x.occupant.isSome = true) :
    x.recency.toNat ≤ maxOccupiedRecency slots := by
  induction slots with
  | nil => simp at h
  | cons y rest ih =>
    rw [maxOccupiedRecency]
    rcases List.mem_cons.1 h with rfl | h
    · rw [if_pos ho]; exact Nat.le_max_left _ _
    · split
      · exact (ih h).trans (Nat.le_max_right _ _)
      · exact ih h

theorem maxOccupiedRecency_attained (slots : List Slot) (h : ∃ x ∈ slots, x.occupant.isSome = true) :
    ∃ x ∈ slots, x.occupant.isSome = true ∧ x.recency.toNat = maxOccupiedRecency slots := by
  induction slots with
  | nil => simp at h
  | cons y rest ih =>
    rw [maxOccupiedRecency]
    by_cases hr : ∃ x ∈ rest, x.occupant.isSome = true
    · obtain ⟨x, hx, hxo, hxr⟩ := ih hr
      by_cases hy : y.occupant.isSome = true
      · rw [if_pos hy]
        by_cases hle : y.recency.toNat ≤ maxOccupiedRecency rest
        · exact ⟨x, by simp [hx], hxo, by omega⟩
        · exact ⟨y, by simp, hy, by omega⟩
      · rw [if_neg hy]
        exact ⟨x, by simp [hx], hxo, hxr⟩
    · obtain ⟨x, hx, hxo⟩ := h
      rcases List.mem_cons.1 hx with rfl | hx
      · refine ⟨x, by simp, hxo, ?_⟩
        have hz : maxOccupiedRecency rest = 0 := by
          have hn : ∀ z ∈ rest, z.occupant.isSome = false := fun z hz => by
            by_contra hne
            exact hr ⟨z, hz, eq_true_of_ne_false hne⟩
          clear ih hx hr
          induction rest with
          | nil => rfl
          | cons z rest ih =>
            rw [maxOccupiedRecency, if_neg (by simp [hn z (by simp)])]
            exact ih fun w hw => hn w (by simp [hw])
        rw [if_pos hxo, hz]
        simp
      · exact absurd ⟨x, hx, hxo⟩ hr

/-- HOTTEST when some slot is occupied: the first of the occupied slots with the largest recency. -/
theorem hottest_eq_some {slots : List Slot} {h : Nat} (hh : hottest slots = some h) :
    ∃ x, slots[h]? = some x ∧ x.occupant.isSome = true ∧
      (∀ y ∈ slots, y.occupant.isSome = true → y.recency.toNat ≤ x.recency.toNat) ∧
      ∀ j y, j < h → slots[j]? = some y → y.occupant.isSome = true → y.recency.toNat < x.recency.toNat := by
  rw [hottest] at hh
  split at hh
  · rename_i hlt
    simp only [Option.some.injEq] at hh
    by_cases hex : ∃ x ∈ slots, x.occupant.isSome = true
    · obtain ⟨w, hw, hwo, hwr⟩ := maxOccupiedRecency_attained slots hex
      obtain ⟨x, hx, hp, hbefore⟩ := firstIndex_spec
        (fun sl => sl.occupant.isSome && sl.recency.toNat == maxOccupiedRecency slots) slots ⟨w, hw, by simp [hwo, hwr]⟩
      simp only [Bool.and_eq_true, beq_iff_eq] at hp
      rw [hh] at hx hbefore
      refine ⟨x, hx, hp.1, fun y hy hyo => by rw [hp.2]; exact le_maxOccupiedRecency slots y hy hyo, fun j y hj hy hyo => ?_⟩
      have h1 := hbefore j y hj hy
      have h2 := le_maxOccupiedRecency slots y (List.mem_of_getElem? hy) hyo
      simp only [hyo, Bool.true_and, beq_eq_false_iff_ne, ne_eq] at h1
      omega
    · rw [firstIndex_eq_length] at hlt
      · omega
      · intro x hx
        have : x.occupant.isSome = false := by
          by_contra hne
          exact hex ⟨x, hx, eq_true_of_ne_false hne⟩
        simp [this]
  · simp at hh

theorem hottest_eq_none {slots : List Slot} : hottest slots = none ↔ ∀ x ∈ slots, x.occupant = none := by
  constructor
  · intro hh x hx
    by_contra hne
    have hex : ∃ y ∈ slots, y.occupant.isSome = true := ⟨x, hx, by simpa [Option.isSome_iff_ne_none] using hne⟩
    obtain ⟨w, hw, hwo, hwr⟩ := maxOccupiedRecency_attained slots hex
    obtain ⟨y, hy, -, -⟩ := firstIndex_spec
      (fun sl => sl.occupant.isSome && sl.recency.toNat == maxOccupiedRecency slots) slots ⟨w, hw, by simp [hwo, hwr]⟩
    have := (List.getElem?_eq_some_iff.1 hy).1
    rw [hottest] at hh
    simp [this] at hh
  · intro hn
    rw [hottest, firstIndex_eq_length]
    · simp
    · intro x hx
      simp [hn x hx]

/-! ## Eviction (R151) -/

@[simp] theorem length_freeExcept (keep : Option Nat) (j : Nat) (slots : List Slot) :
    (freeExcept keep j slots).length = slots.length := by
  induction slots generalizing j with
  | nil => rfl
  | cons x rest ih => simp [freeExcept, ih]

theorem getElem?_freeExcept (keep : Option Nat) (j : Nat) (slots : List Slot) (i : Nat) :
    (freeExcept keep j slots)[i]? =
      slots[i]?.map fun sl => if sl.allocated && keep != some (j + i) then Slot.free else sl := by
  induction slots generalizing j i with
  | nil => simp [freeExcept]
  | cons x rest ih =>
    cases i with
    | zero => simp [freeExcept]
    | succ i => rw [freeExcept, List.getElem?_cons_succ, List.getElem?_cons_succ, ih, Nat.add_right_comm, Nat.add_assoc]

/-! ## Pools one step apart

`PoolStep` says of two pools what allocation and eviction may do: every slot is as it was, or has gained an empty buffer, or is
free. -/

/-- A slot after allocations and evictions. -/
inductive SlotStep (x : Slot) : Slot → Prop
  | same : SlotStep x x
  | allocated : SlotStep x { x with allocated := true }
  | freed : SlotStep x Slot.free
  | freedAllocated : SlotStep x { Slot.free with allocated := true }

/-- Two pools of one size whose slots are a `SlotStep` apart. -/
def PoolStep (p q : List Slot) : Prop :=
  q.length = p.length ∧ ∀ (i : Nat) (y : Slot), q[i]? = some y → ∃ x, p[i]? = some x ∧ SlotStep x y

theorem PoolStep.refl (p : List Slot) : PoolStep p p := ⟨rfl, fun _ y h => ⟨y, h, .same⟩⟩

@[simp] theorem length_allocate (v : Nat) (slots : List Slot) : (allocate v slots).length = slots.length := by
  simp [allocate]

theorem getElem?_allocate (v : Nat) (slots : List Slot) (i : Nat) :
    (allocate v slots)[i]? = slots[i]?.map fun sl => if v = i then { sl with allocated := true } else sl := by
  rw [allocate, List.getElem?_modify]
  by_cases h : v = i <;> simp [h]

@[simp] theorem length_fill (v b : Nat) (data : Memory) (slots : List Slot) : (fill v b data slots).length = slots.length := by
  simp [fill]

theorem getElem?_fill (v b : Nat) (data : Memory) (slots : List Slot) (i : Nat) :
    (fill v b data slots)[i]? =
      slots[i]?.map fun sl => if v = i then { sl with occupant := some { bank := b, data := data } } else sl := by
  rw [fill, List.getElem?_modify]
  by_cases h : v = i <;> simp [h]

theorem PoolStep.freeExcept (keep : Option Nat) (p : List Slot) : PoolStep p (freeExcept keep 0 p) := by
  refine ⟨by simp, fun i y h => ?_⟩
  rw [getElem?_freeExcept, Option.map_eq_some_iff] at h
  obtain ⟨x, hx, rfl⟩ := h
  refine ⟨x, hx, ?_⟩
  split
  · exact .freed
  · exact .same

theorem PoolStep.allocate {p q : List Slot} (v : Nat) (h : PoolStep p q) : PoolStep p (allocate v q) := by
  refine ⟨by simpa using h.1, fun i y hy => ?_⟩
  rw [getElem?_allocate, Option.map_eq_some_iff] at hy
  obtain ⟨z, hz, rfl⟩ := hy
  obtain ⟨x, hx, hs⟩ := h.2 i z hz
  refine ⟨x, hx, ?_⟩
  split
  · cases hs with
    | same => exact .allocated
    | allocated => exact .allocated
    | freed => exact .freedAllocated
    | freedAllocated => exact .freedAllocated
  · exact hs

/-! ## Ensuring a buffer (R145) -/

@[simp] theorem evictNonessential_slots (s : State) :
    (evictNonessential s).slots = freeExcept (hottest s.slots) 0 s.slots := rfl

/-- ENSURE_BUFFER changes the pool alone, by a `PoolStep`; it answers true exactly when the victim (if it exists) now owns a buffer
by one of the three ways, and false when both allocations fail. -/
theorem ensureBuffer_cases (v : Nat) (s : State) :
    (slotAllocated v s.slots = true ∧ ensureBuffer v s = (true, s)) ∨
    (slotAllocated v s.slots = false ∧ s.draws.allocOk = true ∧ ensureBuffer v s = (true, s.withSlots (allocate v s.slots))) ∨
    (slotAllocated v s.slots = false ∧ s.draws.allocOk = false ∧ s.draws.allocRetryOk = true ∧
      ensureBuffer v s = (true, s.withSlots (allocate v (freeExcept (hottest s.slots) 0 s.slots)))) ∨
    (slotAllocated v s.slots = false ∧ s.draws.allocOk = false ∧ s.draws.allocRetryOk = false ∧
      ensureBuffer v s = (false, s.withSlots (freeExcept (hottest s.slots) 0 s.slots))) := by
  rw [ensureBuffer]
  cases h1 : slotAllocated v s.slots with
  | true => simp
  | false =>
    cases h2 : s.draws.allocOk with
    | true => simp
    | false =>
      have hd : (evictNonessential s).draws = s.draws := rfl
      cases h3 : s.draws.allocRetryOk with
      | true => simp [hd, h3]; rfl
      | false => simp [hd, h3]; rfl

/-- What ENSURE_BUFFER leaves: another pool, a `PoolStep` away. -/
theorem ensureBuffer_step (v : Nat) (s : State) :
    ∃ ok q, ensureBuffer v s = (ok, s.withSlots q) ∧ PoolStep s.slots q := by
  rcases ensureBuffer_cases v s with ⟨-, h⟩ | ⟨-, -, h⟩ | ⟨-, -, -, h⟩ | ⟨-, -, -, h⟩
  · exact ⟨_, s.slots, h, .refl _⟩
  · exact ⟨_, _, h, (PoolStep.refl _).allocate v⟩
  · exact ⟨_, _, h, (PoolStep.freeExcept _ _).allocate v⟩
  · exact ⟨_, _, h, .freeExcept _ _⟩

/-- After a true answer the victim owns a buffer. -/
theorem ensureBuffer_allocated (v : Nat) (s : State) (q : List Slot) (h : ensureBuffer v s = (true, s.withSlots q))
    (hv : v < s.slots.length) : ∃ x, q[v]? = some x ∧ x.allocated = true := by
  have slotsOf {a b : State} {x y : Bool} (e : (x, a) = (y, b)) : a.slots = b.slots := by cases e; rfl
  rcases ensureBuffer_cases v s with ⟨ha, h'⟩ | ⟨-, -, h'⟩ | ⟨-, -, -, h'⟩ | ⟨-, -, -, h'⟩
  · have := slotsOf (h'.symm.trans h)
    simp only [State.withSlots_slots] at this
    subst this
    rw [slotAllocated] at ha
    split at ha
    · simp at ha
    · exact ⟨_, by assumption, ha⟩
  · have := slotsOf (h'.symm.trans h)
    simp only [State.withSlots_slots] at this
    subst this
    rw [getElem?_allocate, List.getElem?_eq_getElem hv]
    exact ⟨_, rfl, by simp⟩
  · have := slotsOf (h'.symm.trans h)
    simp only [State.withSlots_slots] at this
    subst this
    rw [getElem?_allocate, List.getElem?_eq_getElem (by simpa using hv)]
    exact ⟨_, rfl, by simp⟩
  · rw [h'] at h
    simp at h

/-! ## CACHE_GET (R140, R147) -/

theorem miss_cases (c : Cart) (b : Nat) (s : State) :
    (∃ q, ensureBuffer (victim s.slots) s = (false, s.withSlots q) ∧ PoolStep s.slots q ∧
      miss c b s = (.null, (s.withSlots q).raise .allocationFailed)) ∨
    (∃ q, ensureBuffer (victim s.slots) s = (true, s.withSlots q) ∧ PoolStep s.slots q ∧ s.draws.bankFetchOk = false ∧
      miss c b s = (.null, ((s.withSlots q).emit (.fetch (b * 16384) 16384 false)).raise .bankFetchFailed)) ∨
    (∃ q, ensureBuffer (victim s.slots) s = (true, s.withSlots q) ∧ PoolStep s.slots q ∧ s.draws.bankFetchOk = true ∧
      miss c b s = (.slot (victim s.slots) (c.romImage.slice (b * 16384) 16384),
        ((s.withSlots q).emit (.fetch (b * 16384) 16384 true)).withSlots
          (touch (victim s.slots) (fill (victim s.slots) b (c.romImage.slice (b * 16384) 16384) q)))) := by
  obtain ⟨ok, q, he, hq⟩ := ensureBuffer_step (victim s.slots) s
  rw [miss]
  simp only [he]
  cases ok with
  | false => exact .inl ⟨q, rfl, hq, rfl⟩
  | true =>
    refine .inr ?_
    simp only [storageRead, bankOffset, State.withSlots_draws]
    by_cases hd : s.draws.bankFetchOk = true
    · exact .inr ⟨q, rfl, hq, hd, by simp [hd]⟩
    · exact .inl ⟨q, rfl, hq, eq_false_of_ne_true hd, by simp [hd]⟩

theorem cacheGet_zero (c : Cart) (s : State) : cacheGet c 0 s = (.bank0, s) := rfl

theorem cacheGet_hit (c : Cart) (b : Nat) (s : State) (hb : b ≠ 0) {i : Nat} {data : Memory}
    (h : lookup b s.slots = some (i, data)) : cacheGet c b s = (.slot i data, s.withSlots (touch i s.slots)) := by
  simp [cacheGet, hb, h]

theorem cacheGet_miss (c : Cart) (b : Nat) (s : State) (hb : b ≠ 0) (h : lookup b s.slots = none) :
    cacheGet c b s = miss c b s := by
  simp [cacheGet, hb, h]

/-- CACHE_GET changes the pool, `lastError` and the events, and nothing else. -/
theorem cacheGet_frame (c : Cart) (b : Nat) (s : State) :
    ∃ q err evs, (cacheGet c b s).2 = { s with slots := q, lastError := err, events := evs } := by
  by_cases hb : b = 0
  · subst hb; exact ⟨s.slots, s.lastError, s.events, rfl⟩
  · cases hl : lookup b s.slots with
    | some r =>
      rw [cacheGet_hit c b s hb (i := r.1) (data := r.2) hl]
      exact ⟨_, s.lastError, s.events, rfl⟩
    | none =>
      rw [cacheGet_miss c b s hb hl]
      rcases miss_cases c b s with ⟨q, -, -, h⟩ | ⟨q, -, -, -, h⟩ | ⟨q, -, -, -, h⟩ <;> rw [h]
      · exact ⟨_, _, s.events, rfl⟩
      · exact ⟨_, _, _, rfl⟩
      · exact ⟨_, s.lastError, _, rfl⟩

@[simp] theorem cacheGet_cart (c : Cart) (b : Nat) (s : State) : (cacheGet c b s).2.cart = s.cart := by
  obtain ⟨q, err, evs, h⟩ := cacheGet_frame c b s; rw [h]
@[simp] theorem cacheGet_fatal (c : Cart) (b : Nat) (s : State) : (cacheGet c b s).2.fatal = s.fatal := by
  obtain ⟨q, err, evs, h⟩ := cacheGet_frame c b s; rw [h]
@[simp] theorem cacheGet_romLogged (c : Cart) (b : Nat) (s : State) : (cacheGet c b s).2.romLogged = s.romLogged := by
  obtain ⟨q, err, evs, h⟩ := cacheGet_frame c b s; rw [h]
@[simp] theorem cacheGet_arrivals (c : Cart) (b : Nat) (s : State) : (cacheGet c b s).2.arrivals = s.arrivals := by
  obtain ⟨q, err, evs, h⟩ := cacheGet_frame c b s; rw [h]
@[simp] theorem cacheGet_payload (c : Cart) (b : Nat) (s : State) : (cacheGet c b s).2.payload = s.payload := by
  obtain ⟨q, err, evs, h⟩ := cacheGet_frame c b s; rw [h]
@[simp] theorem cacheGet_draws (c : Cart) (b : Nat) (s : State) : (cacheGet c b s).2.draws = s.draws := by
  obtain ⟨q, err, evs, h⟩ := cacheGet_frame c b s; rw [h]
@[simp] theorem cacheGet_response (c : Cart) (b : Nat) (s : State) : (cacheGet c b s).2.response = s.response := by
  obtain ⟨q, err, evs, h⟩ := cacheGet_frame c b s; rw [h]

/-- RESOLVE of a bank that is not resident is CACHE_GET; otherwise it changes nothing (R103). -/
theorem resolve_cases (c : Cart) (b : Nat) (s : State) :
    (b = 0 ∧ resolve c b s = (.bank0, s)) ∨
    (b ≠ 0 ∧ ∃ i data, lookup b s.slots = some (i, data) ∧ resolve c b s = (.slot i data, s)) ∨
    (b ≠ 0 ∧ lookup b s.slots = none ∧ resolve c b s = cacheGet c b s) := by
  by_cases hb : b = 0
  · exact .inl ⟨hb, by simp [resolve, hb]⟩
  · refine .inr ?_
    cases hl : lookup b s.slots with
    | some r => exact .inl ⟨hb, r.1, r.2, rfl, by simp [resolve, hb, hl]⟩
    | none => exact .inr ⟨hb, rfl, by simp [resolve, hb, hl]⟩

/-- CACHE_GET of a bank above 0 never answers the bank-0 buffer. -/
theorem cacheGet_ne_bank0 (c : Cart) (b : Nat) (s : State) (hb : b ≠ 0) : (cacheGet c b s).1 ≠ .bank0 := by
  cases hl : lookup b s.slots with
  | some r => rw [cacheGet_hit c b s hb (i := r.1) (data := r.2) hl]; simp
  | none =>
    rw [cacheGet_miss c b s hb hl]
    rcases miss_cases c b s with ⟨q, -, -, e⟩ | ⟨q, -, -, -, e⟩ | ⟨q, -, -, -, e⟩ <;> rw [e] <;> simp

/-- What CACHE_GET records: nothing, or one whole-bank fetch at the bank's offset (R53, R147). -/
theorem cacheGet_events (c : Cart) (b : Nat) (s : State) :
    (cacheGet c b s).2.events = s.events ∨ ∃ ok, (cacheGet c b s).2.events = s.events ++ [.fetch (b * 16384) 16384 ok] := by
  by_cases hb : b = 0
  · subst hb; exact .inl rfl
  · cases hl : lookup b s.slots with
    | some r => rw [cacheGet_hit c b s hb (i := r.1) (data := r.2) hl]; exact .inl rfl
    | none =>
      rw [cacheGet_miss c b s hb hl]
      rcases miss_cases c b s with ⟨q, -, -, e⟩ | ⟨q, -, -, -, e⟩ | ⟨q, -, -, -, e⟩ <;> rw [e]
      · exact .inl rfl
      · exact .inr ⟨false, rfl⟩
      · exact .inr ⟨true, rfl⟩

/-! ## A hit and a miss, slot by slot (R142, R143, R147) -/

theorem satDec_eq (r : BitVec 8) : satDec r = BitVec.ofNat 8 (r.toNat - 1) := by
  apply BitVec.eq_of_toNat_eq
  rw [satDec_toNat, BitVec.toNat_ofNat, Nat.mod_eq_of_lt (by have := r.isLt; omega)]

/-- LOOKUP of a bank no slot names. -/
theorem lookup_of_not_resident {slots : List Slot} {b : Nat} (h : ∀ x ∈ slots, x.bank ≠ some b) : lookup b slots = none := by
  rw [lookup_eq_none]
  intro sl hsl
  have hne := h sl hsl
  rw [Slot.holding]
  cases ho : sl.occupant with
  | none => simp
  | some o =>
    have : o.bank ≠ b := fun e => hne (by simp [Slot.bank, ho, e])
    simp [this]

theorem getElem?_touch_fill_self {q : List Slot} {v : Nat} {x : Slot} (b : Nat) (data : Memory) (hx : q[v]? = some x) :
    (touch v (fill v b data q))[v]? = some { x with occupant := some { bank := b, data := data }, recency := 255 } := by
  rw [getElem?_touch, getElem?_fill, hx]
  simp [Slot.touched]

theorem getElem?_touch_fill_other {q : List Slot} {v j : Nat} {y : Slot} (b : Nat) (data : Memory) (hj : j ≠ v) (hy : q[j]? = some y) :
    (touch v (fill v b data q))[j]? = some { y with recency := BitVec.ofNat 8 (y.recency.toNat - 1) } := by
  rw [getElem?_touch, getElem?_fill, hy]
  simp [Slot.touched, hj, Ne.symm hj, satDec_eq]

/-- ENSURE_BUFFER of a slot that owns a buffer or is given one at once: no other slot changes. -/
theorem ensureBuffer_direct {v : Nat} {x : Slot} {s : State} (hx : s.slots[v]? = some x)
    (h : x.allocated = true ∨ s.draws.allocOk = true) :
    ∃ q, ensureBuffer v s = (true, s.withSlots q) ∧ q.length = s.slots.length ∧ q[v]? = some { x with allocated := true } ∧
      ∀ j, j ≠ v → q[j]? = s.slots[j]? := by
  have hsa : slotAllocated v s.slots = x.allocated := by simp [slotAllocated, hx]
  rcases ensureBuffer_cases v s with ⟨ha, he⟩ | ⟨-, -, he⟩ | ⟨ha, hd, -, -⟩ | ⟨ha, hd, -, -⟩
  · refine ⟨s.slots, he, rfl, ?_, fun _ _ => rfl⟩
    rw [hsa] at ha
    rw [hx]
    obtain ⟨al, oc, re⟩ := x
    simp only at ha
    rw [ha]
  · refine ⟨_, he, by simp, ?_, fun j hj => ?_⟩
    · rw [getElem?_allocate, hx]; simp
    · rw [getElem?_allocate]; simp [Ne.symm hj]
  · rw [hsa] at ha; simp [ha, hd] at h
  · rw [hsa] at ha; simp [ha, hd] at h

/-- A miss whose victim got its buffer: the fetch decides. -/
theorem miss_of_buffer {c : Cart} {b : Nat} {s : State} {q : List Slot}
    (h : ensureBuffer (victim s.slots) s = (true, s.withSlots q)) :
    miss c b s =
      if s.draws.bankFetchOk then
        (.slot (victim s.slots) (c.romImage.slice (b * 16384) 16384),
          ((s.withSlots q).emit (.fetch (b * 16384) 16384 true)).withSlots
            (touch (victim s.slots) (fill (victim s.slots) b (c.romImage.slice (b * 16384) 16384) q)))
      else (.null, ((s.withSlots q).emit (.fetch (b * 16384) 16384 false)).raise .bankFetchFailed) := by
  rw [miss]
  simp only [h, storageRead, bankOffset, State.withSlots_draws]
  by_cases hd : s.draws.bankFetchOk = true <;> simp [hd]

/-! ## SELECT (R121) -/

/-- SELECT: what CACHE_GET did to the state, and the mapping. -/
theorem select_eq (c : Cart) (s : State) :
    select c s = (cacheGet c c.mbc.currentRomBank.toNat s).2.withCart
      { c with mappedBank := match (cacheGet c c.mbc.currentRomBank.toNat s).1 with
                 | .bank0 => some 0
                 | .slot _ _ => some c.mbc.currentRomBank.toNat
                 | .null => c.mappedBank } := by
  rw [select]
  split <;> rename_i h <;> rw [h]

end Sys2Proof.Machine
end

