-- ==== Sys2Proof/Laws/Encoding.lean ====
section
/-! SUPPORT. The fields of an assembled key and of a host word, bit by bit, and which words fit their port. -/

namespace Sys2Proof

@[simp] theorem Variant.ofBit_bit (v : Variant) : Variant.ofBit v.bit = v := by cases v <;> rfl
@[simp] theorem Variant.bit_ofBit (b : Bool) : (Variant.ofBit b).bit = b := by cases b <;> rfl

/-! ## The fields of K = V, WE, A, D (R71) -/

/-- One bit of an assembled key. -/
theorem getLsbD_assembleKey (v : Variant) (we : Bool) (a : Addr) (d : Byte) (i : Nat) :
    (assembleKey v we a d).getLsbD i =
      if i < 8 then d.getLsbD i else if i < 24 then a.getLsbD (i - 8)
      else if i < 25 then decide (i = 24) && we else decide (i = 25) && v.bit := by
  have h : (assembleKey v we a d).getLsbD i =
      BitVec.getLsbD (w := 1 + 1 + 16 + 8) (BitVec.ofBool v.bit ++ BitVec.ofBool we ++ a ++ d) i := rfl
  rw [h, BitVec.getLsbD_append, BitVec.getLsbD_append, BitVec.getLsbD_append, BitVec.getLsbD_ofBool, BitVec.getLsbD_ofBool]
  by_cases h1 : i < 8
  · simp [h1]
  · by_cases h2 : i < 24
    · simp [h1, h2, show i - 8 < 16 by omega]
    · by_cases h3 : i < 25
      · obtain rfl : i = 24 := by omega
        simp
      · simp only [h1, h2, h3, show ¬ i - 8 < 16 by omega, show ¬ i - 8 - 16 < 1 by omega, if_false]
        congr 1
        simp only [decide_eq_decide]
        omega

@[simp] theorem keyVariant_assembleKey (v : Variant) (we : Bool) (a : Addr) (d : Byte) :
    keyVariant (assembleKey v we a d) = v := by
  rw [keyVariant, getLsbD_assembleKey]
  exact Variant.ofBit_bit v

@[simp] theorem keyWrite_assembleKey (v : Variant) (we : Bool) (a : Addr) (d : Byte) :
    keyWrite (assembleKey v we a d) = we := by
  rw [keyWrite, getLsbD_assembleKey]
  rfl

theorem getLsbD_assembleKey_addr (v : Variant) (we : Bool) (a : Addr) (d : Byte) (i : Nat) (hi : i < 16) :
    (assembleKey v we a d).getLsbD (8 + i) = a.getLsbD i := by
  rw [getLsbD_assembleKey, if_neg (by omega), if_pos (by omega), Nat.add_sub_cancel_left]

@[simp] theorem keyAddr_assembleKey (v : Variant) (we : Bool) (a : Addr) (d : Byte) :
    keyAddr (assembleKey v we a d) = a := by
  apply BitVec.eq_of_getLsbD_eq
  intro i hi
  rw [keyAddr, BitVec.getLsbD_extractLsb', getLsbD_assembleKey_addr v we a d i hi]
  simp [hi]

@[simp] theorem keyData_assembleKey (v : Variant) (we : Bool) (a : Addr) (d : Byte) :
    keyData (assembleKey v we a d) = d := by
  apply BitVec.eq_of_getLsbD_eq
  intro i hi
  rw [keyData, BitVec.getLsbD_extractLsb', getLsbD_assembleKey, Nat.zero_add, if_pos hi]
  simp [hi]

/-- A key is assembled from its own fields (R71). -/
theorem assembleKey_fields (k : CpuKey) : assembleKey (keyVariant k) (keyWrite k) (keyAddr k) (keyData k) = k := by
  apply BitVec.eq_of_getLsbD_eq
  intro i hi
  rw [getLsbD_assembleKey, keyData, keyAddr, keyWrite, keyVariant, Variant.bit_ofBit, BitVec.getLsbD_extractLsb',
    BitVec.getLsbD_extractLsb']
  split_ifs with h1 h2 h3
  · simp only [h1, decide_true, Bool.true_and, Nat.zero_add]
  · simp only [show i - 8 < 16 by omega, decide_true, Bool.true_and, show 8 + (i - 8) = i by omega]
  · obtain rfl : i = 24 := by omega
    rfl
  · obtain rfl : i = 25 := by omega
    rfl

/-! ## Words fit their port -/

/-- A key stands in the low 26 bits of its word. -/
theorem zeroExtend_key_high (k : CpuKey) : (k.zeroExtend 32) >>> 26 = 0#32 := by
  apply BitVec.eq_of_getLsbD_eq
  intro i _
  simp only [BitVec.getLsbD_ushiftRight, BitVec.getLsbD_setWidth, BitVec.getLsbD_zero]
  rw [BitVec.getLsbD_of_ge k (26 + i) (by omega), Bool.and_false]

theorem extract_zeroExtend_key (k : CpuKey) : (k.zeroExtend 32).extractLsb' 0 26 = k := by
  apply BitVec.eq_of_getLsbD_eq
  intro i hi
  simp only [BitVec.getLsbD_extractLsb', BitVec.getLsbD_setWidth, Nat.zero_add]
  simp [hi, show i < 32 by omega]

/-- The decoder reads back a key's word as the key (R70, R71). -/
theorem decode_cpu_key (k : CpuKey) : decode .cpu (k.zeroExtend 32) = .ok (decodeKey k) := by
  rw [decode, if_pos (zeroExtend_key_high k), extract_zeroExtend_key]

/-! ## Keys with fixed top address bits (R73) -/

theorem getLsbD_append3 (top : BitVec 3) (a : BitVec 13) (i : Nat) :
    (top ++ a : Addr).getLsbD i = if i < 13 then a.getLsbD i else top.getLsbD (i - 13) := by
  have h : (top ++ a : Addr).getLsbD i = BitVec.getLsbD (w := 3 + 13) (top ++ a) i := rfl
  rw [h, BitVec.getLsbD_append]

theorem getLsbD_append2 (top : BitVec 2) (a : BitVec 14) (i : Nat) :
    (top ++ a : Addr).getLsbD i = if i < 14 then a.getLsbD i else top.getLsbD (i - 14) := by
  have h : (top ++ a : Addr).getLsbD i = BitVec.getLsbD (w := 2 + 14) (top ++ a) i := rfl
  rw [h, BitVec.getLsbD_append]

theorem keyOffset13_key13 (v : Variant) (we : Bool) (top : BitVec 3) (a : BitVec 13) (d : Byte) :
    keyOffset13 (key13 v we top a d) = a := by
  apply BitVec.eq_of_getLsbD_eq
  intro i hi
  rw [keyOffset13, key13, BitVec.getLsbD_extractLsb', getLsbD_assembleKey_addr _ _ _ _ _ (by omega), getLsbD_append3]
  simp [hi]

theorem keyOffset14_key14 (v : Variant) (we : Bool) (top : BitVec 2) (a : BitVec 14) (d : Byte) :
    keyOffset14 (key14 v we top a d) = a := by
  apply BitVec.eq_of_getLsbD_eq
  intro i hi
  rw [keyOffset14, key14, BitVec.getLsbD_extractLsb', getLsbD_assembleKey_addr _ _ _ _ _ (by omega), getLsbD_append2]
  simp [hi]

/-- Decoding a key by its three fixed address bits. -/
theorem decodeKey_key13 (v : Variant) (we : Bool) (top : BitVec 3) (a : BitVec 13) (d : Byte) :
    decodeKey (key13 v we top a d) =
      match we, top.getLsbD 2, top.getLsbD 1, top.getLsbD 0 with
      | true, false, a14, a13 => decodeRegisterWrite v a14 a13 a d
      | false, false, false, _ => .passRom0Rd v (keyOffset14 (key13 v we top a d)) d
      | false, false, true, _ => .rdRomx v (keyOffset14 (key13 v we top a d)) d
      | we, true, false, false => .pass8000 v we a d
      | false, true, false, true => .rdRam v a d
      | true, true, false, true => .wrRam v a d
      | we, true, true, _ => .passC000 v we (keyOffset14 (key13 v we top a d)) d := by
  have h1 := (getLsbD_assembleKey_addr v we (top ++ a) d 15 (by omega)).trans (getLsbD_append3 top a 15)
  have h2 := (getLsbD_assembleKey_addr v we (top ++ a) d 14 (by omega)).trans (getLsbD_append3 top a 14)
  have h3 := (getLsbD_assembleKey_addr v we (top ++ a) d 13 (by omega)).trans (getLsbD_append3 top a 13)
  rw [decodeKey, keyOffset13_key13]
  simp only [key13, keyVariant_assembleKey, keyWrite_assembleKey, keyData_assembleKey]
  simp only [Nat.reduceAdd, Nat.reduceLT, Nat.reduceSub, if_false] at h1 h2 h3
  rw [h1, h2, h3]
  generalize top.getLsbD 2 = x
  generalize top.getLsbD 1 = y
  generalize top.getLsbD 0 = z
  cases we <;> cases x <;> cases y <;> cases z <;> rfl

/-- Decoding a key by its two fixed address bits. -/
theorem decodeKey_key14 (v : Variant) (we : Bool) (top : BitVec 2) (a : BitVec 14) (d : Byte) :
    decodeKey (key14 v we top a d) =
      match we, top.getLsbD 1, top.getLsbD 0, (key14 v we top a d).getLsbD 21 with
      | true, false, a14, a13 => decodeRegisterWrite v a14 a13 (keyOffset13 (key14 v we top a d)) d
      | false, false, false, _ => .passRom0Rd v a d
      | false, false, true, _ => .rdRomx v a d
      | we, true, false, false => .pass8000 v we (keyOffset13 (key14 v we top a d)) d
      | false, true, false, true => .rdRam v (keyOffset13 (key14 v we top a d)) d
      | true, true, false, true => .wrRam v (keyOffset13 (key14 v we top a d)) d
      | we, true, true, _ => .passC000 v we a d := by
  have h1 := (getLsbD_assembleKey_addr v we (top ++ a) d 15 (by omega)).trans (getLsbD_append2 top a 15)
  have h2 := (getLsbD_assembleKey_addr v we (top ++ a) d 14 (by omega)).trans (getLsbD_append2 top a 14)
  rw [decodeKey, keyOffset14_key14]
  simp only [key14, keyVariant_assembleKey, keyWrite_assembleKey, keyData_assembleKey]
  simp only [Nat.reduceAdd, Nat.reduceLT, Nat.reduceSub, if_false] at h1 h2
  rw [h1, h2]
  generalize top.getLsbD 1 = x
  generalize top.getLsbD 0 = y
  generalize BitVec.getLsbD (assembleKey v we (top ++ a) d) 21 = z
  cases we <;> cases x <;> cases y <;> cases z <;> rfl

theorem decodeKey_pass8000 (v : Variant) (we : Bool) (a : BitVec 13) (d : Byte) :
    decodeKey (key13 v we 0b100#3 a d) = .pass8000 v we a d := by
  rw [decodeKey_key13]; cases we <;> rfl

theorem decodeKey_passC000 (v : Variant) (we : Bool) (a : BitVec 14) (d : Byte) :
    decodeKey (key14 v we 0b11#2 a d) = .passC000 v we a d := by
  rw [decodeKey_key14]
  cases we <;> cases (key14 v _ 0b11#2 a d).getLsbD 21 <;> rfl

/-! ## Host words as numbers (R76) -/

theorem toNat_ofBool' (b : Bool) : (BitVec.ofBool b).toNat = b.toNat := by cases b <;> rfl

theorem fieldWord_toNat (f : BitVec 16) (c : BitVec 4) : (fieldWord f c).toNat = c.toNat + 16 * f.toNat := by
  have h : (fieldWord f c).toNat = BitVec.toNat (w := 12 + 16 + 4) (0#12 ++ f ++ c) := rfl
  rw [h, BitVec.toNat_append, BitVec.toNat_append]
  simp only [Nat.shiftLeft_eq, BitVec.toNat_ofNat, Nat.zero_mod, Nat.zero_mul, Nat.zero_or]
  rw [Nat.mul_comm, ← Nat.two_pow_add_eq_or_of_lt (i := 4) c.isLt]
  omega

theorem loadWord_toNat (v : Variant) (shift code : BitVec 4) (eager : Bool) :
    (loadWord v shift code eager).toNat =
      1 + 16 * v.bit.toNat + 32 * shift.toNat + 512 * code.toNat + 8192 * eager.toNat := by
  have h : (loadWord v shift code eager).toNat = BitVec.toNat (w := 18 + 1 + 4 + 4 + 1 + 4)
      (0#18 ++ BitVec.ofBool eager ++ code ++ shift ++ BitVec.ofBool v.bit ++ 1#4) := rfl
  have e1 := Bool.toNat_lt eager
  have e2 := Bool.toNat_lt v.bit
  have join (x n b : Nat) (hb : b < 2 ^ n) : x * 2 ^ n ||| b = x * 2 ^ n + b := by
    rw [Nat.mul_comm, Nat.two_pow_add_eq_or_of_lt (i := n) hb]
  rw [h]
  simp only [BitVec.toNat_append, Nat.shiftLeft_eq, toNat_ofBool', show (0#18).toNat = 0 from rfl, show (1#4).toNat = 1 from rfl,
    Nat.zero_mul, Nat.zero_or]
  rw [join _ 4 1 (by omega), join _ 1 v.bit.toNat (by omega), join _ 4 shift.toNat shift.isLt, join _ 4 code.toNat code.isLt]
  omega

theorem hostCmd_eq (h : HostWord) : hostCmd h = h.toNat % 16 := by simp [hostCmd, BitVec.extractLsb'_toNat]

/-- A reserved word, as a number (R81). -/
theorem reservedHostWord_eq (h : HostWord) :
    reservedHostWord h =
      match hostReservedFrom (h.toNat % 16) with
      | none => true
      | some lo => decide (2 ^ lo ≤ h.toNat) := by
  rw [reservedHostWord, hostCmd_eq]
  cases hostReservedFrom (BitVec.toNat h % 16) with
  | none => rfl
  | some lo =>
    rw [Bool.eq_iff_iff]
    simp only [bne_iff_ne, ne_eq, decide_eq_true_eq, ← BitVec.toNat_inj, BitVec.toNat_ushiftRight, BitVec.toNat_ofNat,
      Nat.shiftRight_eq_div_pow]
    rw [Nat.zero_mod, Nat.div_eq_zero_iff]
    have : 0 < 2 ^ lo := Nat.two_pow_pos lo
    omega

end Sys2Proof
end

