-- ==== Sys2Proof/Laws/Memory.lean ====
section
/-! SUPPORT. The laws of byte buffers: reading after writing, slices, strings, and the canonical form. -/

namespace Sys2Proof.Machine

@[simp] theorem Memory.read_nil (a : Nat) : Memory.read [] a = Memory.blank := rfl

theorem Memory.read_cons (c : Host.Cell) (m : Memory) (a : Nat) :
    Memory.read (c :: m) a = if c.1 = a then c.2 else Memory.read m a := rfl

/-- An address below every listed one reads as blank. -/
theorem Memory.read_of_lt (m : Memory) (a : Nat) (h : ∀ c ∈ m, a < c.1) : m.read a = Memory.blank := by
  induction m with
  | nil => rfl
  | cons c m ih =>
    have hc := h c (by simp)
    rw [Memory.read_cons, if_neg (by omega)]
    exact ih fun c hc => h c (by simp [hc])

theorem Memory.wf_cons {c : Host.Cell} {m : Memory} :
    Memory.wf (c :: m) ↔ c.2 ≠ Memory.blank ∧ (∀ d ∈ m, c.1 < d.1) ∧ m.wf := by
  simp only [Memory.wf, List.pairwise_cons, List.mem_cons, forall_eq_or_imp]
  tauto

@[simp] theorem Memory.wf_nil : Memory.wf [] := by simp [Memory.wf]

/-- Read after write, at the address written and at every other one. -/
theorem Memory.read_write (m : Memory) (a : Nat) (v : Byte) (h : m.wf) (x : Nat) :
    (Memory.write a v m).read x = if x = a then v else m.read x := by
  induction m with
  | nil =>
    rw [Memory.write]
    by_cases hv : v = Memory.blank
    · simp [hv]
    · simp [hv, Memory.read_cons, eq_comm]
  | cons c m ih =>
    obtain ⟨k, y⟩ := c
    obtain ⟨hy, hk, hm⟩ := Memory.wf_cons.1 h
    simp only at hk
    have low (z : Nat) (hz : z ≤ k) : Memory.read m z = Memory.blank :=
      Memory.read_of_lt m z fun d hd => by have := hk d hd; omega
    rw [Memory.write]
    by_cases h1 : a < k
    · rw [if_pos h1]
      by_cases hx : x = a
      · subst hx
        by_cases hv : v = Memory.blank
        · rw [if_pos hv, if_pos rfl, Memory.read_cons, if_neg (by simp only; omega), low x (by omega), hv]
        · rw [if_neg hv, if_pos rfl, Memory.read_cons, if_pos rfl]
      · rw [if_neg hx]
        by_cases hv : v = Memory.blank
        · rw [if_pos hv]
        · rw [if_neg hv, Memory.read_cons, if_neg (by simp only; omega)]
    · rw [if_neg h1]
      by_cases h2 : a = k
      · subst h2
        rw [if_pos rfl]
        by_cases hx : x = a
        · subst hx
          by_cases hv : v = Memory.blank
          · rw [if_pos hv, if_pos rfl, low x (by omega), hv]
          · rw [if_neg hv, if_pos rfl, Memory.read_cons, if_pos rfl]
        · have hx' : a ≠ x := fun e => hx e.symm
          by_cases hv : v = Memory.blank
          · rw [if_pos hv, if_neg hx, Memory.read_cons, if_neg hx']
          · rw [if_neg hv, if_neg hx, Memory.read_cons, Memory.read_cons, if_neg hx', if_neg hx']
      · rw [if_neg h2, Memory.read_cons, ih hm]
        by_cases hx : x = a
        · rw [if_neg (by simp only; omega), if_pos hx, if_pos hx]
        · rw [if_neg hx, if_neg hx, Memory.read_cons]

/-- A listed address after a write is the written one or was listed before. -/
theorem Memory.mem_write {m : Memory} {a : Nat} {v : Byte} {c : Host.Cell} (h : c ∈ Memory.write a v m) :
    c = (a, v) ∨ c ∈ m := by
  induction m with
  | nil =>
    rw [Memory.write] at h
    split_ifs at h
    · simp at h
    · simpa using h
  | cons d m ih =>
    obtain ⟨k, y⟩ := d
    rw [Memory.write] at h
    split_ifs at h
    · exact .inr h
    · simpa using h
    · exact .inr (by simp [h])
    · rcases List.mem_cons.1 h with h | h
      · exact .inl h
      · exact .inr (by simp [h])
    · rcases List.mem_cons.1 h with h | h
      · exact .inr (by simp [h])
      · rcases ih h with h | h
        · exact .inl h
        · exact .inr (by simp [h])

/-- A write keeps the canonical form. -/
theorem Memory.wf_write (m : Memory) (a : Nat) (v : Byte) (h : m.wf) : (Memory.write a v m).wf := by
  induction m with
  | nil =>
    rw [Memory.write]
    split_ifs with hv
    · exact Memory.wf_nil
    · exact Memory.wf_cons.2 ⟨hv, by simp, Memory.wf_nil⟩
  | cons c m ih =>
    obtain ⟨k, y⟩ := c
    obtain ⟨hy, hk, hm⟩ := Memory.wf_cons.1 h
    simp only at hk hy
    rw [Memory.write]
    split_ifs with h1 h2 h3 h4
    · exact h
    · refine Memory.wf_cons.2 ⟨h2, fun d hd => ?_, h⟩
      rcases List.mem_cons.1 hd with rfl | hd
      · exact h1
      · have := hk d hd; simp only; omega
    · exact hm
    · exact Memory.wf_cons.2 ⟨h4, fun d hd => by have := hk d hd; simp only; omega, hm⟩
    · refine Memory.wf_cons.2 ⟨hy, fun d hd => ?_, ih hm⟩
      rcases Memory.mem_write hd with rfl | hd
      · simp only; omega
      · exact hk d hd

/-- The bytes of a slice. -/
theorem Memory.read_slice (m : Memory) (base len k : Nat) :
    (m.slice base len).read k = if k < len then m.read (base + k) else Memory.blank := by
  induction m with
  | nil => simp [Memory.slice]
  | cons c m ih =>
    rw [Memory.slice] at ih ⊢
    rw [List.filter_cons]
    split_ifs with h1 h2 h2
    · simp only [Bool.and_eq_true, decide_eq_true_eq] at h1
      rw [List.map_cons, Memory.read_cons, Memory.read_cons, ih, if_pos h2]
      congr 1
      simp only [eq_iff_iff]
      omega
    · simp only [Bool.and_eq_true, decide_eq_true_eq] at h1
      rw [List.map_cons, Memory.read_cons, ih, if_neg h2, if_neg (by simp only; omega)]
    · simp only [Bool.and_eq_true, decide_eq_true_eq] at h1
      rw [ih, if_pos h2, Memory.read_cons, if_neg (by omega)]
    · rw [ih, if_neg h2]

/-- A slice of a canonical buffer is canonical. -/
theorem Memory.wf_slice (m : Memory) (base len : Nat) (h : m.wf) : (m.slice base len).wf := by
  refine ⟨List.pairwise_map.2 ?_, ?_⟩
  · refine List.Pairwise.imp_of_mem ?_ (h.1.filter _)
    intro x y hx hy hxy
    simp only [List.mem_filter, Bool.and_eq_true, decide_eq_true_eq] at hx hy
    omega
  · intro c hc
    obtain ⟨d, hd, rfl⟩ := List.mem_map.1 hc
    exact h.2 d (List.mem_filter.1 hd).1

/-- A slice lists no address from its length on. -/
theorem Memory.slice_bound (m : Memory) (base len : Nat) : ∀ c ∈ m.slice base len, c.1 < len := by
  intro c hc
  obtain ⟨d, hd, rfl⟩ := List.mem_map.1 hc
  simp only [List.mem_filter, Bool.and_eq_true, decide_eq_true_eq] at hd
  simp only
  omega

/-- Writing a string: the bytes written, and every other byte as before. -/
theorem Memory.read_writeBytes (bs : List Byte) (base : Nat) (m : Memory) (h : m.wf) (x : Nat) :
    (Memory.writeBytes base bs m).read x = if base ≤ x then (bs[x - base]?).getD (m.read x) else m.read x := by
  induction bs generalizing base m with
  | nil => simp [Memory.writeBytes]
  | cons b bs ih =>
    rw [Memory.writeBytes, ih _ _ (Memory.wf_write m base b h), Memory.read_write m base b h]
    by_cases h1 : base + 1 ≤ x
    · obtain ⟨d, rfl⟩ := Nat.exists_eq_add_of_le h1
      have e1 : base + 1 + d - (base + 1) = d := by omega
      have e2 : base + 1 + d - base = d + 1 := by omega
      have e3 : base + 1 + d ≠ base := by omega
      have e4 : base ≤ base + 1 + d := by omega
      simp only [h1, e1, e2, e3, e4, if_true, if_false, List.getElem?_cons_succ]
    · rw [if_neg h1]
      by_cases h2 : base ≤ x
      · have : x = base := by omega
        subst this
        simp
      · rw [if_neg (by omega), if_neg h2]

/-- Writing a string keeps the canonical form. -/
theorem Memory.wf_writeBytes (bs : List Byte) (base : Nat) (m : Memory) (h : m.wf) : (Memory.writeBytes base bs m).wf := by
  induction bs generalizing base m with
  | nil => exact h
  | cons b bs ih => exact ih _ _ (Memory.wf_write m base b h)

/-- Writing a string lists no address beyond its end that was not listed before. -/
theorem Memory.writeBytes_bound (bs : List Byte) (base n : Nat) (m : Memory) (h : ∀ c ∈ m, c.1 < n) (hb : base + bs.length ≤ n) :
    ∀ c ∈ Memory.writeBytes base bs m, c.1 < n := by
  induction bs generalizing base m with
  | nil => exact h
  | cons b bs ih =>
    simp only [List.length_cons] at hb
    refine ih (base + 1) _ (fun c hc => ?_) (by omega)
    rcases Memory.mem_write hc with rfl | hc
    · simp only; omega
    · exact h c hc

@[simp] theorem Memory.length_bytes (n : Nat) (m : Memory) : (m.bytes n).length = n := by simp [Memory.bytes]

/-- The bytes of a buffer as a string. -/
theorem Memory.getElem?_bytes (n : Nat) (m : Memory) (k : Nat) : (m.bytes n)[k]? = if k < n then some (m.read k) else none := by
  simp only [Memory.bytes, List.getElem?_map]
  split_ifs with h
  · rw [List.getElem?_range h]; rfl
  · rw [List.getElem?_eq_none (by simpa using h)]; rfl

/-- Canonical buffers that read alike are the same list. -/
theorem Memory.ext_of_wf (m m' : Memory) (h : m.wf) (h' : m'.wf) (e : ∀ a, m.read a = m'.read a) : m = m' := by
  induction m generalizing m' with
  | nil =>
    cases m' with
    | nil => rfl
    | cons d m' =>
      obtain ⟨hd, -, -⟩ := Memory.wf_cons.1 h'
      have := e d.1
      rw [Memory.read_cons, if_pos rfl, Memory.read_nil] at this
      exact absurd this.symm hd
  | cons c m ih =>
    obtain ⟨hc, hcm, hm⟩ := Memory.wf_cons.1 h
    cases m' with
    | nil =>
      have := e c.1
      rw [Memory.read_cons, if_pos rfl, Memory.read_nil] at this
      exact absurd this hc
    | cons d m' =>
      obtain ⟨hd, hdm, hm'⟩ := Memory.wf_cons.1 h'
      have key : c.1 = d.1 := by
        rcases Nat.lt_trichotomy c.1 d.1 with hlt | heq | hgt
        · have := e c.1
          rw [Memory.read_cons, if_pos rfl, Memory.read_of_lt (d :: m') c.1] at this
          · exact absurd this hc
          · intro x hx
            rcases List.mem_cons.1 hx with rfl | hx
            · exact hlt
            · have := hdm x hx; omega
        · exact heq
        · have := e d.1
          rw [Memory.read_cons d, if_pos rfl, Memory.read_of_lt (c :: m) d.1] at this
          · exact absurd this.symm hd
          · intro x hx
            rcases List.mem_cons.1 hx with rfl | hx
            · exact hgt
            · have := hcm x hx; omega
      have val : c.2 = d.2 := by
        have := e c.1
        rwa [Memory.read_cons, if_pos rfl, Memory.read_cons, if_pos key.symm] at this
      have tail : m = m' := by
        refine ih m' hm hm' fun a => ?_
        by_cases ha : c.1 = a
        · subst ha
          rw [Memory.read_of_lt m _ hcm, Memory.read_of_lt m' _ (by rw [key]; exact hdm)]
        · have := e a
          rwa [Memory.read_cons, if_neg ha, Memory.read_cons, if_neg (by rw [← key]; exact ha)] at this
      rw [tail]
      exact congrArg (· :: m') (Prod.ext key val)

end Sys2Proof.Machine
end

