-- ==== Sys2Proof/Laws/Serve.lean ====
section
/-! SUPPORT. The entry checks by case (R101, R106, R170), the operand fields as numbers (R74, R78), and the RAM offset (R105). -/

namespace Sys2Proof.Machine

/-! ## Entry checks -/

theorem State.respond_eq (s : State) (r : Response) : s.respond r = { s with response := some r } := rfl

theorem cpuServe_fatal {s : State} (hf : s.fatal = true) (r : Response) (e : Cart → State) :
    cpuServe s r e = .fault .stuckInFatal := by simp [cpuServe, hf]

theorem cpuServe_unloaded {s : State} (hf : s.fatal = false) (hc : s.cart = none) (r : Response) (e : Cart → State) :
    cpuServe s r e = .next (s.respond r) := by simp [cpuServe, hf, hc]

theorem cpuServe_loaded {s : State} {c : Cart} (hf : s.fatal = false) (hc : s.cart = some c) (r : Response) (e : Cart → State) :
    cpuServe s r e = .next (e c) := by simp [cpuServe, hf, hc]

/-- What a CPU request that is not a PASS row can answer. -/
theorem cpuServe_next {s t : State} {r : Response} {e : Cart → State} (h : cpuServe s r e = .next t) :
    s.fatal = false ∧ ((s.cart = none ∧ t = s.respond r) ∨ ∃ c, s.cart = some c ∧ t = e c) := by
  by_cases hf : s.fatal = true
  · simp [cpuServe_fatal hf] at h
  · have hf := eq_false_of_ne_true hf
    cases hc : s.cart with
    | none =>
      rw [cpuServe_unloaded hf hc] at h
      exact ⟨hf, .inl ⟨rfl, (Host.Outcome.next.inj h).symm⟩⟩
    | some c =>
      rw [cpuServe_loaded hf hc] at h
      exact ⟨hf, .inr ⟨c, rfl, (Host.Outcome.next.inj h).symm⟩⟩

theorem passOn_fatal {s : State} (hf : s.fatal = true) : passOn s = .fault .stuckInFatal := by simp [passOn, hf]

theorem passOn_ok {s : State} (hf : s.fatal = false) : passOn s = .next (s.respond .notMine) := by simp [passOn, hf]

theorem hostServe_fatal {s : State} (hf : s.fatal = true) (e : State) : hostServe s e = .next s.refuse := by simp [hostServe, hf]

theorem hostServe_ok {s : State} (hf : s.fatal = false) (e : State) : hostServe s e = .next e := by simp [hostServe, hf]

theorem hostServeLoaded_fatal {s : State} (hf : s.fatal = true) (e : Cart → State) : hostServeLoaded s e = .next s.refuse :=
  hostServe_fatal hf _

theorem hostServeLoaded_unloaded {s : State} (hc : s.cart = none) (e : Cart → State) : hostServeLoaded s e = .next s.refuse := by
  cases hf : s.fatal <;> simp [hostServeLoaded, hostServe, hf, hc]

theorem hostServeLoaded_loaded {s : State} {c : Cart} (hf : s.fatal = false) (hc : s.cart = some c) (e : Cart → State) :
    hostServeLoaded s e = .next (e c) := by simp [hostServeLoaded, hostServe, hf, hc]

/-! ## Operand fields as numbers (R74) -/

theorem ramEnableValue_eq (d : Byte) : ramEnableValue d = decide (d.toNat % 16 = 0xA) := by
  rw [ramEnableValue, Bool.eq_iff_iff]
  simp only [beq_iff_eq, decide_eq_true_eq]
  rw [← BitVec.toNat_inj, BitVec.extractLsb'_toNat]
  simp

theorem romLowField_eq (d : Byte) : romLowField d = d.toNat % 32 := by rw [romLowField, BitVec.extractLsb'_toNat]; simp

theorem highField_eq (d : Byte) : highField d = d.toNat % 4 := by rw [highField, BitVec.extractLsb'_toNat]; simp

theorem modeField_eq (d : Byte) : modeField d = decide (d.toNat % 2 = 1) := by rw [modeField, BitVec.getLsbD, Nat.testBit_zero]

theorem romSelField_eq (d : Byte) : romSelField d = d.toNat % 128 := by rw [romSelField, BitVec.extractLsb'_toNat]; simp

theorem ramSelField_eq (d : Byte) : ramSelField d = d.toNat % 8 := by rw [ramSelField, BitVec.extractLsb'_toNat]; simp

/-! ## The RAM offset (R105) -/

theorem ramOffset_some {c : Cart} {woff : BitVec 13} (h : c.mbc.ramEnabled = true ∧ 0 < c.cfg.ramBanks ∧
    c.mbc.currentRamBank.toNat * 8192 + woff.toNat < c.cfg.ramSizeBytes) :
    ramOffset c woff = some (c.mbc.currentRamBank.toNat * 8192 + woff.toNat) := by
  rw [ramOffset, if_neg (by simp [h.1]), if_neg (by omega), if_pos h.2.2]

theorem ramOffset_none {c : Cart} {woff : BitVec 13} (h : ¬ (c.mbc.ramEnabled = true ∧ 0 < c.cfg.ramBanks ∧
    c.mbc.currentRamBank.toNat * 8192 + woff.toNat < c.cfg.ramSizeBytes)) : ramOffset c woff = none := by
  rw [ramOffset]
  by_cases h1 : c.mbc.ramEnabled = false
  · rw [if_pos h1]
  · by_cases h2 : c.cfg.ramBanks = 0
    · rw [if_neg h1, if_pos h2]
    · rw [if_neg h1, if_neg h2, if_neg]
      exact fun h3 => h ⟨by simpa using h1, by omega, h3⟩

/-- The offset of an access that has an effect lies in the cartridge RAM. -/
theorem ramOffset_lt {c : Cart} {woff : BitVec 13} {k : Nat} (h : ramOffset c woff = some k) :
    c.mbc.ramEnabled = true ∧ k < c.cfg.ramSizeBytes := by
  by_cases hc : c.mbc.ramEnabled = true ∧ 0 < c.cfg.ramBanks ∧ c.mbc.currentRamBank.toNat * 8192 + woff.toNat < c.cfg.ramSizeBytes
  · rw [ramOffset_some hc, Option.some.injEq] at h
    exact ⟨hc.1, by omega⟩
  · rw [ramOffset_none hc] at h
    simp at h

/-! ## LOAD by the outcome of its bank-0 fetch (R172) -/

theorem loadCartridge_failed {s : State} (h : s.draws.bank0FetchOk = false) (v : Variant) (cfg : LoadCfg) (eager : Bool) :
    loadCartridge v cfg eager s = (((loadEntry s).emit (.fetch 0 16384 false)).enterFatal).respond (.host .failed .empty) := by
  rw [loadCartridge]
  simp only [storageRead, h]
  rfl

theorem loadCartridge_fetched {s : State} (h : s.draws.bank0FetchOk = true) (v : Variant) (cfg : LoadCfg) (eager : Bool) :
    loadCartridge v cfg eager s =
      (select (freshCart v cfg (s.payload.romImage.slice 0 16384) s.payload)
        (((loadEntry s).emit (.fetch 0 16384 true)).withSlots (initPool eager (loadEntry s).slots))).respond (.host .ok .empty) := by
  rw [loadCartridge]
  simp only [storageRead, h]
  rfl

/-- What LOAD's entry leaves as it was (R172). -/
theorem loadEntry_frame (s : State) :
    (loadEntry s).cart = none ∧ (loadEntry s).fatal = s.fatal ∧ (loadEntry s).arrivals = s.arrivals ∧
      (loadEntry s).payload = s.payload ∧ (loadEntry s).draws = s.draws ∧ (loadEntry s).events = s.events ∧
      (loadEntry s).slots.length = s.slots.length := by
  rw [loadEntry]
  cases hc : s.cart with
  | none => simp [State.loaded, hc]
  | some c => simp [State.loaded, hc, unloadEffects]

end Sys2Proof.Machine
end

