-- ==== Sys2Proof/Laws/Exec.lean ====
section
/-! SUPPORT. Once for all what a request can do: every next state of `exec` is one of the forms listed here, so that a property of every
step is proved form by form and not request by request. -/

namespace Sys2Proof.Machine

/-- What a CPU request can leave, on the state `s` (40_router.md, 41_mbc.md). -/
inductive CpuEffect (s : State) : State → Prop
  /-- An answer and no change. -/
  | answer (r : Response) : CpuEffect s (s.respond r)
  /-- A latch other than `currentRomBank` and `mapperVariant` written, with no SELECT. -/
  | latch (c : Cart) (m : Mbc) (hc : s.cart = some c) (hb : m.currentRomBank = c.mbc.currentRomBank)
      (hv : m.mapperVariant = c.mbc.mapperVariant) : CpuEffect s ((s.withCart (c.withMbc m)).respond .done)
  /-- A RAM byte written. -/
  | store (c : Cart) (k : Nat) (d : Byte) (hc : s.cart = some c) (he : c.mbc.ramEnabled = true) (hk : k < c.cfg.ramSizeBytes) :
      CpuEffect s ((s.withCart { c with ram := c.ram.write k d }).respond .done)
  /-- A ROM bank written and selected. -/
  | select (c : Cart) (b : Nat) (hc : s.cart = some c) : CpuEffect s ((selectBank c (maskRomBank c.cfg b) s).respond .done)
  /-- The sentinel with nothing mapped. -/
  | unmapped (c : Cart) (hc : s.cart = some c) (hm : c.mappedBank = none) : CpuEffect s (sentinelRom s)
  /-- A refetch of the mapped bank that served the read. -/
  | refetched (c : Cart) (b : Nat) (r : Response) (hc : s.cart = some c) (hm : c.mappedBank = some b) :
      CpuEffect s ((cacheGet c b s).2.respond r)
  /-- A refetch of the mapped bank that did not. -/
  | degraded (c : Cart) (b : Nat) (hc : s.cart = some c) (hm : c.mappedBank = some b) : CpuEffect s (sentinelRom (cacheGet c b s).2)

theorem passOn_effect {s t : State} (h : passOn s = .next t) : s.fatal = false ∧ CpuEffect s t := by
  by_cases hf : s.fatal = true
  · simp [passOn_fatal hf] at h
  · have hf := eq_false_of_ne_true hf
    rw [passOn_ok hf] at h
    cases h
    exact ⟨hf, .answer _⟩

theorem mbcWrite_effect {s t : State} {e : Cart → State} (h : mbcWrite s e = .next t)
    (he : ∀ c, s.cart = some c → CpuEffect s ((e c).respond .done)) : s.fatal = false ∧ CpuEffect s t := by
  obtain ⟨hf, ⟨-, rfl⟩ | ⟨c, hc, rfl⟩⟩ := cpuServe_next h
  · exact ⟨hf, .answer _⟩
  · exact ⟨hf, he c hc⟩

/-- Every next state of a CPU request. -/
theorem exec_cpu_effect {s t : State} {i : Instr} (hp : i.port = .cpu) (h : exec i s = .next t) : s.fatal = false ∧ CpuEffect s t := by
  cases i with
  | wrARamen a d => exact mbcWrite_effect h fun c hc => .latch c _ hc rfl rfl
  | wrARomlo a d => exact mbcWrite_effect h fun c hc => .select c _ hc
  | wrAHigh a d =>
    refine mbcWrite_effect h fun c hc => ?_
    split
    · exact .latch c _ hc rfl rfl
    · exact .select c _ hc
  | wrAMode a d => exact mbcWrite_effect h fun c hc => .latch c _ hc rfl rfl
  | wrBRamen a d => exact mbcWrite_effect h fun c hc => .latch c _ hc rfl rfl
  | wrBRomsel a d => exact mbcWrite_effect h fun c hc => .select c _ hc
  | wrBRamsel a d => exact mbcWrite_effect h fun c hc => .latch c _ hc rfl rfl
  | wrBLatch a d => exact mbcWrite_effect h fun c hc => .answer _
  | rdRomx v off d =>
    obtain ⟨hf, ⟨-, rfl⟩ | ⟨c, hc, rfl⟩⟩ := cpuServe_next h
    · exact ⟨hf, .answer _⟩
    · refine ⟨hf, ?_⟩
      rw [readRomWindow]
      cases hm : c.mappedBank with
      | none => exact .unmapped c hc hm
      | some b =>
        rcases resolve_cases c b s with ⟨-, e⟩ | ⟨-, i, data, -, e⟩ | ⟨-, -, e⟩
        · simp only [e]; exact .answer _
        · simp only [e]; exact .answer _
        · have key (r : GetResult) : CpuEffect s (answerRomx c off.toNat (r, (cacheGet c b s).2)) := by
            cases r with
            | bank0 => exact .refetched c b _ hc hm
            | slot i data => exact .refetched c b _ hc hm
            | null => exact .degraded c b hc hm
          simp only [e]
          exact key (cacheGet c b s).1
  | rdRam v woff d =>
    obtain ⟨hf, ⟨-, rfl⟩ | ⟨c, hc, rfl⟩⟩ := cpuServe_next h
    · exact ⟨hf, .answer _⟩
    · refine ⟨hf, ?_⟩
      rw [readRamWindow]
      split <;> exact .answer _
  | wrRam v woff d =>
    obtain ⟨hf, ⟨-, rfl⟩ | ⟨c, hc, rfl⟩⟩ := cpuServe_next h
    · exact ⟨hf, .answer _⟩
    · refine ⟨hf, ?_⟩
      rw [writeRamWindow]
      split
      · exact .answer _
      · rename_i k hk
        exact .store c k d hc (ramOffset_lt hk).1 (ramOffset_lt hk).2
  | passRom0Rd v a d => exact passOn_effect h
  | pass8000 v we a d => exact passOn_effect h
  | passC000 v we a d => exact passOn_effect h
  | load _ _ _ _ => simp [Instr.port] at hp
  | unload => simp [Instr.port] at hp
  | getRomBank _ => simp [Instr.port] at hp
  | pressureEvict => simp [Instr.port] at hp
  | sramExport => simp [Instr.port] at hp
  | sramImport => simp [Instr.port] at hp
  | readStatus => simp [Instr.port] at hp
  | readMbc => simp [Instr.port] at hp
  | readSlot _ => simp [Instr.port] at hp
  | hostReserved _ => simp [Instr.port] at hp

/-- What the host command `i` can leave, on the state `s` (43_host.md). -/
inductive HostEffect (i : Instr) (s : State) : State → Prop
  /-- An answer and no change. -/
  | answer (r : Response) : HostEffect i s (s.respond r)
  /-- An operand out of range: the error recorded, and an answer. -/
  | invalid (r : Response) (hf : s.fatal = false) : HostEffect i s ((s.raise .corruptOrOversizedInput).respond r)
  /-- A valid LOAD. -/
  | load (v : Variant) (shift code : BitVec 4) (eager : Bool) (hi : i = .load v shift code eager) (hf : s.fatal = false)
      (hv : loadValid code (loadCfgOf shift code s.payload.op1) = true) :
      HostEffect i s (loadCartridge v (loadCfgOf shift code s.payload.op1) eager s)
  /-- UNLOAD of a loaded block. -/
  | unload (c : Cart) (hf : s.fatal = false) (hc : s.cart = some c) : HostEffect i s ((unloadEffects s).respond (.host .ok .empty))
  /-- A get of a bank of the cartridge. -/
  | get (c : Cart) (b : Nat) (r : Response) (hf : s.fatal = false) (hc : s.cart = some c) (hb : b < c.cfg.totalBanks) :
      HostEffect i s ((cacheGet c b s).2.respond r)
  /-- An eviction. -/
  | evict (c : Cart) (hf : s.fatal = false) (hc : s.cart = some c) : HostEffect i s ((evictNonessential s).respond (.host .ok .empty))
  /-- RAM bytes imported. -/
  | store (c : Cart) (src : List Byte) (hf : s.fatal = false) (hc : s.cart = some c) (hl : src.length ≤ c.cfg.ramSizeBytes) :
      HostEffect i s ((s.withCart { c with ram := Memory.writeBytes 0 src c.ram }).respond (.host .ok .empty))

theorem hostServe_effect {i : Instr} {s t e : State} (h : hostServe s e = .next t) (he : s.fatal = false → HostEffect i s e) :
    HostEffect i s t := by
  by_cases hf : s.fatal = true
  · rw [hostServe_fatal hf] at h; cases h; exact .answer _
  · have hf := eq_false_of_ne_true hf
    rw [hostServe_ok hf] at h; cases h; exact he hf

theorem hostServeLoaded_effect {i : Instr} {s t : State} {e : Cart → State} (h : hostServeLoaded s e = .next t)
    (he : ∀ c, s.fatal = false → s.cart = some c → HostEffect i s (e c)) : HostEffect i s t := by
  refine hostServe_effect h fun hf => ?_
  cases hc : s.cart with
  | none => exact .answer _
  | some c => exact he c hf hc

/-- Every next state of a host command. -/
theorem exec_host_effect {s t : State} {i : Instr} (hp : i.port = .host) (h : exec i s = .next t) : HostEffect i s t := by
  cases i with
  | load v shift code eager =>
    refine hostServe_effect h fun hf => ?_
    split
    · rename_i hv; exact .load v shift code eager rfl hf hv
    · exact .invalid _ hf
  | unload =>
    refine hostServe_effect h fun hf => ?_
    cases hc : s.cart with
    | none =>
      rw [show s.loaded = false by simp [State.loaded, hc]]
      exact .answer _
    | some c =>
      rw [show s.loaded = true by simp [State.loaded, hc]]
      exact .unload c hf hc
  | getRomBank bank =>
    refine hostServeLoaded_effect h fun c hf hc => ?_
    split
    · exact .invalid _ hf
    · rename_i hb
      have key (r : GetResult) : HostEffect (.getRomBank bank) s (answerGet c (r, (cacheGet c bank.toNat s).2)) := by
        cases r <;> exact .get c bank.toNat _ hf hc (Nat.lt_of_not_le hb)
      exact key (cacheGet c bank.toNat s).1
  | pressureEvict => exact hostServeLoaded_effect h fun c hf hc => .evict c hf hc
  | sramExport => exact hostServeLoaded_effect h fun c hf hc => .answer _
  | sramImport =>
    exact hostServeLoaded_effect h fun c hf hc => .store c _ hf hc (by simp)
  | readStatus => cases h; exact .answer _
  | readMbc => cases h; exact .answer _
  | readSlot slot =>
    rw [exec, execReadSlot] at h
    split at h <;> cases h <;> exact .answer _
  | hostReserved w => cases h; exact .answer _
  | wrARamen _ _ => simp [Instr.port] at hp
  | wrARomlo _ _ => simp [Instr.port] at hp
  | wrAHigh _ _ => simp [Instr.port] at hp
  | wrAMode _ _ => simp [Instr.port] at hp
  | wrBRamen _ _ => simp [Instr.port] at hp
  | wrBRomsel _ _ => simp [Instr.port] at hp
  | wrBRamsel _ _ => simp [Instr.port] at hp
  | wrBLatch _ _ => simp [Instr.port] at hp
  | rdRomx _ _ _ => simp [Instr.port] at hp
  | rdRam _ _ _ => simp [Instr.port] at hp
  | wrRam _ _ _ => simp [Instr.port] at hp
  | passRom0Rd _ _ _ => simp [Instr.port] at hp
  | pass8000 _ _ _ _ => simp [Instr.port] at hp
  | passC000 _ _ _ _ => simp [Instr.port] at hp

/-! ## The requests of the two ports -/

theorem decodeKey_port (k : CpuKey) : (decodeKey k).port = .cpu := by
  rw [decodeKey]
  split <;> (try rfl)
  unfold decodeRegisterWrite
  split <;> rfl

theorem decodeHost_port (h : HostWord) : (decodeHost h).port = .host := by
  rw [decodeHost]
  split
  · rfl
  · split <;> rfl

/-- Every next state of a step. -/
theorem step_cases {s t : State} (h : step s = .next t) :
    (s.arrivals = [] ∧ t = s) ∨
    (∃ rest, s.arrivals = .reset :: rest ∧ t = ({ s with arrivals := rest }).afterReset) ∨
    (∃ we a d dr rest, s.arrivals = .cpu we a d true dr :: rest ∧ t = { s with arrivals := rest }) ∨
    (∃ we a d dr rest, s.arrivals = .cpu we a d false dr :: rest ∧ s.fatal = false ∧
      exec (decodeKey (s.key we a d)) (s.latchCpu rest dr) = .next t ∧ CpuEffect (s.latchCpu rest dr) t) ∨
    (∃ w p dr rest, s.arrivals = .host w p dr :: rest ∧ exec (decodeHost w) (s.latchHost rest p dr) = .next t ∧
      HostEffect (decodeHost w) (s.latchHost rest p dr) t) := by
  rw [step] at h
  split at h
  · rename_i e; cases h; exact .inl ⟨e, rfl⟩
  · rename_i rest e; cases h; exact .inr (.inl ⟨rest, e, rfl⟩)
  · rename_i we a d cl dr rest e
    cases cl with
    | true => cases h; exact .inr (.inr (.inl ⟨we, a, d, dr, rest, e, rfl⟩))
    | false =>
      have := exec_cpu_effect (decodeKey_port _) h
      exact .inr (.inr (.inr (.inl ⟨we, a, d, dr, rest, e, this.1, h, this.2⟩)))
  · rename_i w p dr rest e
    exact .inr (.inr (.inr (.inr ⟨w, p, dr, rest, e, h, exec_host_effect (decodeHost_port _) h⟩)))

end Sys2Proof.Machine
end

