-- ==== Sys2Proof/Laws/Pool.lean ====
section
/-! SUPPORT. Each step of the cache controller keeps the pool's part of R42 (`PoolSound`, `Slot.Faithful`) and the canonical form of
the slots' bytes. -/

namespace Sys2Proof.Machine

/-! ## One slot's step -/

theorem SlotStep.bank {x y : Slot} (h : SlotStep x y) {b : Nat} (hb : y.bank = some b) : x.bank = some b := by
  cases h with
  | same => exact hb
  | allocated => exact hb
  | freed => simp at hb
  | freedAllocated => exact absurd hb (by simp [Slot.bank])

theorem SlotStep.occupant {x y : Slot} (h : SlotStep x y) {o : Occupant} (ho : y.occupant = some o) : x.occupant = some o := by
  cases h with
  | same => exact ho
  | allocated => exact ho
  | freed => simp at ho
  | freedAllocated => exact absurd ho (by simp)

theorem SlotStep.recency {x y : Slot} (h : SlotStep x y) : y.recency = x.recency ∨ y.recency = 0 := by
  cases h with
  | same => exact .inl rfl
  | allocated => exact .inl rfl
  | freed => exact .inr rfl
  | freedAllocated => exact .inr rfl

theorem SlotStep.allocated_of {x y : Slot} (h : SlotStep x y) (hx : x.bank ≠ none → x.allocated = true) (hy : y.bank ≠ none) :
    y.allocated = true := by
  cases h with
  | same => exact hx hy
  | allocated => rfl
  | freed => simp at hy
  | freedAllocated => rfl

/-! ## `PoolSound` -/

/-- Allocation and eviction keep the pool's invariants. -/
theorem PoolSound.step {p q : List Slot} (hp : PoolSound p) (h : PoolStep p q) : PoolSound q where
  nonempty := h.1 ▸ hp.nonempty
  oneHome i j x y b hx hy hxb hyb := by
    obtain ⟨x', hx', sx⟩ := h.2 i x hx
    obtain ⟨y', hy', sy⟩ := h.2 j y hy
    exact hp.oneHome i j x' y' b hx' hy' (sx.bank hxb) (sy.bank hyb)
  notBank0 x hx hb := by
    obtain ⟨i, hi⟩ := List.getElem?_of_mem hx
    obtain ⟨x', hx', sx⟩ := h.2 i x hi
    exact hp.notBank0 x' (List.mem_of_getElem? hx') (sx.bank hb)
  allocated x hx hb := by
    obtain ⟨i, hi⟩ := List.getElem?_of_mem hx
    obtain ⟨x', hx', sx⟩ := h.2 i x hi
    exact sx.allocated_of (hp.allocated x' (List.mem_of_getElem? hx')) hb
  oneHot i j x y hx hy hxr hyr := by
    obtain ⟨x', hx', sx⟩ := h.2 i x hx
    obtain ⟨y', hy', sy⟩ := h.2 j y hy
    refine hp.oneHot i j x' y' hx' hy' ?_ ?_
    · rcases sx.recency with e | e
      · rw [← e, hxr]
      · rw [hxr] at e; exact absurd e (by decide)
    · rcases sy.recency with e | e
      · rw [← e, hyr]
      · rw [hyr] at e; exact absurd e (by decide)

/-- A touch keeps the pool's invariants (INV7: "TOUCH sets one slot to 255 and decrements the others"). -/
theorem PoolSound.touch {p : List Slot} (hp : PoolSound p) (v : Nat) : PoolSound (touch v p) where
  nonempty := by simpa using hp.nonempty
  oneHome i j x y b hx hy hxb hyb := by
    rw [getElem?_touch, Option.map_eq_some_iff] at hx hy
    obtain ⟨x', hx', rfl⟩ := hx
    obtain ⟨y', hy', rfl⟩ := hy
    exact hp.oneHome i j x' y' b hx' hy' (by simpa using hxb) (by simpa using hyb)
  notBank0 x hx hb := by
    obtain ⟨i, hi⟩ := List.getElem?_of_mem hx
    rw [getElem?_touch, Option.map_eq_some_iff] at hi
    obtain ⟨x', hx', rfl⟩ := hi
    exact hp.notBank0 x' (List.mem_of_getElem? hx') (by simpa using hb)
  allocated x hx hb := by
    obtain ⟨i, hi⟩ := List.getElem?_of_mem hx
    rw [getElem?_touch, Option.map_eq_some_iff] at hi
    obtain ⟨x', hx', rfl⟩ := hi
    exact hp.allocated x' (List.mem_of_getElem? hx') (by simpa using hb)
  oneHot i j x y hx hy hxr hyr := by
    have key (k : Nat) (z : Slot) (hz : (Machine.touch v p)[k]? = some z) (hr : z.recency = 255) : k = v := by
      rw [getElem?_touch, Option.map_eq_some_iff] at hz
      obtain ⟨z', -, rfl⟩ := hz
      by_contra hne
      rw [decide_eq_false hne] at hr
      exact satDec_ne_max _ hr
    rw [key i x hx hxr, key j y hy hyr]

/-- A fill of a bank above 0 that no slot holds, into a slot that owns a buffer, and the touch after it. -/
theorem PoolSound.fillTouch {p : List Slot} (hp : PoolSound p) (v b : Nat) (data : Memory) (hb : b ≠ 0)
    (hn : ∀ x ∈ p, x.bank ≠ some b) (hv : ∀ x, p[v]? = some x → x.allocated = true) :
    PoolSound (Machine.touch v (fill v b data p)) := by
  -- without the recencies, a fill alone keeps everything but INV7, which the touch restores
  refine ⟨by simpa using hp.nonempty, ?_, ?_, ?_, ?_⟩
  · intro i j x y bb hx hy hxb hyb
    rw [getElem?_touch, getElem?_fill, Option.map_map, Option.map_eq_some_iff] at hx hy
    obtain ⟨x', hx', rfl⟩ := hx
    obtain ⟨y', hy', rfl⟩ := hy
    simp only [Function.comp, Slot.touched_bank] at hxb hyb
    split_ifs at hxb hyb with h1 h2 h2
    · exact h1.symm.trans h2
    · simp only [Slot.bank, Option.map_some, Option.some.injEq] at hxb
      subst hxb
      exact absurd hyb (hn y' (List.mem_of_getElem? hy'))
    · simp only [Slot.bank, Option.map_some, Option.some.injEq] at hyb
      subst hyb
      exact absurd hxb (hn x' (List.mem_of_getElem? hx'))
    · exact hp.oneHome i j x' y' bb hx' hy' hxb hyb
  · intro x hx hx0
    obtain ⟨i, hi⟩ := List.getElem?_of_mem hx
    rw [getElem?_touch, getElem?_fill, Option.map_map, Option.map_eq_some_iff] at hi
    obtain ⟨x', hx', rfl⟩ := hi
    simp only [Function.comp, Slot.touched_bank] at hx0
    split_ifs at hx0 with h1
    · simp only [Slot.bank, Option.map_some, Option.some.injEq] at hx0
      exact hb hx0
    · exact hp.notBank0 x' (List.mem_of_getElem? hx') hx0
  · intro x hx hxb
    obtain ⟨i, hi⟩ := List.getElem?_of_mem hx
    rw [getElem?_touch, getElem?_fill, Option.map_map, Option.map_eq_some_iff] at hi
    obtain ⟨x', hx', rfl⟩ := hi
    simp only [Function.comp, Slot.touched_bank, Slot.touched_allocated] at hxb ⊢
    split_ifs at hxb ⊢ with h1
    · subst h1; exact hv x' hx'
    · exact hp.allocated x' (List.mem_of_getElem? hx') hxb
  · intro i j x y hx hy hxr hyr
    have key (k : Nat) (z : Slot) (hz : (Machine.touch v (fill v b data p))[k]? = some z) (hr : z.recency = 255) : k = v := by
      rw [getElem?_touch, Option.map_eq_some_iff] at hz
      obtain ⟨z', -, rfl⟩ := hz
      by_contra hne
      rw [decide_eq_false hne] at hr
      exact satDec_ne_max _ hr
    rw [key i x hx hxr, key j y hy hyr]

/-- A pool of unoccupied slots of recency 0 is sound. -/
theorem PoolSound.ofEmpty {p : List Slot} (h1 : 1 ≤ p.length) (h : ∀ x ∈ p, x.occupant = none ∧ x.recency = 0) : PoolSound p where
  nonempty := h1
  oneHome i j x y b hx hy hxb hyb := by
    simp [Slot.bank, (h x (List.mem_of_getElem? hx)).1] at hxb
  notBank0 x hx hb := by simp [Slot.bank, (h x hx).1] at hb
  allocated x hx hb := by simp [Slot.bank, (h x hx).1] at hb
  oneHot i j x y hx hy hxr hyr := by
    rw [(h x (List.mem_of_getElem? hx)).2] at hxr
    exact absurd hxr (by decide)

/-! ## What the slots hold -/

/-- A property of every occupant of a pool, kept by allocation and eviction. -/
theorem PoolStep.occupants {p q : List Slot} (h : PoolStep p q) {P : Occupant → Prop}
    (hp : ∀ x ∈ p, ∀ o, x.occupant = some o → P o) : ∀ x ∈ q, ∀ o, x.occupant = some o → P o := by
  intro x hx o ho
  obtain ⟨i, hi⟩ := List.getElem?_of_mem hx
  obtain ⟨x', hx', sx⟩ := h.2 i x hi
  exact hp x' (List.mem_of_getElem? hx') o (sx.occupant ho)

theorem touch_occupants {p : List Slot} (v : Nat) {P : Occupant → Prop}
    (hp : ∀ x ∈ p, ∀ o, x.occupant = some o → P o) : ∀ x ∈ touch v p, ∀ o, x.occupant = some o → P o := by
  intro x hx o ho
  obtain ⟨i, hi⟩ := List.getElem?_of_mem hx
  rw [getElem?_touch, Option.map_eq_some_iff] at hi
  obtain ⟨x', hx', rfl⟩ := hi
  exact hp x' (List.mem_of_getElem? hx') o (by simpa using ho)

theorem fill_occupants {p : List Slot} (v b : Nat) (data : Memory) {P : Occupant → Prop}
    (hp : ∀ x ∈ p, ∀ o, x.occupant = some o → P o) (hnew : P { bank := b, data := data }) :
    ∀ x ∈ fill v b data p, ∀ o, x.occupant = some o → P o := by
  intro x hx o ho
  obtain ⟨i, hi⟩ := List.getElem?_of_mem hx
  rw [getElem?_fill, Option.map_eq_some_iff] at hi
  obtain ⟨x', hx', rfl⟩ := hi
  split_ifs at ho with h1
  · simp only [Option.some.injEq] at ho
    exact ho ▸ hnew
  · exact hp x' (List.mem_of_getElem? hx') o ho

/-! ## CACHE_GET -/

/-- No slot of a sound pool holds a bank that LOOKUP does not find. -/
theorem PoolSound.not_resident {p : List Slot} (hp : PoolSound p) {b : Nat} (h : lookup b p = none) : ∀ x ∈ p, x.bank ≠ some b :=
  fun x hx => (Slot.holding_eq_none (hp.allocated x hx)).1 (lookup_eq_none.1 h x hx)

/-- CACHE_GET keeps the pool's size. -/
theorem cacheGet_poolSize (c : Cart) (b : Nat) (s : State) : (cacheGet c b s).2.slots.length = s.slots.length := by
  by_cases hb : b = 0
  · subst hb; rfl
  · cases hl : lookup b s.slots with
    | some r =>
      rw [cacheGet_hit c b s hb (i := r.1) (data := r.2) hl]
      simp
    | none =>
      rw [cacheGet_miss c b s hb hl]
      rcases miss_cases c b s with ⟨q, -, hq, h⟩ | ⟨q, -, hq, -, h⟩ | ⟨q, -, hq, -, h⟩ <;> rw [h] <;> simp [hq.1]

/-- CACHE_GET keeps the pool's invariants. -/
theorem cacheGet_poolSound (c : Cart) (b : Nat) (s : State) (hp : PoolSound s.slots) : PoolSound (cacheGet c b s).2.slots := by
  by_cases hb : b = 0
  · subst hb; exact hp
  · cases hl : lookup b s.slots with
    | some r =>
      rw [cacheGet_hit c b s hb (i := r.1) (data := r.2) hl]
      exact hp.touch _
    | none =>
      rw [cacheGet_miss c b s hb hl]
      rcases miss_cases c b s with ⟨q, -, hq, h⟩ | ⟨q, -, hq, -, h⟩ | ⟨q, he, hq, -, h⟩ <;> rw [h]
      · exact hp.step hq
      · exact hp.step hq
      · refine (hp.step hq).fillTouch _ _ _ hb (fun x hx hxb => ?_) fun x hx => ?_
        · obtain ⟨i, hi⟩ := List.getElem?_of_mem hx
          obtain ⟨x', hx', sx⟩ := hq.2 i x hi
          exact hp.not_resident hl x' (List.mem_of_getElem? hx') (sx.bank hxb)
        · have hne : s.slots ≠ [] := fun e => by simpa [e] using hp.nonempty
          obtain ⟨y, hy, hya⟩ := ensureBuffer_allocated _ s q he (victim_lt _ hne)
          rw [hy, Option.some.injEq] at hx
          exact hx ▸ hya

/-- A property of every occupant that a fetched bank has is kept by CACHE_GET. -/
theorem cacheGet_occupants (c : Cart) (b : Nat) (s : State) {P : Occupant → Prop}
    (hp : ∀ x ∈ s.slots, ∀ o, x.occupant = some o → P o)
    (hnew : b ≠ 0 → P { bank := b, data := c.romImage.slice (b * 16384) 16384 }) :
    ∀ x ∈ (cacheGet c b s).2.slots, ∀ o, x.occupant = some o → P o := by
  by_cases hb : b = 0
  · subst hb; exact hp
  · cases hl : lookup b s.slots with
    | some r =>
      rw [cacheGet_hit c b s hb (i := r.1) (data := r.2) hl]
      exact touch_occupants _ hp
    | none =>
      rw [cacheGet_miss c b s hb hl]
      rcases miss_cases c b s with ⟨q, -, hq, h⟩ | ⟨q, -, hq, -, h⟩ | ⟨q, -, hq, -, h⟩ <;> rw [h]
      · exact hq.occupants hp
      · exact hq.occupants hp
      · exact touch_occupants _ (fill_occupants _ _ _ (hq.occupants hp) (hnew hb))

/-- The bytes of a fetched bank are the image's (R148). -/
theorem read_fetched (image : Memory) (b k : Nat) (hk : k < 16384) :
    (image.slice (b * 16384) 16384).read k = image.read (b * 16384 + k) := by
  rw [Memory.read_slice, if_pos hk]

/-- CACHE_GET of a bank of the cartridge keeps every slot faithful (INV6). -/
theorem cacheGet_faithful (c : Cart) (b : Nat) (s : State) (hf : ∀ x ∈ s.slots, x.Faithful c) (hb : b < c.cfg.totalBanks) :
    ∀ x ∈ (cacheGet c b s).2.slots, x.Faithful c :=
  fun x hx o ho => cacheGet_occupants c b s
    (P := fun o => o.bank < c.cfg.totalBanks ∧ ∀ k, k < 16384 → o.data.read k = c.romImage.read (o.bank * 16384 + k))
    (fun x hx o ho => hf x hx o ho) (fun _ => ⟨hb, fun k hk => read_fetched c.romImage b k hk⟩) x hx o ho

/-- The bytes CACHE_GET hands out with a slot are its bank's (R148, INV6). -/
theorem cacheGet_data (c : Cart) (b : Nat) (s : State) (hf : ∀ x ∈ s.slots, x.Faithful c) {i : Nat} {data : Memory}
    (h : (cacheGet c b s).1 = .slot i data) : ∀ k, k < 16384 → data.read k = c.romImage.read (b * 16384 + k) := by
  intro k hk
  by_cases hb : b = 0
  · subst hb; cases h
  · cases hl : lookup b s.slots with
    | some r =>
      rw [cacheGet_hit c b s hb (i := r.1) (data := r.2) hl] at h
      cases h
      obtain ⟨⟨sl, hsl, hh⟩, -⟩ := lookup_eq_some.1 hl
      exact ((hf sl (List.mem_of_getElem? hsl)) _ (Slot.holding_eq_some.1 hh).2).2 k hk
    | none =>
      rw [cacheGet_miss c b s hb hl] at h
      rcases miss_cases c b s with ⟨q, -, hq, e⟩ | ⟨q, -, hq, -, e⟩ | ⟨q, -, hq, -, e⟩ <;> rw [e] at h <;> cases h
      exact read_fetched c.romImage b k hk

end Sys2Proof.Machine
end

