-- ==== Sys2Proof/Laws/Invariant.lean ====
section
/-! SUPPORT. What the shared operations keep of the invariant of R42 (`State.Sound`): changes outside it, a new cartridge, CACHE_GET,
SELECT, an emptied block, and the LOAD configuration. -/

namespace Sys2Proof.Machine

/-! ## Changes outside the invariant -/

/-- The invariant speaks of the cartridge, FATAL and the pool only. -/
theorem State.Sound.congr {s t : State} (h : s.Sound) (hc : t.cart = s.cart) (hf : t.fatal = s.fatal) (hs : t.slots = s.slots) :
    t.Sound where
  pool := hs ▸ h.pool
  cart c hc' := by rw [hs]; exact h.cart c (hc ▸ hc')
  unloaded hc' := by rw [hs]; exact h.unloaded (hc ▸ hc')
  fatal hf' := by rw [hc]; exact h.fatal (hf ▸ hf')

theorem Slot.Faithful.congr {c c' : Cart} {x : Slot} (h : x.Faithful c) (h1 : c'.cfg = c.cfg) (h2 : c'.romImage = c.romImage) :
    x.Faithful c' := by
  intro o ho
  rw [h1, h2]
  exact h o ho

/-- A sound loaded block is not fatal. -/
theorem State.Sound.not_fatal {s : State} (h : s.Sound) {c : Cart} (hc : s.cart = some c) : s.fatal = false := by
  by_contra hf
  have := h.fatal (eq_true_of_ne_false hf)
  rw [hc] at this
  simp at this

/-- Another cartridge of the same configuration and image. -/
theorem State.Sound.withCart {s : State} {c c' : Cart} (h : s.Sound) (hc : s.cart = some c) (hs : c'.Sound) (h1 : c'.cfg = c.cfg)
    (h2 : c'.romImage = c.romImage) : (s.withCart c').Sound where
  pool := h.pool
  cart d hd := by
    simp only [State.withCart_cart, Option.some.injEq] at hd
    subst hd
    exact ⟨hs, fun x hx => Slot.Faithful.congr ((h.cart c hc).2 x hx) h1 h2⟩
  unloaded hd := by simp at hd
  fatal hf := by
    have := h.not_fatal hc
    simp [this] at hf

/-- A block emptied of its cartridge. -/
theorem State.Sound.emptied {s t : State} (h : s.Sound) (hc : t.cart = none) (hs : t.slots = List.replicate s.slots.length Slot.free) :
    t.Sound where
  pool := by
    rw [hs]
    refine PoolSound.ofEmpty (by simpa using h.pool.nonempty) fun x hx => ?_
    rw [(List.mem_replicate.1 hx).2]
    exact ⟨rfl, rfl⟩
  cart c hc' := by
    rw [hc] at hc'
    simp at hc'
  unloaded _ x hx := by
    rw [hs] at hx
    exact (List.mem_replicate.1 hx).2
  fatal _ := hc

/-- A freshly loaded cartridge over a pool of unoccupied slots. -/
theorem State.Sound.fresh {t : State} {c : Cart} (hc : t.cart = some c) (hf : t.fatal = false) (hcs : c.Sound) (h1 : 1 ≤ t.slots.length)
    (hs : ∀ x ∈ t.slots, x.occupant = none ∧ x.recency = 0) : t.Sound where
  pool := PoolSound.ofEmpty h1 hs
  cart d hd := by
    rw [hc, Option.some.injEq] at hd
    subst hd
    exact ⟨hcs, fun x hx o ho => by rw [(hs x hx).1] at ho; simp at ho⟩
  unloaded hd := by
    rw [hc] at hd
    simp at hd
  fatal hf' := by
    rw [hf] at hf'
    simp at hf'

/-! ## CACHE_GET and SELECT -/

/-- CACHE_GET of a bank of the cartridge; the cartridge it runs on may differ from the state's in its latches. -/
theorem cacheGet_sound {s : State} {c0 c : Cart} {b : Nat} (h : s.Sound) (hc : s.cart = some c0) (h1 : c.cfg = c0.cfg)
    (h2 : c.romImage = c0.romImage) (hb : b < c.cfg.totalBanks) : (cacheGet c b s).2.Sound where
  pool := cacheGet_poolSound c b s h.pool
  cart d hd := by
    rw [cacheGet_cart, hc, Option.some.injEq] at hd
    subst hd
    refine ⟨(h.cart _ hc).1, fun x hx => ?_⟩
    exact Slot.Faithful.congr
      (cacheGet_faithful c b s (fun x hx => Slot.Faithful.congr ((h.cart _ hc).2 x hx) h1 h2) hb x hx) h1.symm h2.symm
  unloaded hd := by
    rw [cacheGet_cart, hc] at hd
    simp at hd
  fatal hf := by
    rw [cacheGet_fatal, h.not_fatal hc] at hf
    simp at hf

theorem Cart.Sound.withMapped {c : Cart} (h : c.Sound) {m : Option Nat} (hm : ∀ b, m = some b → b < c.cfg.totalBanks ∧ b < 128) :
    Cart.Sound { c with mappedBank := m } := { h with mapped := hm }

theorem select_sound {s : State} {c0 c : Cart} (h : s.Sound) (hc : s.cart = some c0) (h1 : c.cfg = c0.cfg)
    (h2 : c.romImage = c0.romImage) (hs : c.Sound) : (select c s).Sound := by
  rw [select_eq]
  refine State.Sound.withCart (c := c0) (cacheGet_sound h hc h1 h2 hs.romBank) (by simpa using hc) (hs.withMapped fun b hb => ?_) h1 h2
  split at hb
  · cases hb
    have := hs.romBank
    omega
  · cases hb
    exact ⟨hs.romBank, c.mbc.currentRomBank.isLt⟩
  · exact hs.mapped b hb

/-! ## Masks (R132) -/

theorem maskRomBank_lt {cfg : LoadCfg} (h : cfg.Valid) (b : Nat) : (maskRomBank cfg b).toNat < cfg.totalBanks := by
  obtain ⟨k, -, e⟩ := h.totalBanks
  have := Nat.two_pow_pos k
  rw [maskRomBank, BitVec.toNat_ofNat]
  exact Nat.lt_of_le_of_lt (Nat.mod_le _ _) (Nat.mod_lt _ (by omega))

theorem maskRamBank_lt (cfg : LoadCfg) (r : Nat) : (maskRamBank cfg r).toNat < max 1 cfg.ramBanks := by
  rw [maskRamBank, BitVec.toNat_ofNat]
  refine Nat.lt_of_le_of_lt (Nat.mod_le _ _) ?_
  split
  · omega
  · have := Nat.mod_lt r (show cfg.ramBanks > 0 by omega)
    omega

theorem maskRamBank_le (cfg : LoadCfg) (r : Nat) : (maskRamBank cfg r).toNat ≤ r := by
  rw [maskRamBank, BitVec.toNat_ofNat]
  refine Nat.le_trans (Nat.mod_le _ _) ?_
  split
  · omega
  · exact Nat.mod_le _ _

theorem Cart.Sound.withRomBank {c : Cart} (h : c.Sound) (b : Nat) :
    (c.withMbc { c.mbc with currentRomBank := maskRomBank c.cfg b }).Sound where
  cfg := h.cfg
  romBank := maskRomBank_lt h.cfg b
  ramBank := h.ramBank
  ramBankA := h.ramBankA
  modeB := h.modeB
  mapped := h.mapped
  bank0 := h.bank0

theorem selectBank_sound {s : State} {c : Cart} (h : s.Sound) (hc : s.cart = some c) (b : Nat) :
    (selectBank c (maskRomBank c.cfg b) s).Sound :=
  select_sound h hc rfl rfl ((h.cart c hc).1.withRomBank b)

/-! ## LOAD (R78, R171, R172) -/

theorem ramBanksOf_eq (code : BitVec 4) : ramBanksOf code = if code.toNat = 0 then 0 else 2 ^ (code.toNat - 1) := by
  rw [ramBanksOf]
  split <;> simp [Nat.shiftLeft_eq]

/-- LOAD validation in numbers (R171). -/
theorem loadValid_iff (shift code : BitVec 4) (op1 : BitVec 32) :
    loadValid code (loadCfgOf shift code op1) = true ↔
      (code.toNat ≤ 5 ∧ (code.toNat = 0 → op1.toNat = 0) ∧
        (1 ≤ code.toNat → 1 ≤ op1.toNat ∧ op1.toNat ≤ 2 ^ (code.toNat - 1) * 8192)) := by
  rw [loadValid, loadCfgOf, ramBanksOf_eq]
  have := Nat.two_pow_pos (code.toNat - 1)
  by_cases h0 : code.toNat = 0
  · simp [h0]
  · have h1 : 1 ≤ code.toNat := by omega
    simp [h0, h1, Config.ramBankSize]

theorem loadCfgOf_valid {shift code : BitVec 4} {op1 : BitVec 32} (h : loadValid code (loadCfgOf shift code op1) = true) :
    (loadCfgOf shift code op1).Valid := by
  obtain ⟨h1, h2, h3⟩ := (loadValid_iff shift code op1).1 h
  have hr : (loadCfgOf shift code op1).ramBanks = if code.toNat = 0 then 0 else 2 ^ (code.toNat - 1) := ramBanksOf_eq code
  refine ⟨⟨shift.toNat, by have := shift.isLt; omega, by simp [loadCfgOf, totalBanksOf, Nat.shiftLeft_eq]⟩, ?_, ?_, ?_⟩
  · rw [hr]
    split
    · exact .inl rfl
    · exact .inr ⟨_, by omega, rfl⟩
  · rw [hr]
    split
    · rename_i h0
      exact fun _ => h2 h0
    · have := Nat.two_pow_pos (code.toNat - 1)
      omega
  · rw [hr]
    split
    · omega
    · exact fun _ => h3 (by omega)

theorem freshCart_sound (v : Variant) {cfg : LoadCfg} (h : cfg.Valid) (p : Payload) :
    (freshCart v cfg (p.romImage.slice 0 16384) p).Sound where
  cfg := h
  romBank := maskRomBank_lt h 1
  ramBank := by show (0#3).toNat < max 1 _; simp
  ramBankA := fun _ => by show (0#3).toNat < 4; decide
  modeB := fun _ => rfl
  mapped := fun b hb => by cases hb
  bank0 := fun k hk => by
    show (p.romImage.slice 0 16384).read k = p.romImage.read k
    rw [Memory.read_slice, if_pos hk, Nat.zero_add]

/-- What a valid LOAD starts from (R172), on a sound block. -/
theorem loadEntry_eq {s : State} (hs : s.Sound) :
    loadEntry s = { s with cart := none, lastError := 0, romLogged := false, slots := List.replicate s.slots.length Slot.free } := by
  rw [loadEntry]
  cases hc : s.cart with
  | none =>
    have hl : s.loaded = false := by simp [State.loaded, hc]
    have hsl : s.slots = List.replicate s.slots.length Slot.free := List.eq_replicate_iff.2 ⟨rfl, hs.unloaded hc⟩
    simp only [hl, State.clearLoadFlags]
    simp
    exact ⟨hc, hsl⟩
  | some c =>
    have hl : s.loaded = true := by simp [State.loaded, hc]
    simp only [hl, if_true, unloadEffects, State.clearLoadFlags]
    rw [List.map_const']

/-- SELECT does not read the cartridge of its state. -/
theorem cacheGet_withCart (c : Cart) (b : Nat) (s : State) (d : Cart) :
    cacheGet c b (s.withCart d) = ((cacheGet c b s).1, (cacheGet c b s).2.withCart d) := by
  have hm : ∀ v, ensureBuffer v (s.withCart d) = ((ensureBuffer v s).1, (ensureBuffer v s).2.withCart d) := by
    intro v
    rcases ensureBuffer_cases v s with ⟨h1, e⟩ | ⟨h1, h2, e⟩ | ⟨h1, h2, h3, e⟩ | ⟨h1, h2, h3, e⟩ <;>
    rcases ensureBuffer_cases v (s.withCart d) with ⟨g1, e'⟩ | ⟨g1, g2, e'⟩ | ⟨g1, g2, g3, e'⟩ | ⟨g1, g2, g3, e'⟩ <;>
    simp only [State.withCart_slots, State.withCart_draws] at * <;> simp_all <;> rfl
  have hr (s1 : State) : storageRead c.romImage (bankOffset b) Config.romBankSize s1.draws.bankFetchOk (s1.withCart d) =
      ((storageRead c.romImage (bankOffset b) Config.romBankSize s1.draws.bankFetchOk s1).1,
        (storageRead c.romImage (bankOffset b) Config.romBankSize s1.draws.bankFetchOk s1).2.withCart d) := rfl
  simp only [cacheGet, State.withCart_slots]
  by_cases hb : b = 0
  · simp [hb]
  · simp only [hb, if_false]
    cases lookup b s.slots with
    | some r => rfl
    | none =>
      simp only [miss, hm, State.withCart_slots]
      rcases ensureBuffer (victim s.slots) s with ⟨ok, s1⟩
      cases ok with
      | false => rfl
      | true =>
        simp only [State.withCart_draws, hr]
        rcases storageRead c.romImage (bankOffset b) Config.romBankSize s1.draws.bankFetchOk s1 with ⟨o, s2⟩
        cases o <;> rfl

theorem select_withCart (c d : Cart) (s : State) : select c (s.withCart d) = select c s := by
  simp only [select_eq, cacheGet_withCart]
  rfl

/-- What a valid LOAD leaves (R172), on a sound block. -/
theorem loadCartridge_eq {s : State} (hs : s.Sound) (v : Variant) (cfg : LoadCfg) (eager : Bool) :
    let s0 : State := { s with
      cart := none, lastError := 0, romLogged := false, slots := List.replicate s.slots.length Slot.free
      events := s.events ++ [.fetch 0 16384 s.draws.bank0FetchOk] }
    loadCartridge v cfg eager s =
      if s.draws.bank0FetchOk then
        (select (freshCart v cfg (s.payload.romImage.slice 0 16384) s.payload)
          { s0 with slots := List.replicate s.slots.length { allocated := eager, occupant := none, recency := 0 } }).respond (.host .ok .empty)
      else { s0 with fatal := true, lastError := 2, response := some (.host .failed .empty) } := by
  intro s0
  rw [loadCartridge]
  simp only [storageRead, loadEntry_eq hs]
  by_cases hd : s.draws.bank0FetchOk = true
  · simp only [hd, if_true]
    have hi (slots : List Slot) : initPool eager slots =
        List.replicate slots.length { allocated := eager, occupant := none, recency := 0 } := by rw [initPool, List.map_const']
    simp only [hi, State.emit_slots, List.length_replicate, s0, hd]
    rfl
  · simp only [eq_false_of_ne_true hd, s0]
    rfl

/-! ## The cartridge RAM is read by the RAM rows and the host alone (R133) -/

/-- The state with other RAM contents. -/
def State.withRam (r : Memory) (s : State) : State := { s with cart := s.cart.map fun c => { c with ram := r } }

/-- A select write does not read the RAM. -/
theorem selectBank_withRam (c : Cart) (r : Memory) (b : BitVec 7) (s : State) :
    selectBank { c with ram := r } b (s.withCart { c with ram := r }) = (selectBank c b s).withRam r := by
  rw [selectBank, select_withCart, selectBank, select_eq, select_eq]
  rfl

theorem sentinelRom_withRam {c : Cart} {s : State} (hc : s.cart = some c) (r : Memory) :
    sentinelRom (s.withCart { c with ram := r }) = (sentinelRom s).withRam r := by
  simp only [sentinelRom, State.logRomOnce, State.withCart]
  by_cases h : s.romLogged = true <;> simp [h, State.withRam, State.respond, State.emit, hc]

/-- A ROM-window read does not read the RAM. -/
theorem readRomWindow_withRam {c : Cart} {s : State} (hc : s.cart = some c) (r : Memory) (off : Nat) :
    readRomWindow { c with ram := r } off (s.withCart { c with ram := r }) = (readRomWindow c off s).withRam r := by
  obtain ⟨cfg, mbc, mapped, bank0, ram, image⟩ := c
  cases mapped with
  | none => exact sentinelRom_withRam hc r
  | some b =>
    have hr : resolve ⟨cfg, mbc, some b, bank0, r, image⟩ b (s.withCart ⟨cfg, mbc, some b, bank0, r, image⟩) =
        ((resolve ⟨cfg, mbc, some b, bank0, ram, image⟩ b s).1,
          (resolve ⟨cfg, mbc, some b, bank0, ram, image⟩ b s).2.withCart ⟨cfg, mbc, some b, bank0, r, image⟩) := by
      simp only [resolve, State.withCart_slots]
      by_cases hb : b = 0
      · simp [hb]
      · simp only [hb, if_false]
        cases lookup b s.slots with
        | some x => rfl
        | none => rw [cacheGet_withCart]; rfl
    have hcart : (resolve ⟨cfg, mbc, some b, bank0, ram, image⟩ b s).2.cart = some ⟨cfg, mbc, some b, bank0, ram, image⟩ := by
      simp only [resolve]
      by_cases hb : b = 0
      · simp [hb, hc]
      · simp only [hb, if_false]
        cases lookup b s.slots with
        | some x => simp [hc]
        | none => simp [hc]
    simp only [readRomWindow, hr]
    rcases hx : resolve ⟨cfg, mbc, some b, bank0, ram, image⟩ b s with ⟨g, s1⟩
    rw [hx] at hcart
    cases g with
    | bank0 => simp_all [answerRomx, State.respond, State.withCart, State.withRam]
    | slot i d => simp_all [answerRomx, State.respond, State.withCart, State.withRam]
    | null => exact sentinelRom_withRam hcart r

end Sys2Proof.Machine
end

