-- ==== Sys2Proof/Laws/PerInstr.lean ====
section
/-! SUPPORT. Facts said of each instruction in turn. `Fits`: a CPU request's word is a 26-bit key (R71). -/

namespace Sys2Proof.Laws.Fits

/-- The word of a CPU request has no bit above K[25] (R71). -/
def Statement (i : Instr) : Prop := i.port = .cpu → encode i >>> 26 = 0#32

theorem wrARamen (a : BitVec 13) (d : Byte) : Statement (.wrARamen a d) := fun _ => zeroExtend_key_high _
theorem wrARomlo (a : BitVec 13) (d : Byte) : Statement (.wrARomlo a d) := fun _ => zeroExtend_key_high _
theorem wrAHigh (a : BitVec 13) (d : Byte) : Statement (.wrAHigh a d) := fun _ => zeroExtend_key_high _
theorem wrAMode (a : BitVec 13) (d : Byte) : Statement (.wrAMode a d) := fun _ => zeroExtend_key_high _
theorem wrBRamen (a : BitVec 13) (d : Byte) : Statement (.wrBRamen a d) := fun _ => zeroExtend_key_high _
theorem wrBRomsel (a : BitVec 13) (d : Byte) : Statement (.wrBRomsel a d) := fun _ => zeroExtend_key_high _
theorem wrBRamsel (a : BitVec 13) (d : Byte) : Statement (.wrBRamsel a d) := fun _ => zeroExtend_key_high _
theorem wrBLatch (a : BitVec 13) (d : Byte) : Statement (.wrBLatch a d) := fun _ => zeroExtend_key_high _
theorem rdRomx (v : Variant) (off : BitVec 14) (d : Byte) : Statement (.rdRomx v off d) := fun _ => zeroExtend_key_high _
theorem rdRam (v : Variant) (woff : BitVec 13) (d : Byte) : Statement (.rdRam v woff d) := fun _ => zeroExtend_key_high _
theorem wrRam (v : Variant) (woff : BitVec 13) (d : Byte) : Statement (.wrRam v woff d) := fun _ => zeroExtend_key_high _
theorem passRom0Rd (v : Variant) (a : BitVec 14) (d : Byte) : Statement (.passRom0Rd v a d) := fun _ => zeroExtend_key_high _
theorem pass8000 (v : Variant) (we : Bool) (a : BitVec 13) (d : Byte) : Statement (.pass8000 v we a d) :=
  fun _ => zeroExtend_key_high _
theorem passC000 (v : Variant) (we : Bool) (a : BitVec 14) (d : Byte) : Statement (.passC000 v we a d) :=
  fun _ => zeroExtend_key_high _
theorem load (v : Variant) (romShift ramCode : BitVec 4) (eager : Bool) : Statement (.load v romShift ramCode eager) := nofun
theorem unload : Statement .unload := nofun
theorem getRomBank (bank : BitVec 16) : Statement (.getRomBank bank) := nofun
theorem pressureEvict : Statement .pressureEvict := nofun
theorem sramExport : Statement .sramExport := nofun
theorem sramImport : Statement .sramImport := nofun
theorem readStatus : Statement .readStatus := nofun
theorem readMbc : Statement .readMbc := nofun
theorem readSlot (slot : BitVec 16) : Statement (.readSlot slot) := nofun
theorem hostReserved (word : HostWord) : Statement (.hostReserved word) := nofun

end Sys2Proof.Laws.Fits
end

