-- ==== Sys2Proof/Tests/Slice0.lean ====
section
/-! SUPPORT. Tests of one step each, with the results 95_test_vectors.md lists (its vector named in the docstring) or a hand
calculation from the rule named there, and a witness for the hypotheses of every statement in Obligations.lean that has some. -/

namespace Sys2Proof.Tests

open Sys2Proof.Machine

/-! ## States -/

/-- The image of 95_test_vectors.md §0 (`romImage[b × 16384 + i] = (b + i) & 0xFF`) at the first and last byte of the banks the tests
read, and byte 1 of bank 0. -/
def image : Memory :=
  [(0x1, 0x01), (0x3FFF, 0xFF), (0x4000, 0x01), (0x8000, 0x02), (0xBFFF, 0x01), (0xC000, 0x03), (0xFFFF, 0x02),
   (0x10000, 0x04), (0x13FFF, 0x03), (0x14000, 0x05), (0x17FFF, 0x04)]

/-- The bytes of a bank. -/
def bankData (b : Nat) : Memory := image.slice (b * 16384) 16384

/-- A slot that holds a bank. -/
def occ (b : Nat) (r : BitVec 8) : Slot := { allocated := true, occupant := some { bank := b, data := bankData b }, recency := r }

/-- An allocated slot with no occupant, and a slot with no buffer. -/
def vacant : Slot := { allocated := true, occupant := none, recency := 0 }

/-- A cartridge right after LOAD with bank 1 selected and mapped. -/
def cart (v : Variant) (totalBanks ramBanks ramSizeBytes : Nat) : Cart :=
  { cfg := { totalBanks := totalBanks, ramBanks := ramBanks, ramSizeBytes := ramSizeBytes }
    mbc := { currentRomBank := 1, currentRamBank := 0, ramEnabled := false, bankingModeSelect := false, mapperVariant := v }
    mappedBank := some 1, bank0 := [(0x1, 0x01), (0x3FFF, 0xFF)], ram := [], romImage := image }

/-- The same with other latches. -/
def latched (c : Cart) (rom : BitVec 7) (ramBank : BitVec 3) (en mode : Bool) : Cart :=
  c.withMbc { c.mbc with currentRomBank := rom, currentRamBank := ramBank, ramEnabled := en, bankingModeSelect := mode }

/-- A loaded block. -/
def block (c : Cart) (slots : List Slot) : State := { State.reset with cart := some c, slots := slots }

/-- The pool after an eager LOAD with N = 4. -/
def eagerPool : List Slot := [occ 1 255, vacant, vacant, vacant]

/-- The pool after a lazy LOAD with N = 4. -/
def lazyPool : List Slot := [occ 1 255, .free, .free, .free]

/-! ## Views -/

/-- The machine goes on, to a state of which `p` holds. -/
def after (o : Host.Outcome State Fault Refusal) (p : State → Bool) : Bool :=
  match o with
  | .next s => p s
  | .fault _ => false
  | .refused _ => false

/-- A slot as 95_test_vectors.md writes it: (allocated, occupant, recency). -/
def slotView (s : State) : List (Bool × Option Nat × BitVec 8) := s.slots.map fun x => (x.allocated, x.bank, x.recency)

/-- What the vectors say of a loaded MBC. -/
structure MbcView where
  rom : BitVec 7
  ramBank : BitVec 3
  ramEn : Bool
  mode : Bool
  mapped : Option Nat
deriving DecidableEq, Repr

/-- The MBC's latches and mapping. -/
def mbcView (s : State) : Option MbcView :=
  s.cart.map fun c => ⟨c.mbc.currentRomBank, c.mbc.currentRamBank, c.mbc.ramEnabled, c.mbc.bankingModeSelect, c.mappedBank⟩

/-- A byte of the cartridge RAM. -/
def ramView (k : Nat) (s : State) : Option Byte := s.cart.map fun c => c.ram.read k

/-! ## Well-formedness -/

/-- R76, R81: a word that is a command (LOAD, READ_STATUS, READ_SLOT) is no HOST_RESERVED. -/
theorem test_wellFormed_refusesCommandsAsReserved :
    (Instr.hostReserved 0x2241).wellFormed = false ∧ (Instr.hostReserved 0x7).wellFormed = false ∧
    (Instr.hostReserved 0xFFFF9).wellFormed = false := by decide

/-- R81: CMD 0x0, CMD 0xA, LOAD with bit 14 set, UNLOAD with bit 4 set, READ_SLOT with bit 20 set are reserved (H6 to H9). -/
theorem test_wellFormed_takesReservedWords :
    (Instr.hostReserved 0x0).wellFormed = true ∧ (Instr.hostReserved 0xA).wellFormed = true ∧
    (Instr.hostReserved 0x4001).wellFormed = true ∧ (Instr.hostReserved 0x12).wellFormed = true ∧
    (Instr.hostReserved 0x100009).wellFormed = true := by decide

/-! ## Decoding, by the words of 95_test_vectors.md -/

/-- §2, the rows outside the register ranges. -/
theorem test_decode_windowsAndPassRows :
    decodeKey 0x0000000#26 = .passRom0Rd .a 0 0 ∧ decodeKey 0x03FFF00#26 = .passRom0Rd .a 0x3FFF 0 ∧
    decodeKey 0x0400000#26 = .rdRomx .a 0 0 ∧ decodeKey 0x2400000#26 = .rdRomx .b 0 0 ∧
    decodeKey 0x0800000#26 = .pass8000 .a false 0 0 ∧ decodeKey 0x1800000#26 = .pass8000 .a true 0 0 ∧
    decodeKey 0x09FFF00#26 = .pass8000 .a false 0x1FFF 0 ∧ decodeKey 0x0A00000#26 = .rdRam .a 0 0 ∧
    decodeKey 0x0BFFF00#26 = .rdRam .a 0x1FFF 0 ∧ decodeKey 0x1BFFF00#26 = .wrRam .a 0x1FFF 0 ∧
    decodeKey 0x0C00000#26 = .passC000 .a false 0 0 ∧ decodeKey 0x1E00000#26 = .passC000 .a true 0x2000 0 ∧
    decodeKey 0x2FFFF00#26 = .passC000 .b false 0x3FFF 0 := by decide

/-- §2 to §4, one word for each MBC row and the ends of its address range. -/
theorem test_decode_registerWrites :
    decodeKey 0x11FFF00#26 = .wrARamen 0x1FFF 0 ∧ decodeKey 0x12000E3#26 = .wrARomlo 0 0xE3 ∧
    decodeKey 0x1400003#26 = .wrAHigh 0 0x03 ∧ decodeKey 0x15FFF03#26 = .wrAHigh 0x1FFF 0x03 ∧
    decodeKey 0x1600001#26 = .wrAMode 0 0x01 ∧ decodeKey 0x17FFF00#26 = .wrAMode 0x1FFF 0 ∧
    decodeKey 0x300001A#26 = .wrBRamen 0 0x1A ∧ decodeKey 0x33FFF7F#26 = .wrBRomsel 0x1FFF 0x7F ∧
    decodeKey 0x34000FF#26 = .wrBRamsel 0 0xFF ∧ decodeKey 0x37FFF00#26 = .wrBLatch 0x1FFF 0 := by decide

/-- §7 and §8, one word for each host command. -/
theorem test_decode_hostCommands :
    decodeHost 0x00002C41#32 = .load .a 2 6 true ∧ decodeHost 0x00000051#32 = .load .b 2 0 false ∧
    decodeHost 0x00000002#32 = .unload ∧ decodeHost 0x00000083#32 = .getRomBank 8 ∧ decodeHost 0x00000004#32 = .pressureEvict ∧
    decodeHost 0x00000005#32 = .sramExport ∧ decodeHost 0x00000006#32 = .sramImport ∧ decodeHost 0x00000007#32 = .readStatus ∧
    decodeHost 0x00000008#32 = .readMbc ∧ decodeHost 0x00000039#32 = .readSlot 3 ∧
    decodeHost 0x0000000A#32 = .hostReserved 0xA ∧ decodeHost 0x00004001#32 = .hostReserved 0x4001 := by decide

/-- R71: a CPU key has 26 bits. -/
theorem test_decode_rejectsWideKeys : decode .cpu 0x04000000#32 = .error .widerThanKey := rfl

/-- The words of the opcode table on the port `tablePort` picks (notes/assumptions/12.md). -/
theorem test_decodeTableWord :
    decodeTableWord 32 0x1200003 = some (.wrARomlo 0 3) ∧ decodeTableWord 32 0 = some (.passRom0Rd .a 0 0) ∧
    decodeTableWord 32 0x2241 = some (.load .a 2 1 true) ∧ decodeTableWord 32 9 = some (.readSlot 0) ∧
    decodeTableWord 32 0xFFFFFFF0 = some (.hostReserved 0xFFFFFFF0) := by decide

/-- `withFetchWord` from reset runs the word's request: READ_STATUS answers 0 (H18), a select write is dropped (W3), and a Variant B select write selects (R127). -/
theorem test_withFetchWord :
    after (step (State.reset.withFetchWord 32 0x7))
      (fun s => s.response == some (.host .ok (.word16 0))) = true ∧
    after (step (State.reset.withFetchWord 32 0x1200003))
      (fun s => s.response == some (.done) && !s.loaded) = true ∧
    after (step (State.reset.withFetchWord 32 0x3200003))
      (fun s => s.response == some (.done) && mbcView s == some ⟨0, 0, false, false, some 0⟩) = true := by decide

/-! ## The MBC -/

/-- A2: 0x1A enables. -/
theorem test_wrARamen_enables :
    after (exec (.wrARamen 0 0x1A) (block (cart .a 8 4 0x8000) eagerPool))
      (fun s => mbcView s == some ⟨1, 0, true, false, some 1⟩) = true := by decide

/-- A6: 0xA0 disables. -/
theorem test_wrARamen_disables :
    after (exec (.wrARamen 0 0xA0) (block (latched (cart .a 8 4 0x8000) 1 0 true false) eagerPool))
      (fun s => mbcView s == some ⟨1, 0, false, false, some 1⟩) = true := by decide

/-- A15: with high bits 01 and D = 0 the bank is 0x21, a hit here with no fetch. -/
theorem test_wrARomlo_remapsTheFieldOnly :
    after (exec (.wrARomlo 0 0x00) (block (latched (cart .a 128 0 0) 0x21 0 false false) [occ 1 254, occ 0x21 255]))
      (fun s => mbcView s == some ⟨0x21, 0, false, false, some 0x21⟩ && slotView s == [(true, some 1, 253), (true, some 0x21, 255)] && s.events == []) = true := by decide

/-- A17: with two banks D = 0x02 masks to bank 0, mapped with no fetch. -/
theorem test_wrARomlo_masksLast :
    after (exec (.wrARomlo 0 0x02) (block (cart .a 2 0 0) [occ 1 255, vacant]))
      (fun s => mbcView s == some ⟨0, 0, false, false, some 0⟩ && slotView s == [(true, some 1, 255), (true, none, 0)] && s.events == []) = true := by decide

/-- A21: mode 0, 128 banks, D = 0x03 gives bank 0x61 and FETCH(0x184000). -/
theorem test_wrAHigh_romBits :
    after (exec (.wrAHigh 0 0x03) (block (cart .a 128 0 0) eagerPool))
      (fun s => mbcView s == some ⟨0x61, 0, false, false, some 0x61⟩ && s.events == [.fetch 0x184000 0x4000 true]) = true := by decide

/-- A25: mode 1, 4 RAM banks, D = 0x06 gives RAM bank 2 and no SELECT. -/
theorem test_wrAHigh_ramBank :
    after (exec (.wrAHigh 0 0x06) (block (latched (cart .a 128 4 0x8000) 1 0 false true) [occ 1 254, vacant]))
      (fun s => mbcView s == some ⟨1, 2, false, true, some 1⟩ && slotView s == [(true, some 1, 254), (true, none, 0)]) = true := by decide

/-- A29: D = 0x01 sets the latch and nothing else. -/
theorem test_wrAMode_sets :
    after (exec (.wrAMode 0 0x01) (block (cart .a 128 0 0) [occ 1 254]))
      (fun s => mbcView s == some ⟨1, 0, false, true, some 1⟩ && slotView s == [(true, some 1, 254)]) = true := by decide

/-- A30: D = 0xFE clears it. -/
theorem test_wrAMode_readsBit0 :
    after (exec (.wrAMode 0x1FFF 0xFE) (block (latched (cart .a 128 0 0) 1 0 false true) eagerPool))
      (fun s => mbcView s == some ⟨1, 0, false, false, some 1⟩) = true := by decide

/-- B16: 0x1A enables. -/
theorem test_wrBRamen_enables :
    after (exec (.wrBRamen 0 0x1A) (block (cart .b 4 8 0x10000) eagerPool))
      (fun s => mbcView s == some ⟨1, 0, true, false, some 1⟩) = true := by decide

/-- B2: D[7] is ignored, and 0 becomes 1. -/
theorem test_wrBRomsel_remaps :
    after (exec (.wrBRomsel 0 0x80) (block (cart .b 128 0 0) eagerPool))
      (fun s => mbcView s == some ⟨1, 0, false, false, some 1⟩ && s.events == []) = true := by decide

/-- P3 line 2: a failed fetch keeps bank 1 mapped and the slots, stores the latch, and records error 2. -/
theorem test_wrBRomsel_failedFetch :
    after (exec (.wrBRomsel 0 0x02)
      { block (cart .b 4 0 0) [occ 1 255, vacant] with draws := { Draws.allOk with bankFetchOk := false } })
      (fun s => mbcView s == some ⟨2, 0, false, false, some 1⟩ && slotView s == [(true, some 1, 255), (true, none, 0)] && s.events == [.fetch 0x8000 0x4000 false] && s.lastError == 2) = true := by decide

/-- B9: 4 RAM banks, D = 0x07 gives bank 3. -/
theorem test_wrBRamsel_masks :
    after (exec (.wrBRamsel 0 0x07) (block (cart .b 4 4 0x8000) eagerPool))
      (fun s => mbcView s == some ⟨1, 3, false, false, some 1⟩) = true := by decide

/-- B10: D = 0x08 gives bank 0. -/
theorem test_wrBRamsel_readsThreeBits :
    after (exec (.wrBRamsel 0 0x08) (block (latched (cart .b 4 8 0x10000) 1 5 false false) eagerPool))
      (fun s => mbcView s == some ⟨1, 0, false, false, some 1⟩) = true := by decide

/-- B14: no state change. -/
theorem test_wrBLatch_doesNothing :
    after (exec (.wrBLatch 0 0x01) (block (cart .b 4 8 0x10000) [occ 1 254]))
      (fun s => mbcView s == some ⟨1, 0, false, false, some 1⟩ && slotView s == [(true, some 1, 254)] && s.response == some (.done)) = true := by decide

/-! ## The windows -/

/-- W15: the evicted mapped bank 4 is refetched into slot 0 and its byte answered. -/
theorem test_rdRomx_refetches :
    after (exec (.rdRomx .a 0 0) (block { cart .a 8 0 0 with mappedBank := some 4 } [.free, occ 5 255, .free]))
      (fun s => s.response == some (.byte 0x04) && slotView s == [(true, some 4, 255), (true, some 5, 254), (false, none, 0)] && s.events == [.fetch 0x10000 0x4000 true]) = true := by decide

/-- W12: nothing mapped answers 0xFF, sets `romLogged` and emits LOG(2), with no fetch. -/
theorem test_rdRomx_sentinel :
    after (exec (.rdRomx .a 0 0) { block { cart .a 4 0 0 with mappedBank := none } eagerPool with lastError := 2 })
      (fun s => s.response == some (.byte 0xFF) && s.romLogged && s.events == [.log 2]) = true := by decide

/-- W10: bank 1, `woff` 0x1FFF is `ram[0x3FFF]`. -/
theorem test_rdRam_banked :
    after (exec (.rdRam .b 0x1FFF 0)
      (block { latched (cart .b 4 2 0x4000) 1 1 true false with ram := [(0x3FFF, 0x77)] } eagerPool))
      (fun s => s.response == some (.byte 0x77)) = true := by decide

/-- W9: beyond a 2KB RAM. -/
theorem test_rdRam_beyondTheBuffer :
    after (exec (.rdRam .a 0x800 0) (block (latched (cart .a 4 1 0x800) 1 0 true false) eagerPool))
      (fun s => s.response == some (.byte 0xFF)) = true := by decide

/-- W8: the last byte of a 2KB RAM is written. -/
theorem test_wrRam_lastByte :
    after (exec (.wrRam .a 0x7FF 0x55) (block (latched (cart .a 4 1 0x800) 1 0 true false) eagerPool))
      (fun s => ramView 0x7FF s == some 0x55) = true := by decide

/-- P2 line 3: a disabled write is dropped. -/
theorem test_wrRam_disabled :
    after (exec (.wrRam .a 0 0x11) (block (cart .a 4 4 0x8000) eagerPool))
      (fun s => s.response == some (.done) && ramView 0 s == some 0x00) = true := by decide

/-- W7, W4, §2: the PASS rows answer "not mine". -/
theorem test_passRows :
    after (exec (.passRom0Rd .a 0x100 0) (block (cart .a 8 0 0) eagerPool))
      (fun s => s.response == some (.notMine)) = true ∧
    after (exec (.pass8000 .a false 0 0) State.reset)
      (fun s => s.response == some (.notMine)) = true ∧
    after (exec (.passC000 .a true 0x3FFF 0) State.reset)
      (fun s => s.response == some (.notMine)) = true := by decide

/-- P7 line 4: in FATAL even a PASS row is stuck. -/
theorem test_fatal_isStuck : exec (.passRom0Rd .a 0x100 0) { State.reset with fatal := true } = .fault .stuckInFatal := rfl

/-! ## The cache, by the vectors of §6 -/

/-- CV5: an occupied slot 0 at recency 0 is chosen before the empty slots. -/
theorem test_getRomBank_victimIgnoresOccupancy :
    after (exec (.getRomBank 9) (block (cart .a 16 0 0) [occ 1 0, occ 2 255, .free, .free]))
      (fun s => slotView s == [(true, some 9, 255), (true, some 2, 254), (false, none, 0), (false, none, 0)] && s.events == [.fetch 0x24000 0x4000 true]) = true := by decide

/-- H11: a bank outside the image answers NULL with code 4 and no fetch. -/
theorem test_getRomBank_outOfRange :
    after (exec (.getRomBank 8) (block (cart .a 8 0 0) eagerPool))
      (fun s => s.response == some (.host .null .empty) && s.lastError == 4 && s.events == []) = true := by decide

/-- CV1, CV2: a hit touches, and the decrement stops at 0. -/
theorem test_cacheGet_hit :
    slotView (cacheGet (cart .a 16 0 0) 3
      (block (cart .a 16 0 0) [occ 1 255, occ 2 0, occ 3 253, occ 4 252])).2 =
      [(true, some 1, 254), (true, some 2, 0), (true, some 3, 255), (true, some 4, 251)] := by decide

/-- CV10: the first allocation fails, remediation frees slot 1, the retry succeeds. -/
theorem test_cacheGet_remediates :
    slotView (cacheGet (cart .a 16 0 0) 6
      { block (cart .a 16 0 0) [occ 1 255, occ 2 254, .free, .free] with draws := { Draws.allOk with allocOk := false } }).2 =
      [(true, some 1, 254), (false, none, 0), (true, some 6, 255), (false, none, 0)] := by decide

/-- CV9: the buffer allocated for a fetch that fails stays, unoccupied. -/
theorem test_cacheGet_keepsTheNewBuffer :
    slotView (cacheGet (cart .a 16 0 0) 6
      { block (cart .a 16 0 0) [occ 1 255, occ 2 254, .free, .free] with draws := { Draws.allOk with bankFetchOk := false } }).2 =
      [(true, some 1, 255), (true, some 2, 254), (true, none, 0), (false, none, 0)] := by decide

/-- E2, E4: the hottest is the lowest index of a tie, and an occupied slot of recency 0 is kept. -/
theorem test_pressureEvict_keepsTheHottest :
    after (exec .pressureEvict (block (cart .a 8 0 0) [occ 1 7, occ 3 7, occ 5 2]))
      (fun s => slotView s == [(true, some 1, 7), (false, none, 0), (false, none, 0)]) = true ∧
    after (exec .pressureEvict (block (cart .a 8 0 0) [vacant, occ 6 0, .free, vacant]))
      (fun s => slotView s == [(false, none, 0), (true, some 6, 0), (false, none, 0), (false, none, 0)]) = true := by decide

/-! ## Host commands -/

/-- H19: a lazy Variant B LOAD over a loaded Variant A block. -/
theorem test_load_whileLoaded :
    after (exec (.load .b 2 0 false)
      { block (latched (cart .a 8 0 0) 3 0 true true) [occ 1 254, occ 3 255, vacant, vacant] with
        payload := { Payload.empty with romImage := image } })
      (fun s => s.response == some (.host .ok .empty) && mbcView s == some ⟨1, 0, false, false, some 1⟩ && s.variant == .b && slotView s == [(true, some 1, 255), (false, none, 0), (false, none, 0), (false, none, 0)]) = true := by decide

/-- H4: a RAM size above one bank answers FAILED, code 4, and loads nothing. -/
theorem test_load_invalid :
    after (exec (.load .a 2 1 true) { State.reset with payload := { Payload.empty with op1 := 0x2001 } })
      (fun s => s.response == some (.host .failed .empty) && s.lastError == 4 && !s.loaded) = true := by decide

/-- P6 line 5: UNLOAD frees every slot. -/
theorem test_unload :
    after (exec .unload (block (cart .a 4 1 0x2000) [occ 1 255, vacant]))
      (fun s => s.response == some (.host .ok .empty) && !s.loaded && slotView s == [(false, none, 0), (false, none, 0)]) = true := by decide

/-- P6 line 4, on a 3-byte RAM: every byte of the RAM, whatever the latch. -/
theorem test_sramExport :
    after (exec .sramExport (block { cart .a 4 1 3 with ram := [(1, 0x42)] } eagerPool))
      (fun s => s.response == some (.host .ok (.bytes [0x00, 0x42, 0x00]))) = true := by decide

/-- H20: a short string leaves the tail. -/
theorem test_sramImport_short :
    after (exec .sramImport { block { cart .a 4 1 0x10 with ram := [(2, 0xAA), (3, 0xBB)] } eagerPool with
        payload := { Payload.empty with src := [0x01, 0x02, 0x03] } })
      (fun s => s.response == some (.host .ok .empty) && ramView 0 s == some 0x01 && ramView 2 s == some 0x03 && ramView 3 s == some 0xBB) = true := by decide

/-- H21: a long string is truncated to the RAM. -/
theorem test_sramImport_truncates :
    after (exec .sramImport { block (cart .a 4 1 2) eagerPool with payload := { Payload.empty with src := [0x00, 0x01, 0x02] } })
      (fun s => s.cart.map (·.ram) == some [(1, 0x01)]) = true := by decide

/-- H22: FATAL and LASTERR 2 read 0x0022. -/
theorem test_readStatus_fatal :
    after (exec .readStatus { State.reset with fatal := true, lastError := 2 })
      (fun s => s.response == some (.host .ok (.word16 0x0022))) = true := by decide

/-- P3 line 4: ROMBANK 2, VARIANT 1, MAPV 1, MAPPED 1. -/
theorem test_readMbc :
    after (exec .readMbc (block (latched (cart .b 4 0 0) 2 0 false false) eagerPool))
      (fun s => s.response == some (.host .ok (.word32 0x00016002))) = true := by decide

/-- P4 line 11 (slot 2), H16. -/
theorem test_readSlot :
    after (exec (.readSlot 0) (block (cart .a 128 0 0) [occ 0x65 0xFC]))
      (fun s => s.response == some (.host .ok (.word32 0x030065FC))) = true ∧
    after (exec (.readSlot 4) State.reset)
      (fun s => s.response == some (.host .refused .empty)) = true := by decide

/-- R76: OK (0), NULL (1), REFUSED (2), FAILED (3), by H15, H11, H16 and H4, and no status on a CPU answer (W7). -/
theorem test_statusCodes :
    after (exec .unload State.reset) (fun s => s.response.bind Response.statusCode == some 0) = true ∧
    after (exec (.getRomBank 8) (block (cart .a 8 0 0) eagerPool)) (fun s => s.response.bind Response.statusCode == some 1) = true ∧
    after (exec (.readSlot 4) State.reset) (fun s => s.response.bind Response.statusCode == some 2) = true ∧
    after (exec (.load .a 2 1 true) { State.reset with payload := { Payload.empty with op1 := 0x2001 } })
      (fun s => s.response.bind Response.statusCode == some 3) = true ∧
    after (exec (.passRom0Rd .a 0x100 0) State.reset) (fun s => s.response.bind Response.statusCode == none) = true := by decide

/-- H9. -/
theorem test_hostReserved :
    exec (.hostReserved 0x12) State.reset = .next { State.reset with response := some (.host .refused .empty) } := rfl

/-! ## Witnesses for the statements' hypotheses -/

/-- A lazily loaded block with bank 1 mapped and resident, 4 banks and one RAM bank of 8192 bytes. -/
def demo : State := block (cart .a 4 1 8192) lazyPool

/-- The same after the mapped bank was evicted. -/
def evicted : State := block (cart .a 4 1 8192) [.free, .free, .free, .free]

/-- The same, eagerly loaded. -/
def eagerDemo : State := block (cart .a 4 1 8192) eagerPool

theorem demoCart_sound : (cart .a 4 1 8192).Sound where
  cfg := ⟨⟨2, by decide, rfl⟩, .inr ⟨0, by decide, rfl⟩, nofun, fun _ => by decide⟩
  romBank := by decide
  ramBank := by decide
  ramBankA := by decide
  modeB := by decide
  mapped b hb := by cases hb; decide
  bank0 k hk := by
    simp only [cart, image, Memory.read]
    split_ifs <;> first | rfl | omega

theorem emptyPool_sound : PoolSound [.free, .free, .free, .free] := PoolSound.ofEmpty (by decide) (by decide)

theorem vacantPool_sound : PoolSound [vacant, vacant, vacant, vacant] := PoolSound.ofEmpty (by decide) (by decide)

theorem lazyPool_sound : PoolSound lazyPool :=
  PoolSound.fillTouch (p := [vacant, .free, .free, .free]) (PoolSound.ofEmpty (by decide) (by decide)) 0 1 (bankData 1) (by decide)
    (by decide) (by decide)

theorem eagerPool_sound : PoolSound eagerPool :=
  PoolSound.fillTouch (p := [vacant, vacant, vacant, vacant]) vacantPool_sound 0 1 (bankData 1) (by decide) (by decide) (by decide)

theorem occ1_faithful (r : BitVec 8) : (occ 1 r).Faithful (cart .a 4 1 8192) := fun o ho => by
  cases ho
  exact ⟨by decide, fun k hk => read_fetched image 1 k hk⟩

theorem empty_faithful (c : Cart) (x : Slot) (h : x.occupant = none) : x.Faithful c := fun o ho => by rw [h] at ho; cases ho

theorem demo_sound : demo.Sound where
  pool := lazyPool_sound
  cart c hc := by
    cases hc
    refine ⟨demoCart_sound, fun x hx => ?_⟩
    simp only [demo, block, lazyPool, List.mem_cons, List.not_mem_nil, or_false] at hx
    rcases hx with rfl | rfl | rfl | rfl
    · exact occ1_faithful 255
    all_goals exact empty_faithful _ _ rfl
  unloaded := nofun
  fatal := nofun

theorem evicted_sound : evicted.Sound where
  pool := emptyPool_sound
  cart c hc := by
    cases hc
    refine ⟨demoCart_sound, fun x hx => ?_⟩
    simp only [evicted, block, List.mem_cons, List.not_mem_nil, or_false] at hx
    rcases hx with rfl | rfl | rfl | rfl <;> exact empty_faithful _ _ rfl
  unloaded := nofun
  fatal := nofun

theorem demo_canonical : demo.Canonical where
  cart c hc := by cases hc; exact ⟨by decide, by decide, nofun, by decide⟩
  slots x hx o ho := by
    simp only [demo, block, lazyPool, List.mem_cons, List.not_mem_nil, or_false] at hx
    rcases hx with rfl | rfl | rfl | rfl <;> cases ho
    decide
  payload := ⟨by decide, by decide⟩
  arrivals := nofun

theorem reset_sound : State.reset.Sound where
  pool := emptyPool_sound
  cart := nofun
  unloaded _ _ hx := (List.mem_replicate.1 hx).2
  fatal := nofun

/-- Reset memory is in canonical form: nothing is listed. -/
theorem test_resetMemory_wf : Memory.wf State.reset.payload.romImage ∧ State.reset.cart = none := by decide

/-- The block about to serve one access of the CPU. -/
def atCpu (s : State) (we : Bool) (a : Addr) (d : Byte) (dr : Draws) : State := { s with arrivals := [.cpu we a d false dr] }

/-- The block about to serve one host command. -/
def atHost (s : State) (w : HostWord) (p : Payload) (dr : Draws) : State := { s with arrivals := [.host w p dr] }

/-- A draw whose bank fetch fails, and one whose two allocations fail. -/
def badFetch : Draws := { Draws.allOk with bankFetchOk := false }
def noBuffer : Draws := { Draws.allOk with allocOk := false, allocRetryOk := false }

theorem witness_DecodeOfEncodeGivesTheRequestBack :
    (Instr.hostReserved 0x12).wellFormed = true ∧ (Instr.wrBRomsel 0x1FFF 0x7F).wellFormed = true := by decide

theorem witness_EncodeOfDecodeGivesTheWordBack :
    (∃ i, decode .cpu 0x03FFFFFF = .ok i) ∧ (∃ i, decode .host 0xFFFFFFFF = .ok i) := ⟨⟨_, rfl⟩, ⟨_, rfl⟩⟩

theorem witness_StepRunsTheDecodedRequest :
    (∃ (s : State) (we : Bool) (a : Addr) (d : Byte) (dr : Draws) (rest : List Arrival), s.arrivals = .cpu we a d false dr :: rest ∧ s.cart ≠ none) ∧
    (∃ (s : State) (we : Bool) (a : Addr) (d : Byte) (dr : Draws) (rest : List Arrival), s.arrivals = .cpu we a d false dr :: rest ∧ s.cart = none) ∧
    (∃ (s : State) (w : HostWord) (p : Payload) (dr : Draws) (rest : List Arrival), s.arrivals = .host w p dr :: rest) :=
  ⟨⟨atCpu demo true 0x7FFF 1 .allOk, _, _, _, _, _, rfl, nofun⟩, ⟨atCpu .reset false 0 0 .allOk, _, _, _, _, _, rfl, rfl⟩,
    ⟨atHost demo 7 .empty .allOk, _, _, _, _, rfl⟩⟩

theorem witness_ClaimedAccessAndIdleBlockChangeNothing :
    (∃ (s : State) (we : Bool) (a : Addr) (d : Byte) (dr : Draws) (rest : List Arrival), s.arrivals = .cpu we a d true dr :: rest) ∧
    (∃ s : State, s.arrivals = []) :=
  ⟨⟨{ demo with arrivals := [.cpu false 0xFF7F 0 true .allOk] }, _, _, _, _, _, rfl⟩, ⟨demo, rfl⟩⟩

theorem witness_ResetSignalEmptiesTheBlock : ∃ (s : State) (rest : List Arrival), s.arrivals = .reset :: rest ∧ s.cart ≠ none :=
  ⟨{ demo with arrivals := [.reset] }, _, rfl, nofun⟩

theorem witness_ResetStateIsSound : ∃ n : Nat, 1 ≤ n := ⟨1, by decide⟩

/-- A select write that misses. -/
theorem witness_StepKeepsTheInvariantOfR42 : ∃ s t : State, s.Sound ∧ step s = .next t :=
  ⟨atCpu demo true 0x2000 3 .allOk, _, demo_sound.congr rfl rfl rfl, rfl⟩

theorem witness_StepKeepsBuffersCanonical : ∃ s t : State, s.Canonical ∧ step s = .next t :=
  ⟨atCpu demo true 0x2000 3 .allOk, _,
    ⟨demo_canonical.cart, demo_canonical.slots, demo_canonical.payload, fun a ha => by
      simp only [atCpu, List.mem_singleton] at ha; subst ha; trivial⟩, rfl⟩

/-- A LOAD of four banks and a select write, on a pool of one slot. -/
theorem witness_ReachedStatesMeetTheNineInvariants :
    ∃ (n : Nat) (stream : List Arrival) (steps : Nat) (s : State) (c : Cart), 1 ≤ n ∧
      core.run steps { State.resetOf n with arrivals := stream } = .next s ∧ s.cart = some c :=
  ⟨1, [.host 0x2041 { Payload.empty with romImage := image } .allOk, .cpu true 0x2000 3 false .allOk], 2, _, _, by decide, rfl, rfl⟩

theorem witness_StepKeepsThePoolSize : ∃ s t : State, step s = .next t := ⟨atHost demo 4 .empty .allOk, _, rfl⟩

theorem witness_StepFetchesWholeAlignedBanks : ∃ s t : State, s.Sound ∧ step s = .next t ∧ t.events ≠ s.events :=
  ⟨atCpu evicted false 0x4000 0 .allOk, _, evicted_sound.congr rfl rfl rfl, rfl, by decide⟩

theorem witness_OnlyACpuRequestInFatalIsStuck :
    (Instr.load .a 0 0 false).port = .host ∧ ((Instr.rdRomx .a 0 0).port = .cpu ∧ demo.fatal = false) ∧
    ((Instr.passC000 .a true 0 0).port = .cpu ∧ ({ State.reset with fatal := true } : State).fatal = true) := by decide

theorem witness_FatalIsLeftOnlyByReset :
    (∃ s t : State, s.fatal = true ∧ step s = .next t ∧ t.fatal = true) ∧ (∃ s t : State, s.fatal = true ∧ step s = .next t ∧ t.fatal = false) :=
  ⟨⟨atHost { State.reset with fatal := true } 7 .empty .allOk, _, rfl, rfl, rfl⟩,
    ⟨{ State.reset with fatal := true, arrivals := [.reset] }, _, rfl, rfl, rfl⟩⟩

theorem witness_FatalIsEnteredOnlyByAFailedBank0Fetch : ∃ s t : State, s.fatal = false ∧ step s = .next t ∧ t.fatal = true :=
  ⟨atHost demo 0x2041 .empty { Draws.allOk with bank0FetchOk := false }, _, rfl, rfl, rfl⟩

theorem witness_OnlyLoadChangesTheCartridge :
    (∃ (s t : State) (c c' : Cart), step s = .next t ∧ s.cart = some c ∧ t.cart = some c' ∧ c'.cfg ≠ c.cfg) ∧
    (∃ (s t : State) (c c' : Cart), step s = .next t ∧ s.cart = some c ∧ t.cart = some c' ∧ c' ≠ c) :=
  ⟨⟨atHost demo 0x1 .empty .allOk, _, _, _, rfl, rfl, rfl, by decide⟩, ⟨atCpu demo true 0 0x0A .allOk, _, _, _, rfl, rfl, rfl, by decide⟩⟩

/-- The last byte of the 8192-byte RAM. -/
theorem witness_RamEnableLaw :
    (∃ (s t : State) (c : Cart), s.cart = some c ∧ c.mbc.ramEnabled = false ∧ exec (.rdRam .a 0 0) s = .next t) ∧
    (∃ (s : State) (c : Cart) (woff : BitVec 13), s.fatal = false ∧ s.cart = some c ∧ c.ram.wf ∧ 0 < c.cfg.ramBanks ∧
      c.mbc.currentRamBank.toNat * 8192 + woff.toNat < c.cfg.ramSizeBytes) :=
  ⟨⟨demo, _, _, rfl, rfl, rfl⟩, ⟨demo, _, 0x1FFF, rfl, rfl, Memory.wf_nil, by decide, by decide⟩⟩

/-- The last byte of the window: bank 1 resident, and bank 1 evicted with a failing refetch. -/
theorem witness_RomWindowShowsTheMappedBank :
    (∃ (s : State) (c : Cart), s.Sound ∧ s.cart = some c ∧ c.mappedBank = some 1 ∧ after (exec (.rdRomx .a 0 0) s) (fun t => t.response == some (.byte 0x01)) = true) ∧
    (∃ (s : State) (c : Cart), s.Sound ∧ s.cart = some c ∧ c.mappedBank = some 1 ∧ after (exec (.rdRomx .a 0x3FFF 0) s) (fun t => t.response == some (.byte 0xFF)) = true) :=
  ⟨⟨demo, _, demo_sound, rfl, rfl, by decide⟩, ⟨{ evicted with draws := badFetch }, _, evicted_sound.congr rfl rfl rfl, rfl, rfl, by decide⟩⟩

theorem witness_SecondGetIsAHit :
    (∃ (c : Cart) (i : Nat) (data : Memory) (s s1 : State), PoolSound s.slots ∧ cacheGet c 2 s = (.slot i data, s1) ∧
      ∀ x ∈ s.slots, x.bank ≠ some 2) ∧
    (∃ (c : Cart) (i : Nat) (data : Memory) (s s1 : State), PoolSound s.slots ∧ cacheGet c 1 s = (.slot i data, s1) ∧
      ∃ x ∈ s.slots, x.bank = some 1) :=
  ⟨⟨cart .a 4 1 8192, _, _, demo, _, lazyPool_sound, rfl, by decide⟩,
    ⟨cart .a 4 1 8192, _, _, demo, _, lazyPool_sound, rfl, occ 1 255, by decide, rfl⟩⟩

theorem witness_UnloadedBlockAnswersFFAndDropsWrites : State.reset.fatal = false ∧ State.reset.cart = none := by decide

theorem witness_PassRowsAreNotTheBlocks : demo.fatal = false ∧ State.reset.fatal = false := by decide

theorem witness_RomReadOfAResidentBankChangesNothing :
    (∃ (s : State) (c : Cart), s.fatal = false ∧ s.cart = some c ∧ c.mappedBank = some 0) ∧
    (∃ (s : State) (c : Cart) (b i : Nat) (data : Memory), s.fatal = false ∧ s.cart = some c ∧ PoolSound s.slots ∧ b ≠ 0 ∧
      c.mappedBank = some b ∧ Resident s.slots i b data) :=
  ⟨⟨demo.withCart { cart .a 4 1 8192 with mappedBank := some 0 }, _, rfl, rfl, rfl⟩,
    ⟨demo, _, 1, 0, bankData 1, rfl, rfl, lazyPool_sound, by decide, rfl, 255, rfl⟩⟩

theorem witness_RomReadWithNothingMappedIsTheLoggedSentinel :
    ∃ (s : State) (c : Cart), s.fatal = false ∧ s.cart = some c ∧ c.mappedBank = none :=
  ⟨demo.withCart { cart .a 4 1 8192 with mappedBank := none }, _, rfl, rfl, rfl⟩

theorem witness_RomReadOfAnEvictedBankRefetchesIt :
    (∃ (s : State) (c : Cart) (i : Nat) (data : Memory), s.fatal = false ∧ s.cart = some c ∧ c.mappedBank = some 1 ∧
      (∀ x ∈ s.slots, x.bank ≠ some 1) ∧ (cacheGet c 1 s).1 = .slot i data) ∧
    (∃ (s : State) (c : Cart), s.fatal = false ∧ s.cart = some c ∧ c.mappedBank = some 1 ∧
      (∀ x ∈ s.slots, x.bank ≠ some 1) ∧ (cacheGet c 1 s).1 = .null) :=
  ⟨⟨evicted, _, _, _, rfl, rfl, rfl, by decide, rfl⟩, ⟨{ evicted with draws := noBuffer }, _, rfl, rfl, rfl, by decide, rfl⟩⟩

/-- Offsets 0x7FF and 0x800 of a 2KB RAM (W8, W9), enabled. -/
theorem witness_RamReadAnswersTheBankedByte :
    ∃ (s : State) (c : Cart), s.fatal = false ∧ s.cart = some c ∧ c.mbc.ramEnabled = true ∧ 0 < c.cfg.ramBanks ∧
      c.mbc.currentRamBank.toNat * 8192 + (0x7FF#13).toNat < c.cfg.ramSizeBytes ∧
      ¬ c.mbc.currentRamBank.toNat * 8192 + (0x800#13).toNat < c.cfg.ramSizeBytes :=
  ⟨block (latched (cart .a 4 1 0x800) 1 0 true false) eagerPool, _, rfl, rfl, rfl, by decide, by decide, by decide⟩

theorem witness_RamWriteStoresTheBankedByte :
    ∃ (s : State) (c : Cart), s.fatal = false ∧ s.cart = some c ∧ c.ram.wf ∧ c.mbc.ramEnabled = true ∧ 0 < c.cfg.ramBanks ∧
      c.mbc.currentRamBank.toNat * 8192 + (0x7FF#13).toNat < c.cfg.ramSizeBytes ∧
      ¬ c.mbc.currentRamBank.toNat * 8192 + (0x800#13).toNat < c.cfg.ramSizeBytes :=
  ⟨block (latched (cart .a 4 1 0x800) 1 0 true false) eagerPool, _, rfl, rfl, Memory.wf_nil, rfl, by decide, by decide, by decide⟩

/-- The hypotheses of every statement about one MBC write, by its name. -/
def mbcWriteWitness : Prop := ∃ (s : State) (c : Cart), s.fatal = false ∧ s.cart = some c

theorem witness_RamEnableWriteSetsTheLatch : mbcWriteWitness := ⟨demo, _, rfl, rfl⟩
theorem witness_RomLowWriteSelectsTheBank : mbcWriteWitness := ⟨demo, _, rfl, rfl⟩
theorem witness_ModeWriteSetsTheLatchAndTheStubDoesNothing : mbcWriteWitness := ⟨demo, _, rfl, rfl⟩
theorem witness_RomSelectWriteSelectsTheBank : mbcWriteWitness := ⟨demo, _, rfl, rfl⟩
theorem witness_RamSelectWriteSelectsTheRamBank : mbcWriteWitness := ⟨demo, _, rfl, rfl⟩

theorem witness_HighWriteSelectsRomOrRamBankByMode :
    (∃ (s : State) (c : Cart), s.fatal = false ∧ s.cart = some c ∧ c.mbc.bankingModeSelect = false) ∧
    (∃ (s : State) (c : Cart), s.fatal = false ∧ s.cart = some c ∧ c.mbc.bankingModeSelect = true) :=
  ⟨⟨demo, _, rfl, rfl, rfl⟩, ⟨block (latched (cart .a 4 1 8192) 1 0 false true) lazyPool, _, rfl, rfl, rfl⟩⟩

theorem witness_SelectWritesNeverStoreZeroInTheirField :
    (∃ (s t : State) (c c' : Cart), s.cart = some c ∧ c.cfg.totalBanks = 128 ∧ t.cart = some c' ∧ exec (.wrARomlo 0 0x20) s = .next t) ∧
    (∃ (s t : State) (c c' : Cart), s.cart = some c ∧ c.cfg.totalBanks = 128 ∧ t.cart = some c' ∧ exec (.wrBRomsel 0 0x80) s = .next t) :=
  ⟨⟨block (cart .a 128 0 0) eagerPool, _, _, _, rfl, rfl, rfl, rfl⟩, ⟨block (cart .b 128 0 0) eagerPool, _, _, _, rfl, rfl, rfl, rfl⟩⟩

theorem witness_MaskingAtTheWriteEqualsMaskingAtUse :
    ∃ (cfg : LoadCfg) (k raw : Nat), k = 15 ∧ k ≤ 15 ∧ cfg.totalBanks = 2 ^ k ∧ raw = 127 ∧ raw < 128 :=
  ⟨{ totalBanks := 32768, ramBanks := 0, ramSizeBytes := 0 }, 15, 127, rfl, by decide, by decide, rfl, by decide⟩

theorem witness_GetOfBank0OrAResidentBankFetchesNothing :
    ∃ (s : State) (b i : Nat) (data : Memory), PoolSound s.slots ∧ b ≠ 0 ∧ Resident s.slots i b data :=
  ⟨demo, 1, 0, bankData 1, lazyPool_sound, by decide, 255, rfl⟩

/-- The victim is slot 1, with a buffer in `eagerDemo` and without one in `demo`. -/
theorem victim_isVictim (slots : List Slot) (h : ∃ x, slots[1]? = some x ∧ (∀ y ∈ slots, x.recency.toNat ≤ y.recency.toNat) ∧
    ∃ z, slots[0]? = some z ∧ x.recency.toNat < z.recency.toNat) : IsVictim slots 1 := by
  obtain ⟨x, hx, hmin, z, hz, hlt⟩ := h
  refine ⟨x, hx, hmin, fun j y hj hy => ?_⟩
  obtain rfl : j = 0 := by omega
  rw [hz] at hy; cases hy; exact hlt

theorem demo_victim : IsVictim demo.slots 1 := victim_isVictim _ ⟨.free, rfl, by decide, occ 1 255, rfl, by decide⟩
theorem eagerDemo_victim : IsVictim eagerDemo.slots 1 := victim_isVictim _ ⟨vacant, rfl, by decide, occ 1 255, rfl, by decide⟩

theorem demo_lacks2 : ∀ y ∈ demo.slots, y.bank ≠ some 2 := by decide

theorem witness_MissFillsTheVictim :
    (∃ (v : Nat) (x : Slot) (s : State), PoolSound s.slots ∧ (∀ y ∈ s.slots, y.bank ≠ some 2) ∧ IsVictim s.slots v ∧
      s.slots[v]? = some x ∧ x.allocated = true ∧ s.draws.bankFetchOk = true) ∧
    (∃ (v : Nat) (x : Slot) (s : State), PoolSound s.slots ∧ (∀ y ∈ s.slots, y.bank ≠ some 2) ∧ IsVictim s.slots v ∧
      s.slots[v]? = some x ∧ x.allocated = false ∧ s.draws.allocOk = true ∧ s.draws.bankFetchOk = true) :=
  ⟨⟨1, _, eagerDemo, eagerPool_sound, by decide, eagerDemo_victim, rfl, rfl, rfl⟩,
    ⟨1, _, demo, lazyPool_sound, by decide, demo_victim, rfl, rfl, rfl, rfl⟩⟩

theorem witness_FailedFetchKeepsThePool :
    ∃ (v : Nat) (x : Slot) (s : State), PoolSound s.slots ∧ (∀ y ∈ s.slots, y.bank ≠ some 2) ∧ IsVictim s.slots v ∧
      s.slots[v]? = some x ∧ (x.allocated = true ∨ s.draws.allocOk = true) ∧ s.draws.bankFetchOk = false :=
  ⟨1, _, { demo with draws := badFetch }, lazyPool_sound, by decide, demo_victim, rfl, .inr rfl, rfl⟩

theorem witness_AllocationFailureRemediatesOnce :
    ∃ (v : Nat) (x : Slot) (s : State), PoolSound s.slots ∧ (∀ y ∈ s.slots, y.bank ≠ some 2) ∧ IsVictim s.slots v ∧
      s.slots[v]? = some x ∧ x.allocated = false ∧ s.draws.allocOk = false ∧ s.draws.allocRetryOk = false :=
  ⟨1, _, { demo with draws := noBuffer }, lazyPool_sound, by decide, demo_victim, rfl, rfl, rfl, rfl⟩

theorem witness_AllocationFailureRemediatesOnce_retry :
    ∀ ok : Bool, ∃ (v : Nat) (x : Slot) (s : State), PoolSound s.slots ∧ (∀ y ∈ s.slots, y.bank ≠ some 2) ∧ IsVictim s.slots v ∧
      s.slots[v]? = some x ∧ x.allocated = false ∧ s.draws.allocOk = false ∧ s.draws.allocRetryOk = true ∧ s.draws.bankFetchOk = ok :=
  fun ok => ⟨1, _, { demo with draws := { allocOk := false, allocRetryOk := true, bankFetchOk := ok, bank0FetchOk := true } }, lazyPool_sound,
    demo_lacks2, demo_victim, rfl, rfl, rfl, rfl, rfl⟩

theorem witness_VictimIsTheLowestOfTheLeastRecent : 1 ≤ [vacant].length := by decide

theorem witness_TouchedSlotIsHottestAndNotTheVictim :
    ∃ (slots : List Slot) (i j : Nat) (x : Slot) (touches : List Nat), i < slots.length ∧ 2 ≤ slots.length ∧ slots[j]? = some x ∧
      j ∉ touches ∧ touches ≠ [] :=
  ⟨[vacant, occ 1 255], 1, 0, vacant, [1], by decide, by decide, rfl, by decide, by decide⟩

theorem witness_RefusedCommandsChangeNothing : ({ State.reset with fatal := true } : State).fatal = true ∧ State.reset.cart = none := by
  decide

/-- The least reserved word of each clause, and RAMCODE 6. -/
theorem witness_ReservedHostWordIsRefused :
    (0xA#32).toNat % 16 ∈ [0, 10, 11, 12, 13, 14, 15] ∧ ((0x12#32).toNat % 16 ∈ [2, 4, 5, 6, 7, 8] ∧ 16 ≤ (0x12#32).toNat) ∧
    ((0x4001#32).toNat % 16 = 1 ∧ 2 ^ 14 ≤ (0x4001#32).toNat) ∧ ((0x100003#32).toNat % 16 ∈ [3, 9] ∧ 2 ^ 20 ≤ (0x100003#32).toNat) ∧
    demo.fatal = false ∧ 6 ≤ (6#4).toNat := by decide

/-- The least invalid operand of each clause: RAMCODE 6; size 1 with no RAM; size 0 and size 8193 with one RAM bank. -/
theorem witness_InvalidLoadOnlyRecordsTheError :
    demo.fatal = false ∧ 5 < (6#4).toNat ∧ ((0#4).toNat = 0 ∧ (1#32).toNat ≠ 0) ∧ (1 ≤ (1#4).toNat ∧ (0#32).toNat = 0) ∧
    (1 ≤ (1#4).toNat ∧ 2 ^ ((1#4).toNat - 1) * 8192 < (8193#32).toNat) := by decide

/-- The largest RAM of the largest RAMCODE, and no RAM. -/
theorem witness_FailedBank0FetchIsFatal :
    (∃ s : State, s.Sound ∧ s.fatal = false ∧ (5#4).toNat ≤ 5 ∧ 1 ≤ s.payload.op1.toNat ∧
      s.payload.op1.toNat ≤ 2 ^ ((5#4).toNat - 1) * 8192 ∧ s.draws.bank0FetchOk = false) ∧
    (∃ s : State, s.Sound ∧ s.fatal = false ∧ s.payload.op1.toNat = 0 ∧ s.draws.bank0FetchOk = false) :=
  ⟨⟨{ demo with payload := { Payload.empty with op1 := 131072 }, draws := { Draws.allOk with bank0FetchOk := false } },
      demo_sound.congr rfl rfl rfl, rfl, by decide, by decide, by decide, rfl⟩,
    ⟨{ demo with draws := { Draws.allOk with bank0FetchOk := false } }, demo_sound.congr rfl rfl rfl, rfl, rfl, rfl⟩⟩

/-- Every combination of the answers to the draws of a LOAD whose bank 0 is fetched; the clauses on the operands alone are those of the
statement before. -/
theorem witness_SuccessfulLoadLeavesTheValuesOfR43 :
    ∀ a r f : Bool, ∃ s : State, s.Sound ∧ s.fatal = false ∧ (0#4).toNat ≤ 5 ∧ s.payload.op1.toNat = 0 ∧ s.draws.bank0FetchOk = true ∧
      s.draws.allocOk = a ∧ s.draws.allocRetryOk = r ∧ s.draws.bankFetchOk = f :=
  fun a r f => ⟨{ State.reset with draws := { allocOk := a, allocRetryOk := r, bankFetchOk := f, bank0FetchOk := true } },
    reset_sound.congr rfl rfl rfl, rfl, by decide, rfl, rfl, rfl, rfl, rfl⟩

theorem witness_UnloadDestroysTheCartridge : demo.fatal = false ∧ demo.cart ≠ none ∧ State.reset.fatal = false ∧ State.reset.cart = none :=
  ⟨rfl, nofun, rfl, rfl⟩

/-- Bank 4 of a cartridge of four is outside; bank 3 is inside, and its fetch may fail or not; bank 0. -/
theorem witness_GetRomBankAnswersTheBanksBytes :
    (∃ (s : State) (c : Cart), s.Sound ∧ s.cart = some c ∧ c.cfg.totalBanks ≤ (4#16).toNat ∧ (3#16).toNat < c.cfg.totalBanks ∧
      (0#16).toNat < c.cfg.totalBanks ∧ (cacheGet c (3#16).toNat s).1 ≠ .null) ∧
    (∃ (s : State) (c : Cart), s.Sound ∧ s.cart = some c ∧ (3#16).toNat < c.cfg.totalBanks ∧ (cacheGet c (3#16).toNat s).1 = .null) :=
  ⟨⟨demo, _, demo_sound, rfl, by decide, by decide, by decide, by decide⟩,
    ⟨{ demo with draws := badFetch }, _, demo_sound.congr rfl rfl rfl, rfl, by decide, by decide⟩⟩

theorem witness_PressureEvictRunsTheEviction : mbcWriteWitness := ⟨demo, _, rfl, rfl⟩

theorem witness_SramTransfersMoveTheWholeRam : ∃ (s : State) (c : Cart), s.fatal = false ∧ s.cart = some c ∧ c.ram.wf :=
  ⟨demo, _, rfl, rfl, Memory.wf_nil⟩

theorem witness_ReadMbcAnswersTheMbcStatusWord : State.reset.cart = none ∧ ∃ (s : State) (c : Cart), s.cart = some c ∧ c.Sound :=
  ⟨rfl, demo, _, rfl, demoCart_sound⟩

/-- SLOT 4 of four does not exist, SLOT 3 does. -/
theorem witness_ReadSlotAnswersTheSlotStatusWord :
    demo.slots.length ≤ (4#16).toNat ∧ (∃ x, demo.slots[(3#16).toNat]? = some x) ∧ demo.Sound := ⟨by decide, ⟨_, rfl⟩, demo_sound⟩

/-- A command of each status but OK, and one whose OK answer carries a value. -/
theorem witness_HostAnswersCarryTheStatusesOfR76 :
    ((Instr.getRomBank 4).port = .host ∧ after (exec (.getRomBank 4) demo) (fun t => t.response == some (.host .null .empty)) = true) ∧
    ((Instr.load .a 0 6 false).port = .host ∧
      after (exec (.load .a 0 6 false) demo) (fun t => t.response == some (.host .failed .empty)) = true) ∧
    (Instr.sramExport.port = .host ∧ after (exec .sramExport State.reset) (fun t => t.response == some (.host .refused .empty)) = true) ∧
    (Instr.readStatus.port = .host ∧ after (exec .readStatus demo) (fun t => t.response == some (.host .ok (.word16 1))) = true) := by
  decide

end Sys2Proof.Tests
end

section
/-! What a step does to the pool's size (R11, R29) and to the event stream (R16, R53): an operation at a time, then effect by effect. -/

namespace Sys2Proof.Machine

/-! ## The pool's size -/

@[simp] theorem length_initPool (eager : Bool) (slots : List Slot) : (initPool eager slots).length = slots.length :=
  List.length_map _

theorem select_slots (c : Cart) (s : State) : (select c s).slots = (cacheGet c c.mbc.currentRomBank.toNat s).2.slots := by
  rw [select_eq, State.withCart_slots]

theorem select_poolSize (c : Cart) (s : State) : (select c s).slots.length = s.slots.length := by
  rw [select_slots, cacheGet_poolSize]

theorem loadCartridge_poolSize (v : Variant) (cfg : LoadCfg) (eager : Bool) (s : State) :
    (loadCartridge v cfg eager s).slots.length = s.slots.length := by
  obtain ⟨-, -, -, -, -, -, hlen⟩ := loadEntry_frame s
  cases hd : s.draws.bank0FetchOk with
  | false => simpa [loadCartridge_failed hd] using hlen
  | true => simpa [loadCartridge_fetched hd, select_poolSize] using hlen

theorem CpuEffect.poolSize {s t : State} (h : CpuEffect s t) : t.slots.length = s.slots.length := by
  cases h with
  | answer | latch | store | unmapped => simp
  | select c b => exact select_poolSize _ s
  | refetched c b r => exact cacheGet_poolSize c b s
  | degraded c b => rw [sentinelRom_slots, cacheGet_poolSize]

theorem HostEffect.poolSize {i : Instr} {s t : State} (h : HostEffect i s t) : t.slots.length = s.slots.length := by
  cases h with
  | answer | invalid | store => simp
  | load v shift code eager => exact loadCartridge_poolSize v _ eager s
  | unload => exact List.length_map _
  | get c b r => exact cacheGet_poolSize c b s
  | evict => simp

/-! ## The event stream -/

/-- A fetch is of one whole bank (R53) below 2^29 (R16); a LOG is no fetch. -/
def Event.WholeBank : Event → Prop
  | .fetch off len _ => len = 16384 ∧ off % 16384 = 0 ∧ off < 2 ^ 29
  | .log _ => True

/-- `evs'` is `evs` and at most `n` further events, whose fetches are of whole banks. -/
def EmitsUpTo (n : Nat) (evs evs' : List Event) : Prop :=
  ∃ new, evs' = evs ++ new ∧ new.length ≤ n ∧ ∀ e ∈ new, e.WholeBank

theorem EmitsUpTo.refl (n : Nat) (evs : List Event) : EmitsUpTo n evs evs := ⟨[], by simp⟩

theorem EmitsUpTo.one {e : Event} (he : e.WholeBank) (evs : List Event) : EmitsUpTo 1 evs (evs ++ [e]) := ⟨[e], by simp [he]⟩

theorem EmitsUpTo.mono {m n : Nat} {evs evs' : List Event} (h : EmitsUpTo m evs evs') (hmn : m ≤ n) : EmitsUpTo n evs evs' := by
  obtain ⟨new, happ, hlen, hall⟩ := h
  exact ⟨new, happ, hlen.trans hmn, hall⟩

theorem EmitsUpTo.trans {m n : Nat} {evs evs' evs'' : List Event} (h : EmitsUpTo m evs evs') (h' : EmitsUpTo n evs' evs'') :
    EmitsUpTo (m + n) evs evs'' := by
  obtain ⟨new, rfl, hlen, hall⟩ := h
  obtain ⟨new', rfl, hlen', hall'⟩ := h'
  refine ⟨new ++ new', List.append_assoc .., ?_, fun e he => (List.mem_append.1 he).elim (hall e) (hall' e)⟩
  rw [List.length_append]
  omega

/-- The fetch of a bank of the largest image, 2^15 banks, ends at 2^29 at the latest (R16). -/
theorem wholeBank_fetch {b : Nat} (hb : b < 2 ^ 15) (ok : Bool) : (Event.fetch (b * 16384) 16384 ok).WholeBank :=
  ⟨rfl, Nat.mul_mod_left b 16384, by omega⟩

theorem wholeBank_log (code : BitVec 4) : (Event.log code).WholeBank := trivial

theorem LoadCfg.Valid.totalBanks_le {cfg : LoadCfg} (h : cfg.Valid) : cfg.totalBanks ≤ 2 ^ 15 := by
  obtain ⟨k, hk, e⟩ := h.totalBanks
  exact e ▸ Nat.pow_le_pow_right (by decide) hk

theorem cacheGet_emits (c : Cart) {b : Nat} (hb : b < 2 ^ 15) (s : State) : EmitsUpTo 1 s.events (cacheGet c b s).2.events := by
  rcases cacheGet_events c b s with h | ⟨ok, h⟩ <;> rw [h]
  · exact .refl 1 _
  · exact .one (wholeBank_fetch hb ok) _

theorem sentinelRom_emits (s : State) : EmitsUpTo 1 s.events (sentinelRom s).events := by
  rw [sentinelRom_events]
  split
  · exact .refl 1 _
  · exact .one (wholeBank_log _) _

/-- SELECT fetches at most the bank of the 7-bit latch (R22, R121). -/
theorem select_emits (c : Cart) (s : State) : EmitsUpTo 1 s.events (select c s).events := by
  have hb : c.mbc.currentRomBank.toNat < 2 ^ 15 := by omega
  rw [select_eq, State.withCart_events]
  exact cacheGet_emits c hb s

/-- LOAD fetches bank 0, and bank 1 at most in its initial SELECT (R172). -/
theorem loadCartridge_emits (v : Variant) (cfg : LoadCfg) (eager : Bool) (s : State) :
    EmitsUpTo 2 s.events (loadCartridge v cfg eager s).events := by
  obtain ⟨-, -, -, -, -, hev, -⟩ := loadEntry_frame s
  have bank0 (ok : Bool) : EmitsUpTo 1 s.events ((loadEntry s).emit (.fetch 0 16384 ok)).events := by
    rw [State.emit_events, hev]
    exact .one (wholeBank_fetch (b := 0) (by decide) ok) _
  cases hd : s.draws.bank0FetchOk with
  | false =>
    rw [loadCartridge_failed hd]
    exact (bank0 false).mono (by decide)
  | true =>
    rw [loadCartridge_fetched hd]
    refine EmitsUpTo.trans (n := 1) (bank0 true) ?_
    exact select_emits _ (State.withSlots _ _)

theorem CpuEffect.emits {s t : State} (hs : s.Sound) (h : CpuEffect s t) : EmitsUpTo 2 s.events t.events := by
  have mapped {c : Cart} {b : Nat} (hc : s.cart = some c) (hm : c.mappedBank = some b) : b < 2 ^ 15 := by
    obtain ⟨-, hlt⟩ := (hs.cart c hc).1.mapped b hm
    omega
  cases h with
  | answer | latch | store => exact .refl 2 _
  | select c b hc => exact (select_emits _ s).mono (by decide)
  | unmapped c hc hm => exact (sentinelRom_emits s).mono (by decide)
  | refetched c b r hc hm => exact (cacheGet_emits c (mapped hc hm) s).mono (by decide)
  | degraded c b hc hm => exact (cacheGet_emits c (mapped hc hm) s).trans (sentinelRom_emits _)

theorem HostEffect.emits {i : Instr} {s t : State} (hs : s.Sound) (h : HostEffect i s t) : EmitsUpTo 2 s.events t.events := by
  cases h with
  | answer | invalid | unload | evict | store => exact .refl 2 _
  | load v shift code eager => exact loadCartridge_emits v _ eager s
  | get c b r hf hc hb =>
    have hle := (hs.cart c hc).1.cfg.totalBanks_le
    exact (cacheGet_emits c (hb.trans_le hle) s).mono (by decide)

/-- A step emits at most two events, and its fetches are of whole banks. -/
theorem step_emits {s t : State} (hs : s.Sound) (h : step s = .next t) : EmitsUpTo 2 s.events t.events := by
  rcases step_cases h with ⟨-, rfl⟩ | ⟨rest, -, rfl⟩ | ⟨we, a, d, dr, rest, -, rfl⟩ | ⟨we, a, d, dr, rest, -, -, -, he⟩ |
    ⟨w, p, dr, rest, -, -, he⟩
  · exact .refl 2 _
  · exact .refl 2 _
  · exact .refl 2 _
  · have hl : (s.latchCpu rest dr).Sound := hs.congr rfl rfl rfl
    simpa using he.emits hl
  · have hl : (s.latchHost rest p dr).Sound := hs.congr rfl rfl rfl
    simpa using he.emits hl

/-! ## The obligations -/

/-- Settles O16: no effect of a request changes the pool's size, and RESET frees the slots one by one. -/
theorem stepKeepsThePoolSize : Obligations.StepKeepsThePoolSize := by
  intro s t h
  rcases step_cases h with ⟨-, rfl⟩ | ⟨rest, -, rfl⟩ | ⟨we, a, d, dr, rest, -, rfl⟩ | ⟨we, a, d, dr, rest, -, -, -, he⟩ |
    ⟨w, p, dr, rest, -, -, he⟩
  · rfl
  · exact List.length_map _
  · rfl
  · exact he.poolSize
  · exact he.poolSize

/-- Settles O17: a step emits at most two events in all, so at most two fetches. -/
theorem stepFetchesWholeAlignedBanks : Obligations.StepFetchesWholeAlignedBanks := by
  intro s t hs h
  obtain ⟨new, happ, hlen, hall⟩ := step_emits hs h
  exact ⟨new, happ, (List.length_filter_le _ new).trans hlen, fun off len ok he => hall _ he⟩

end Sys2Proof.Machine
end

section
/-! The invariant of R42 (`State.Sound`) along a step: the latches a register write may leave, each CPU request, each host command, RESET. -/

namespace Sys2Proof.Machine

/-! ## The variant a register row belongs to (R72, R73) -/

/-- A register write is a request of its own variant; every other request is a request of both. -/
def RunsOn (v : Variant) : Instr → Prop
  | .wrARamen _ _ | .wrARomlo _ _ | .wrAHigh _ _ | .wrAMode _ _ => v = .a
  | .wrBRamen _ _ | .wrBRomsel _ _ | .wrBRamsel _ _ | .wrBLatch _ _ => v = .b
  | _ => True

theorem decodeRegisterWrite_runsOn (v : Variant) (a14 a13 : Bool) (a : BitVec 13) (d : Byte) :
    RunsOn v (decodeRegisterWrite v a14 a13 a d) := by
  unfold decodeRegisterWrite
  split <;> rfl

/-- A key decodes to a register write of its own V only. -/
theorem decodeKey_runsOn (k : CpuKey) : RunsOn (keyVariant k) (decodeKey k) := by
  rw [decodeKey]
  split
  · exact decodeRegisterWrite_runsOn _ _ _ _ _
  all_goals trivial

theorem State.variant_loaded {s : State} {c : Cart} (hc : s.cart = some c) : s.variant = c.mbc.mapperVariant := by
  simp only [State.variant, hc]

/-- The key of an access takes V from the cartridge, so it decodes to no register write of the other variant. -/
theorem decodeKey_key_runsOn {s : State} {c : Cart} (hc : s.cart = some c) (we : Bool) (a : Addr) (d : Byte) :
    RunsOn c.mbc.mapperVariant (decodeKey (s.key we a d)) := by
  have hv : keyVariant (s.key we a d) = c.mbc.mapperVariant := (keyVariant_assembleKey ..).trans (State.variant_loaded hc)
  exact hv ▸ decodeKey_runsOn (s.key we a d)

/-! ## Latches (R22 to R26) -/

/-- Latches in their ranges, beside an unchanged ROM bank. -/
theorem Cart.Sound.withMbc {c : Cart} (h : c.Sound) {m : Mbc} (hrom : m.currentRomBank = c.mbc.currentRomBank)
    (hram : m.currentRamBank.toNat < max 1 c.cfg.ramBanks) (hramA : m.mapperVariant = .a → m.currentRamBank.toNat < 4)
    (hmode : m.mapperVariant = .b → m.bankingModeSelect = false) : (c.withMbc m).Sound where
  cfg := h.cfg
  romBank := by rw [Cart.withMbc_mbc, hrom]; exact h.romBank
  ramBank := hram
  ramBankA := hramA
  modeB := hmode
  mapped := h.mapped
  bank0 := h.bank0

theorem Cart.Sound.withRamEnabled {c : Cart} (h : c.Sound) (en : Bool) : (c.withMbc (c.mbc.setRamEnabled en)).Sound :=
  h.withMbc rfl h.ramBank h.ramBankA h.modeB

/-- The mode latch is free in Variant A alone (R25). -/
theorem Cart.Sound.withMode {c : Cart} (h : c.Sound) (hv : c.mbc.mapperVariant = .a) (mode : Bool) :
    (c.withMbc (c.mbc.setMode mode)).Sound :=
  h.withMbc rfl h.ramBank h.ramBankA fun hb => by rw [Mbc.setMode_mapperVariant, hv] at hb; cases hb

/-- A masked RAM bank, of 2 bits in Variant A (R23). -/
theorem Cart.Sound.withRamBank {c : Cart} (h : c.Sound) {r : Nat} (hr : c.mbc.mapperVariant = .a → r < 4) :
    (c.withMbc { c.mbc with currentRamBank := maskRamBank c.cfg r }).Sound :=
  h.withMbc rfl (maskRamBank_lt c.cfg r) (fun hv => (maskRamBank_le c.cfg r).trans_lt (hr hv)) h.modeB

theorem highField_lt (d : Byte) : highField d < 4 := by
  rw [highField_eq]
  exact Nat.mod_lt _ (by decide)

/-! ## CPU requests -/

theorem State.Sound.respond {s : State} (h : s.Sound) (r : Response) : (s.respond r).Sound := h.congr rfl rfl rfl

theorem State.Sound.sentinelRom {s : State} (h : s.Sound) : (sentinelRom s).Sound :=
  h.congr (sentinelRom_cart s) (sentinelRom_fatal s) (sentinelRom_slots s)

/-- New RAM bytes: the invariant says nothing of them. -/
theorem State.Sound.withRam {s : State} {c : Cart} (h : s.Sound) (hc : s.cart = some c) (ram : Memory) :
    (s.withCart { c with ram := ram }).Sound :=
  h.withCart hc { (h.cart c hc).1 with } rfl rfl

theorem cpuServe_sound {s t : State} {r : Response} {e : Cart → State} (hs : s.Sound) (h : cpuServe s r e = .next t)
    (he : ∀ c, s.cart = some c → (e c).Sound) : t.Sound := by
  obtain ⟨-, ⟨-, rfl⟩ | ⟨c, hc, rfl⟩⟩ := cpuServe_next h
  · exact hs.respond r
  · exact he c hc

theorem mbcWrite_sound {s t : State} {e : Cart → State} (hs : s.Sound) (h : mbcWrite s e = .next t)
    (he : ∀ c, s.cart = some c → (e c).Sound) : t.Sound :=
  cpuServe_sound hs h fun c hc => (he c hc).respond .done

theorem latchWrite_sound {s t : State} {f : Cart → Mbc} (hs : s.Sound) (h : latchWrite s f = .next t)
    (hf : ∀ c, s.cart = some c → c.Sound → (c.withMbc (f c)).Sound) : t.Sound :=
  mbcWrite_sound hs h fun c hc => hs.withCart hc (hf c hc (hs.cart c hc).1) rfl rfl

theorem passOn_sound {s t : State} (hs : s.Sound) (h : passOn s = .next t) : t.Sound := by
  cases hf : s.fatal with
  | true => rw [passOn_fatal hf] at h; cases h
  | false => rw [passOn_ok hf] at h; cases h; exact hs.respond _

theorem resolve_sound {s : State} {c : Cart} {b : Nat} (hs : s.Sound) (hc : s.cart = some c) (hb : b < c.cfg.totalBanks) :
    (resolve c b s).2.Sound := by
  rcases resolve_cases c b s with ⟨-, e⟩ | ⟨-, i, data, -, e⟩ | ⟨-, -, e⟩ <;> rw [e]
  · exact hs
  · exact hs
  · exact cacheGet_sound hs hc rfl rfl hb

theorem answerRomx_sound (c : Cart) (off : Nat) {r : GetResult × State} (h : r.2.Sound) : (answerRomx c off r).Sound := by
  obtain ⟨g, s⟩ := r
  cases g with
  | bank0 => exact h.respond _
  | slot i data => exact h.respond _
  | null => exact h.sentinelRom

theorem readRomWindow_sound {s : State} {c : Cart} (hs : s.Sound) (hc : s.cart = some c) (off : Nat) : (readRomWindow c off s).Sound := by
  rw [readRomWindow]
  cases hm : c.mappedBank with
  | none => exact hs.sentinelRom
  | some b =>
    obtain ⟨hb, -⟩ := (hs.cart c hc).1.mapped b hm
    exact answerRomx_sound c off (resolve_sound hs hc hb)

theorem readRamWindow_sound {s : State} (hs : s.Sound) (c : Cart) (woff : BitVec 13) : (readRamWindow c woff s).Sound := by
  rw [readRamWindow]
  split <;> exact hs.respond _

theorem writeRamWindow_sound {s : State} {c : Cart} (hs : s.Sound) (hc : s.cart = some c) (woff : BitVec 13) (d : Byte) :
    (writeRamWindow c woff d s).Sound := by
  rw [writeRamWindow]
  split
  · exact hs.respond _
  · exact (hs.withRam hc _).respond _

/-- A CPU request of the cartridge's variant keeps the invariant. -/
theorem exec_cpu_sound {s t : State} {i : Instr} (hp : i.port = .cpu) (hs : s.Sound)
    (hv : ∀ c, s.cart = some c → RunsOn c.mbc.mapperVariant i) (h : exec i s = .next t) : t.Sound := by
  cases i with
  | wrARamen a d => exact latchWrite_sound hs h fun c _ hcs => hcs.withRamEnabled _
  | wrARomlo a d => exact mbcWrite_sound hs h fun c hc => selectBank_sound hs hc _
  | wrAHigh a d =>
    refine mbcWrite_sound hs h fun c hc => ?_
    split
    · exact hs.withCart hc ((hs.cart c hc).1.withRamBank fun _ => highField_lt d) rfl rfl
    · exact selectBank_sound hs hc _
  | wrAMode a d => exact latchWrite_sound hs h fun c hc hcs => hcs.withMode (hv c hc) _
  | wrBRamen a d => exact latchWrite_sound hs h fun c _ hcs => hcs.withRamEnabled _
  | wrBRomsel a d => exact mbcWrite_sound hs h fun c hc => selectBank_sound hs hc _
  | wrBRamsel a d =>
    refine latchWrite_sound hs h fun c hc hcs => hcs.withRamBank fun ha => ?_
    have hb : c.mbc.mapperVariant = .b := hv c hc
    rw [hb] at ha
    cases ha
  | wrBLatch a d => exact mbcWrite_sound hs h fun _ _ => hs
  | rdRomx v off d => exact cpuServe_sound hs h fun c hc => readRomWindow_sound hs hc _
  | rdRam v woff d => exact cpuServe_sound hs h fun c _ => readRamWindow_sound hs c woff
  | wrRam v woff d => exact cpuServe_sound hs h fun c hc => writeRamWindow_sound hs hc woff d
  | passRom0Rd v a d => exact passOn_sound hs h
  | pass8000 v we a d => exact passOn_sound hs h
  | passC000 v we a d => exact passOn_sound hs h
  | load | unload | getRomBank | pressureEvict | sramExport | sramImport | readStatus | readMbc | readSlot | hostReserved => cases hp

/-! ## Host commands and RESET -/

/-- A pool emptied slot by slot is a pool of free slots. -/
theorem State.Sound.freed {s t : State} (h : s.Sound) (hc : t.cart = none) (hs : t.slots = s.slots.map fun _ => Slot.free) : t.Sound :=
  h.emptied hc (by rw [hs, List.map_const'])

theorem evictNonessential_sound {s : State} {c : Cart} (hs : s.Sound) (hc : s.cart = some c) : (evictNonessential s).Sound where
  pool := hs.pool.step (.freeExcept _ _)
  cart d hd := by
    obtain ⟨hds, hfaith⟩ := hs.cart d hd
    exact ⟨hds, (PoolStep.freeExcept _ _).occupants hfaith⟩
  unloaded hd := by rw [show (evictNonessential s).cart = s.cart from rfl, hc] at hd; cases hd
  fatal := hs.fatal

/-- The initial SELECT of a fresh cartridge, over unoccupied slots and whatever cartridge the state held. -/
theorem select_sound_of_empty {s : State} {c : Cart} (hf : s.fatal = false) (hc : c.Sound) (h1 : 1 ≤ s.slots.length)
    (hs : ∀ x ∈ s.slots, x.occupant = none ∧ x.recency = 0) : (select c s).Sound := by
  have hfresh : (s.withCart c).Sound := State.Sound.fresh (State.withCart_cart s c) hf hc h1 hs
  rw [← select_withCart c c s]
  exact select_sound hfresh (State.withCart_cart s c) rfl rfl hc

/-- LOAD of a valid configuration: FATAL with nothing loaded, or the fresh cartridge over unoccupied slots and its SELECT. -/
theorem loadCartridge_sound {s : State} (hs : s.Sound) (hf : s.fatal = false) {cfg : LoadCfg} (hcfg : cfg.Valid) (v : Variant)
    (eager : Bool) : (loadCartridge v cfg eager s).Sound := by
  rw [loadCartridge_eq hs]
  split
  · refine State.Sound.respond (select_sound_of_empty ?_ (freshCart_sound v hcfg s.payload) ?_ fun x hx => ?_) _
    · exact hf
    · simpa using hs.pool.nonempty
    · obtain ⟨-, rfl⟩ := List.mem_replicate.1 hx
      exact ⟨rfl, rfl⟩
  · exact hs.emptied rfl rfl

theorem HostEffect.sound {i : Instr} {s t : State} (hs : s.Sound) (h : HostEffect i s t) : t.Sound := by
  cases h with
  | answer r => exact hs.respond r
  | invalid r hf => exact hs.congr rfl rfl rfl
  | load v shift code eager hi hf hvalid => exact loadCartridge_sound hs hf (loadCfgOf_valid hvalid) v eager
  | unload c hf hc => exact hs.freed rfl rfl
  | get c b r hf hc hb => exact (cacheGet_sound hs hc rfl rfl hb).respond r
  | evict c hf hc => exact (evictNonessential_sound hs hc).respond _
  | store c src hf hc hl => exact (hs.withRam hc _).respond _

/-- Settles O13: each request keeps the invariant, the register writes because V comes from the cartridge; RESET empties the block. -/
theorem stepKeepsTheInvariantOfR42 : Obligations.StepKeepsTheInvariantOfR42 := by
  intro s t hs h
  rcases step_cases h with ⟨-, rfl⟩ | ⟨rest, -, rfl⟩ | ⟨we, a, d, dr, rest, -, rfl⟩ | ⟨we, a, d, dr, rest, -, -, hx, -⟩ |
    ⟨w, p, dr, rest, -, -, he⟩
  · exact hs
  · exact hs.freed rfl rfl
  · exact hs.congr rfl rfl rfl
  · have hl : (s.latchCpu rest dr).Sound := hs.congr rfl rfl rfl
    exact exec_cpu_sound (decodeKey_port _) hl (fun c hc => decodeKey_key_runsOn hc we a d) hx
  · have hl : (s.latchHost rest p dr).Sound := hs.congr rfl rfl rfl
    exact he.sound hl

end Sys2Proof.Machine
end

section
/-! The canonical form of every buffer and R31's RAM bound (`State.Canonical`) along a step. -/

namespace Sys2Proof.Machine

/-- The canonical form speaks of the cartridge, the slots, the payload and the waiting requests only. -/
theorem State.Canonical.congr {s t : State} (h : s.Canonical) (hc : t.cart = s.cart) (hs : t.slots = s.slots)
    (hp : t.payload = s.payload) (ha : t.arrivals = s.arrivals) : t.Canonical where
  cart c := hc ▸ h.cart c
  slots := hs ▸ h.slots
  payload := hp ▸ h.payload
  arrivals := ha ▸ h.arrivals

theorem State.Canonical.respond {s : State} (h : s.Canonical) (r : Response) : (s.respond r).Canonical := h.congr rfl rfl rfl rfl

theorem State.Canonical.sentinelRom {s : State} (h : s.Canonical) : (sentinelRom s).Canonical :=
  h.congr (sentinelRom_cart s) (sentinelRom_slots s) (sentinelRom_payload s) (sentinelRom_arrivals s)

theorem State.Canonical.withCart {s : State} (h : s.Canonical) {c : Cart} (hc : c.Canonical) : (s.withCart c).Canonical :=
  { h with cart := fun d hd => by cases hd; exact hc }

theorem State.Canonical.withSlots {s : State} (h : s.Canonical) {slots : List Slot}
    (hs : ∀ x ∈ slots, ∀ o, x.occupant = some o → o.data.wf) : (s.withSlots slots).Canonical :=
  { h with slots := hs }

/-- A block without a cartridge, over unoccupied slots. -/
theorem State.Canonical.emptied {s t : State} (h : s.Canonical) (hc : t.cart = none) (hs : ∀ x ∈ t.slots, x.occupant = none)
    (hp : t.payload = s.payload) (ha : t.arrivals = s.arrivals) : t.Canonical where
  cart c hc' := by rw [hc] at hc'; cases hc'
  slots x hx o ho := by rw [hs x hx] at ho; cases ho
  payload := hp ▸ h.payload
  arrivals := ha ▸ h.arrivals

theorem occupant_of_mem_map_free {slots : List Slot} {x : Slot} (hx : x ∈ slots.map fun _ => Slot.free) : x.occupant = none := by
  obtain ⟨-, -, rfl⟩ := List.mem_map.1 hx
  rfl

/-! ## The cartridge's buffers -/

/-- A cartridge that differs in its latches and mapping alone. -/
theorem Cart.Canonical.congr {c c' : Cart} (h : c.Canonical) (hcfg : c'.cfg = c.cfg) (hb : c'.bank0 = c.bank0) (hr : c'.ram = c.ram)
    (hi : c'.romImage = c.romImage) : c'.Canonical where
  bank0 := hb ▸ h.bank0
  ram := hr ▸ h.ram
  ramBound := by rw [hr, hcfg]; exact h.ramBound
  romImage := hi ▸ h.romImage

theorem Cart.Canonical.withMbc {c : Cart} (h : c.Canonical) (m : Mbc) : (c.withMbc m).Canonical := h.congr rfl rfl rfl rfl

/-- A byte stored inside the RAM. -/
theorem Cart.Canonical.store {c : Cart} (h : c.Canonical) {k : Nat} (hk : k < c.cfg.ramSizeBytes) (d : Byte) :
    Cart.Canonical { c with ram := c.ram.write k d } :=
  { h with
    ram := Memory.wf_write c.ram k d h.ram
    ramBound := fun cell hcell => by
      rcases Memory.mem_write hcell with rfl | hold
      · exact hk
      · exact h.ramBound cell hold }

/-- A string no longer than the RAM stored at its start. -/
theorem Cart.Canonical.storeBytes {c : Cart} (h : c.Canonical) {src : List Byte} (hl : src.length ≤ c.cfg.ramSizeBytes) :
    Cart.Canonical { c with ram := Memory.writeBytes 0 src c.ram } :=
  { h with
    ram := Memory.wf_writeBytes src 0 c.ram h.ram
    ramBound := Memory.writeBytes_bound src 0 c.cfg.ramSizeBytes c.ram h.ramBound (by omega) }

theorem freshCart_canonical (v : Variant) (cfg : LoadCfg) {p : Payload} (hp : p.Canonical) :
    (freshCart v cfg (p.romImage.slice 0 16384) p).Canonical where
  bank0 := Memory.wf_slice _ _ _ hp.1
  ram := Memory.wf_slice _ _ _ hp.2
  ramBound := Memory.slice_bound _ _ _
  romImage := hp.1

/-! ## The cache and LOAD -/

theorem cacheGet_canonical {c : Cart} (hc : c.Canonical) (b : Nat) {s : State} (hs : s.Canonical) : (cacheGet c b s).2.Canonical where
  cart := by rw [cacheGet_cart]; exact hs.cart
  slots := cacheGet_occupants c b s (P := fun o => o.data.wf) hs.slots fun _ => Memory.wf_slice _ _ _ hc.romImage
  payload := by rw [cacheGet_payload]; exact hs.payload
  arrivals := by rw [cacheGet_arrivals]; exact hs.arrivals

theorem select_canonical {c : Cart} (hc : c.Canonical) {s : State} (hs : s.Canonical) : (select c s).Canonical := by
  rw [select_eq]
  exact (cacheGet_canonical hc _ hs).withCart (hc.congr rfl rfl rfl rfl)

theorem unloadEffects_canonical {s : State} (hs : s.Canonical) : (unloadEffects s).Canonical :=
  hs.emptied rfl (fun _ hx => occupant_of_mem_map_free hx) rfl rfl

theorem loadEntry_canonical {s : State} (hs : s.Canonical) : (loadEntry s).Canonical := by
  rw [loadEntry]
  split
  · exact (unloadEffects_canonical hs).congr rfl rfl rfl rfl
  · exact hs.congr rfl rfl rfl rfl

theorem loadCartridge_canonical (v : Variant) (cfg : LoadCfg) (eager : Bool) {s : State} (hs : s.Canonical) :
    (loadCartridge v cfg eager s).Canonical := by
  have hentry := loadEntry_canonical hs
  cases hd : s.draws.bank0FetchOk with
  | false => rw [loadCartridge_failed hd]; exact hentry.congr rfl rfl rfl rfl
  | true =>
    rw [loadCartridge_fetched hd]
    have hemit : ((loadEntry s).emit (.fetch 0 16384 true)).Canonical := hentry.congr rfl rfl rfl rfl
    refine (select_canonical (freshCart_canonical v cfg hs.payload) (hemit.withSlots fun x hx o ho => ?_)).respond _
    obtain ⟨-, -, rfl⟩ := List.mem_map.1 hx
    cases ho

/-! ## Requests and steps -/

theorem CpuEffect.canonical {s t : State} (hs : s.Canonical) (h : CpuEffect s t) : t.Canonical := by
  cases h with
  | answer r => exact hs.respond r
  | latch c m hc => exact (hs.withCart ((hs.cart c hc).withMbc m)).respond _
  | store c k d hc he hk => exact (hs.withCart ((hs.cart c hc).store hk d)).respond _
  | select c b hc => exact (select_canonical ((hs.cart c hc).withMbc _) hs).respond _
  | unmapped => exact hs.sentinelRom
  | refetched c b r hc => exact (cacheGet_canonical (hs.cart c hc) b hs).respond r
  | degraded c b hc => exact (cacheGet_canonical (hs.cart c hc) b hs).sentinelRom

theorem HostEffect.canonical {i : Instr} {s t : State} (hs : s.Canonical) (h : HostEffect i s t) : t.Canonical := by
  cases h with
  | answer r => exact hs.respond r
  | invalid r => exact hs.congr rfl rfl rfl rfl
  | load v shift code eager => exact loadCartridge_canonical v _ eager hs
  | unload => exact (unloadEffects_canonical hs).respond _
  | get c b r hf hc => exact (cacheGet_canonical (hs.cart c hc) b hs).respond r
  | evict => exact (hs.withSlots ((PoolStep.freeExcept _ _).occupants hs.slots)).respond _
  | store c src hf hc hl => exact (hs.withCart ((hs.cart c hc).storeBytes hl)).respond _

/-- What waits behind the request being served is in canonical form. -/
theorem State.Canonical.rest {s : State} (h : s.Canonical) {a : Arrival} {rest : List Arrival} (hs : s.arrivals = a :: rest) :
    ∀ x ∈ rest, x.Canonical :=
  fun x hx => h.arrivals x (by rw [hs]; exact List.mem_cons_of_mem a hx)

/-- Settles O14: every write of a buffer is a canonical one, and every RAM write stays below `ramSizeBytes`. -/
theorem stepKeepsBuffersCanonical : Obligations.StepKeepsBuffersCanonical := by
  intro s t hs h
  rcases step_cases h with ⟨-, rfl⟩ | ⟨rest, ha, rfl⟩ | ⟨we, a, d, dr, rest, ha, rfl⟩ | ⟨we, a, d, dr, rest, ha, -, -, he⟩ |
    ⟨w, p, dr, rest, ha, -, he⟩
  · exact hs
  · have hrest : State.Canonical { s with arrivals := rest } := { hs with arrivals := hs.rest ha }
    exact hrest.emptied rfl (fun _ hx => occupant_of_mem_map_free hx) rfl rfl
  · exact { hs with arrivals := hs.rest ha }
  · have hl : (s.latchCpu rest dr).Canonical := { hs with arrivals := hs.rest ha }
    exact he.canonical hl
  · have hp : p.Canonical := hs.arrivals (.host w p dr) (by rw [ha]; exact List.mem_cons_self)
    have hl : (s.latchHost rest p dr).Canonical := { hs with payload := hp, arrivals := hs.rest ha }
    exact he.canonical hl

end Sys2Proof.Machine
end

section
/-! The states after RESET, the runs from them, and what a step keeps of the load (R26, R30, R44, R64). -/

namespace Sys2Proof.Machine

/-! ## After RESET (R43, R220) -/

theorem resetOf_sound {n : Nat} (hn : 1 ≤ n) : (State.resetOf n).Sound where
  pool := PoolSound.ofEmpty (by simpa [State.resetOf] using hn) fun x hx => by
    obtain ⟨-, rfl⟩ := List.mem_replicate.1 hx
    exact ⟨rfl, rfl⟩
  cart _ hc := nomatch hc
  unloaded _ _ hx := (List.mem_replicate.1 hx).2
  fatal hf := nomatch hf

theorem resetOf_canonical (n : Nat) : (State.resetOf n).Canonical where
  cart _ hc := nomatch hc
  slots x hx o ho := by
    obtain ⟨-, rfl⟩ := List.mem_replicate.1 hx
    cases ho
  payload := ⟨Memory.wf_nil, Memory.wf_nil⟩
  arrivals _ ha := nomatch ha

/-- Settles O11: the values are those `State.resetOf` writes, for the pool as for any other. -/
theorem resetStateHoldsTheValuesOfR43 : Obligations.ResetStateHoldsTheValuesOfR43 :=
  ⟨rfl, rfl, rfl, rfl, rfl, rfl, rfl, fun _ hx => (List.mem_replicate.1 hx).2⟩

/-- Settles O12: nothing is loaded and every slot is free. -/
theorem resetStateIsSound : Obligations.ResetStateIsSound := fun n hn => ⟨resetOf_sound hn, resetOf_canonical n⟩

/-! ## Runs -/

theorem run_succ {M : Host.Core} {k : Nat} {s t : M.State} (h : M.run (k + 1) s = .next t) :
    ∃ u, M.step s = .next u ∧ M.run k u = .next t := by
  rw [Host.Core.run] at h
  split at h
  · exact ⟨_, ‹_›, h⟩
  · cases h
  · cases h

/-- What every step keeps holds after any number of steps. -/
theorem run_keeps {M : Host.Core} {P : M.State → Prop} (hstep : ∀ s t, P s → M.step s = .next t → P t) (k : Nat) {s t : M.State}
    (hs : P s) (h : M.run k s = .next t) : P t := by
  induction k generalizing s with
  | zero => cases h; exact hs
  | succ k ih =>
    obtain ⟨u, hu, hrest⟩ := run_succ h
    exact ih (hstep s u hs hu) hrest

/-- A run from reset keeps the invariant of R42 and the pool's size. -/
theorem run_resetOf_sound {n : Nat} (hn : 1 ≤ n) {stream : List Arrival} {steps : Nat} {s : State}
    (h : core.run steps { State.resetOf n with arrivals := stream } = .next s) : s.Sound ∧ s.slots.length = n := by
  refine run_keeps (M := core) (P := fun s : State => s.Sound ∧ s.slots.length = n)
    (fun s t ⟨hs, hlen⟩ hst => ?_) steps ⟨?_, ?_⟩ h
  · exact ⟨stepKeepsTheInvariantOfR42 s t hs hst, (stepKeepsThePoolSize s t hst).trans hlen⟩
  · exact (resetOf_sound hn).congr rfl rfl rfl
  · exact List.length_replicate

/-- No more banks are resident than there are slots (INV3). -/
theorem residentBanks_le (slots : List Slot) : (slots.filterMap Slot.bank).dedup.length ≤ slots.length :=
  (List.dedup_sublist _).length_le.trans (List.length_filterMap_le _ _)

/-- Settles O15: the clauses are `State.Sound` read out at a state of a run, INV3 by counting the slots. -/
theorem reachedStatesMeetTheNineInvariants : Obligations.ReachedStatesMeetTheNineInvariants := by
  intro n stream steps s c hn hrun hc
  obtain ⟨hs, hlen⟩ := run_resetOf_sound hn hrun
  obtain ⟨hcs, hfaith⟩ := hs.cart c hc
  have hvalid : s.bank0Valid = true := by rw [State.bank0Valid, hc]; rfl
  exact ⟨fun i j b x y _ => hs.pool.oneHome i j x y b, hs.pool.notBank0, hlen ▸ residentBanks_le s.slots, ⟨hvalid, hcs.bank0⟩,
    hs.pool.allocated, fun x hx o ho => (hfaith x hx o ho).2, hs.pool.oneHot, ⟨hcs.romBank, hcs.ramBank, hcs.modeB⟩,
    fun b hb => (hcs.mapped b hb).1⟩

/-! ## The parts of the cartridge that a LOAD fixes -/

/-- `c'` is of the same load as `c`: configuration, variant, image and bank-0 buffer agree. -/
def Cart.SameLoad (c c' : Cart) : Prop :=
  c'.cfg = c.cfg ∧ c'.mbc.mapperVariant = c.mbc.mapperVariant ∧ c'.romImage = c.romImage ∧ c'.bank0 = c.bank0

theorem Cart.SameLoad.refl (c : Cart) : c.SameLoad c := ⟨rfl, rfl, rfl, rfl⟩

/-- The loaded cartridge, if it is still there, is of the same load. -/
def KeepsLoad (s t : State) : Prop := ∀ c c', s.cart = some c → t.cart = some c' → c.SameLoad c'

theorem KeepsLoad.of_cart_eq {s t : State} (h : t.cart = s.cart) : KeepsLoad s t := fun c c' hc hc' => by
  rw [h, hc] at hc'
  cases hc'
  exact .refl c

theorem KeepsLoad.of_sameLoad {s t : State} {c c' : Cart} (hc : s.cart = some c) (ht : t.cart = some c') (h : c.SameLoad c') :
    KeepsLoad s t := fun d d' hd hd' => by
  cases hc.symm.trans hd
  cases ht.symm.trans hd'
  exact h

theorem CpuEffect.keepsLoad {s t : State} (h : CpuEffect s t) : KeepsLoad s t := by
  cases h with
  | answer => exact .of_cart_eq rfl
  | latch c m hc hb hv => exact .of_sameLoad hc rfl ⟨rfl, hv, rfl, rfl⟩
  | store c k d hc => exact .of_sameLoad hc rfl (.refl c)
  | select c b hc =>
    rw [selectBank, select_eq]
    exact .of_sameLoad hc rfl (.refl c)
  | unmapped => exact .of_cart_eq (sentinelRom_cart s)
  | refetched c b r => exact .of_cart_eq (cacheGet_cart c b s)
  | degraded c b => exact .of_cart_eq ((sentinelRom_cart _).trans (cacheGet_cart c b s))

theorem HostEffect.keepsLoad {i : Instr} {s t : State} (h : HostEffect i s t) :
    (∃ v shift code eager, i = .load v shift code eager) ∨ KeepsLoad s t := by
  cases h with
  | load v shift code eager hi => exact .inl ⟨v, shift, code, eager, hi⟩
  | answer => exact .inr (.of_cart_eq rfl)
  | invalid => exact .inr (.of_cart_eq rfl)
  | unload => exact .inr fun _ _ _ h => nomatch h
  | get c b r => exact .inr (.of_cart_eq (cacheGet_cart c b s))
  | evict => exact .inr (.of_cart_eq rfl)
  | store c src hf hc => exact .inr (.of_sameLoad hc rfl (.refl c))

/-- Settles O21: of the effects of a request only a LOAD's replaces the cartridge; UNLOAD and RESET leave none. -/
theorem onlyLoadChangesTheCartridge : Obligations.OnlyLoadChangesTheCartridge := by
  intro s t c c' h hc hc'
  rcases step_cases h with ⟨-, rfl⟩ | ⟨rest, -, rfl⟩ | ⟨we, a, d, dr, rest, -, rfl⟩ | ⟨we, a, d, dr, rest, -, -, -, he⟩ |
    ⟨w, p, dr, rest, ha, -, he⟩
  · exact .inr (KeepsLoad.of_cart_eq rfl c c' hc hc')
  · cases hc'
  · exact .inr (KeepsLoad.of_cart_eq (t := { s with arrivals := rest }) rfl c c' hc hc')
  · exact .inr (he.keepsLoad c c' hc hc')
  · rcases he.keepsLoad with ⟨v, shift, code, eager, hi⟩ | hk
    · exact .inl ⟨w, p, dr, rest, v, shift, code, eager, ha, hi⟩
    · exact .inr (hk c c' hc hc')

end Sys2Proof.Machine
end

section
/-! A successful LOAD (R172, R43): the pool it initialises, CACHE_GET on that pool, and the initial SELECT. -/

namespace Sys2Proof.Machine

/-! ## SELECT field by field (R121) -/

@[simp] theorem select_fatal (c : Cart) (s : State) : (select c s).fatal = s.fatal := by simp [select_eq]
@[simp] theorem select_romLogged (c : Cart) (s : State) : (select c s).romLogged = s.romLogged := by simp [select_eq]
@[simp] theorem select_arrivals (c : Cart) (s : State) : (select c s).arrivals = s.arrivals := by simp [select_eq]
@[simp] theorem select_payload (c : Cart) (s : State) : (select c s).payload = s.payload := by simp [select_eq]
@[simp] theorem select_draws (c : Cart) (s : State) : (select c s).draws = s.draws := by simp [select_eq]

/-- The bank SELECT maps, by CACHE_GET's answer. -/
def mappingAfter (c : Cart) : GetResult → Option Nat
  | .bank0 => some 0
  | .slot _ _ => some c.mbc.currentRomBank.toNat
  | .null => c.mappedBank

theorem select_of_cacheGet {c : Cart} {s s1 : State} {g : GetResult} (h : cacheGet c c.mbc.currentRomBank.toNat s = (g, s1)) :
    select c s = s1.withCart { c with mappedBank := mappingAfter c g } := by
  rw [select_eq, h]
  rfl

theorem select_cart (c : Cart) (s : State) :
    (select c s).cart = some { c with mappedBank := mappingAfter c (cacheGet c c.mbc.currentRomBank.toNat s).1 } := by
  rw [select_eq, State.withCart_cart]
  rfl

/-! ## The pool after INIT_POOL (R152) -/

/-- A slot without an occupant, of recency 0. -/
def vacantSlot (allocated : Bool) : Slot := { allocated := allocated, occupant := none, recency := 0 }

theorem touched_vacantSlot (al : Bool) : (vacantSlot al).touched false = vacantSlot al := rfl

/-- Among equal slots the victim is slot 0 (R144). -/
theorem victim_replicate (n : Nat) (x : Slot) : victim (List.replicate (n + 1) x) = 0 := by
  obtain ⟨y, hy, -, hbefore⟩ := victim_spec (List.replicate (n + 1) x) (by simp)
  by_contra hne
  have hlt := hbefore 0 x (Nat.pos_of_ne_zero hne) rfl
  obtain ⟨-, rfl⟩ := List.mem_replicate.1 (List.mem_of_getElem? hy)
  omega

theorem lookup_replicate_vacantSlot (b n : Nat) (al : Bool) : lookup b (List.replicate n (vacantSlot al)) = none :=
  lookup_of_not_resident fun x hx => by
    obtain ⟨-, rfl⟩ := List.mem_replicate.1 hx
    nofun

/-- Eviction has nothing to free where no slot owns a buffer. -/
theorem freeExcept_replicate_vacantSlot (keep : Option Nat) (j n : Nat) :
    freeExcept keep j (List.replicate n (vacantSlot false)) = List.replicate n (vacantSlot false) := by
  induction n generalizing j with
  | zero => rfl
  | succ n ih =>
    rw [List.replicate_succ, freeExcept, ih]
    rfl

theorem allocate_zero_cons (x : Slot) (rest : List Slot) : allocate 0 (x :: rest) = { x with allocated := true } :: rest := rfl

/-- Filling and touching slot 0 leaves vacant slots behind it as they are: their recency is at the floor. -/
theorem touch_fill_zero_cons (b : Nat) (data : Memory) (x : Slot) (n : Nat) (al : Bool) :
    touch 0 (fill 0 b data (x :: List.replicate n (vacantSlot al))) =
      { x with occupant := some { bank := b, data := data }, recency := 255 } :: List.replicate n (vacantSlot al) := by
  change _ :: (List.replicate n (vacantSlot al)).map (Slot.touched false) = _
  rw [List.map_replicate, touched_vacantSlot]
  rfl

/-- Does the victim of a fresh pool own a buffer, or get one (R145)? -/
def bufferGranted (eager : Bool) (dr : Draws) : Bool := eager || dr.allocOk || dr.allocRetryOk

theorem bufferGranted_iff {eager : Bool} {dr : Draws} :
    bufferGranted eager dr = true ↔ eager = true ∨ dr.allocOk = true ∨ dr.allocRetryOk = true := by
  simp [bufferGranted, or_assoc]

/-- ENSURE_BUFFER on a fresh pool changes slot 0 at most. -/
theorem ensureBuffer_vacant {s : State} {n : Nat} {eager : Bool} (h : s.slots = List.replicate (n + 1) (vacantSlot eager)) :
    ensureBuffer 0 s = (bufferGranted eager s.draws,
      s.withSlots (vacantSlot (bufferGranted eager s.draws) :: List.replicate n (vacantSlot eager))) := by
  have halloc : slotAllocated 0 s.slots = eager := by rw [h]; rfl
  have evicted (hal : eager = false) : freeExcept (hottest s.slots) 0 s.slots = List.replicate (n + 1) (vacantSlot false) := by
    rw [h, hal, freeExcept_replicate_vacantSlot]
  rcases ensureBuffer_cases 0 s with ⟨ha, e⟩ | ⟨ha, hd, e⟩ | ⟨ha, hd, hr, e⟩ | ⟨ha, hd, hr, e⟩ <;> rw [halloc] at ha <;> subst ha
  · have hg : bufferGranted true s.draws = true := rfl
    rw [e, hg, ← List.replicate_succ, ← h]
    rfl
  · have hg : bufferGranted false s.draws = true := by simp [bufferGranted, hd]
    rw [e, hg, h, List.replicate_succ, allocate_zero_cons]
    rfl
  · have hg : bufferGranted false s.draws = true := by simp [bufferGranted, hr]
    rw [e, hg, evicted rfl, List.replicate_succ, allocate_zero_cons]
    rfl
  · have hg : bufferGranted false s.draws = false := by simp [bufferGranted, hd, hr]
    rw [e, hg, evicted rfl, List.replicate_succ]

/-! ## CACHE_GET on the fresh pool: no buffer, a failed fetch, or slot 0 filled (R147) -/

section
variable {c : Cart} {b : Nat} {s : State} {n : Nat} {eager : Bool}

theorem cacheGet_vacant (hb : b ≠ 0) (h : s.slots = List.replicate (n + 1) (vacantSlot eager)) : cacheGet c b s = miss c b s :=
  cacheGet_miss c b s hb (by rw [h]; exact lookup_replicate_vacantSlot b (n + 1) eager)

theorem victim_vacant (h : s.slots = List.replicate (n + 1) (vacantSlot eager)) : victim s.slots = 0 := by rw [h, victim_replicate]

theorem cacheGet_vacant_noBuffer (hb : b ≠ 0) (h : s.slots = List.replicate (n + 1) (vacantSlot eager))
    (hg : bufferGranted eager s.draws = false) :
    cacheGet c b s = (.null, (s.withSlots (vacantSlot false :: List.replicate n (vacantSlot eager))).raise .allocationFailed) := by
  have he := ensureBuffer_vacant h
  rw [hg] at he
  rw [cacheGet_vacant hb h, miss, victim_vacant h]
  simp only [he]

theorem cacheGet_vacant_fetch (hb : b ≠ 0) (h : s.slots = List.replicate (n + 1) (vacantSlot eager))
    (hg : bufferGranted eager s.draws = true) :
    cacheGet c b s =
      if s.draws.bankFetchOk then
        (.slot 0 (c.romImage.slice (b * 16384) 16384), (s.emit (.fetch (b * 16384) 16384 true)).withSlots
          ({ allocated := true, occupant := some { bank := b, data := c.romImage.slice (b * 16384) 16384 }, recency := 255 } ::
            List.replicate n (vacantSlot eager)))
      else
        (.null, ((s.withSlots (vacantSlot true :: List.replicate n (vacantSlot eager))).emit
          (.fetch (b * 16384) 16384 false)).raise .bankFetchFailed) := by
  have he := ensureBuffer_vacant h
  rw [hg, ← victim_vacant h] at he
  rw [cacheGet_vacant hb h, miss_of_buffer he, victim_vacant h, touch_fill_zero_cons]
  rfl

/-- CACHE_GET changes no slot of a fresh pool but slot 0. -/
theorem cacheGet_vacant_tail (h : s.slots = List.replicate (n + 1) (vacantSlot eager)) :
    ∃ x, (cacheGet c b s).2.slots = x :: List.replicate n (vacantSlot eager) := by
  by_cases hb : b = 0
  · subst hb
    exact ⟨_, h⟩
  · cases hg : bufferGranted eager s.draws with
    | false =>
      rw [cacheGet_vacant_noBuffer hb h hg]
      exact ⟨_, rfl⟩
    | true =>
      rw [cacheGet_vacant_fetch hb h hg]
      split <;> exact ⟨_, rfl⟩

/-! ## The outcomes of the initial SELECT (R121, R172) -/

/-- With bank 0 selected, SELECT maps it and changes nothing. -/
theorem select_vacant_bank0 (h : s.slots = List.replicate (n + 1) (vacantSlot eager)) (hb : c.mbc.currentRomBank.toNat = 0) :
    mappingAfter c (cacheGet c c.mbc.currentRomBank.toNat s).1 = some 0 ∧ (select c s).lastError = s.lastError ∧
      (select c s).events = s.events ∧ (select c s).slots[0]? = some (vacantSlot eager) := by
  have e : cacheGet c c.mbc.currentRomBank.toNat s = (.bank0, s) := by rw [hb, cacheGet_zero]
  rw [select_of_cacheGet e, e, State.withCart_slots, h]
  exact ⟨rfl, rfl, rfl, rfl⟩

/-- With bank 1 selected and fetched, SELECT fills slot 0 and maps the bank. -/
theorem select_vacant_filled (h : s.slots = List.replicate (n + 1) (vacantSlot eager)) (hb : c.mbc.currentRomBank.toNat = 1)
    (hg : bufferGranted eager s.draws = true) (hf : s.draws.bankFetchOk = true) :
    mappingAfter c (cacheGet c c.mbc.currentRomBank.toNat s).1 = some 1 ∧ (select c s).lastError = s.lastError ∧
      (select c s).events = s.events ++ [.fetch 16384 16384 true] ∧
      (select c s).slots[0]? =
        some { allocated := true, occupant := some { bank := 1, data := c.romImage.slice 16384 16384 }, recency := 255 } := by
  have e := cacheGet_vacant_fetch (c := c) (b := 1) (by decide) h hg
  rw [if_pos hf, ← hb] at e
  rw [select_of_cacheGet e, e, mappingAfter, hb]
  exact ⟨rfl, rfl, rfl, rfl⟩

/-- With bank 1 selected and its fetch failed, SELECT leaves slot 0 its buffer, and the mapping as it was. -/
theorem select_vacant_fetchFailed (h : s.slots = List.replicate (n + 1) (vacantSlot eager)) (hb : c.mbc.currentRomBank.toNat = 1)
    (hg : bufferGranted eager s.draws = true) (hf : s.draws.bankFetchOk = false) :
    mappingAfter c (cacheGet c c.mbc.currentRomBank.toNat s).1 = c.mappedBank ∧ (select c s).lastError = 2 ∧
      (select c s).events = s.events ++ [.fetch 16384 16384 false] ∧ (select c s).slots[0]? = some (vacantSlot true) := by
  have e := cacheGet_vacant_fetch (c := c) (b := 1) (by decide) h hg
  rw [if_neg (by simp [hf]), ← hb] at e
  rw [select_of_cacheGet e, e, hb]
  exact ⟨rfl, rfl, rfl, rfl⟩

/-- With bank 1 selected and no buffer to be had, SELECT records the error alone. -/
theorem select_vacant_noBuffer (h : s.slots = List.replicate (n + 1) (vacantSlot eager)) (hb : c.mbc.currentRomBank.toNat = 1)
    (hg : bufferGranted eager s.draws = false) :
    mappingAfter c (cacheGet c c.mbc.currentRomBank.toNat s).1 = c.mappedBank ∧ (select c s).lastError = 3 ∧
      (select c s).events = s.events ∧ (select c s).slots[0]? = some (vacantSlot false) := by
  have e := cacheGet_vacant_noBuffer (c := c) (b := 1) (by decide) h hg
  rw [← hb] at e
  rw [select_of_cacheGet e, e]
  exact ⟨rfl, rfl, rfl, rfl⟩

/-- SELECT leaves every slot of a fresh pool behind slot 0 as it was. -/
theorem select_vacant_tail (h : s.slots = List.replicate (n + 1) (vacantSlot eager)) {j : Nat} {x : Slot} (hj : 1 ≤ j)
    (hx : (select c s).slots[j]? = some x) : x = vacantSlot eager := by
  obtain ⟨y, hy⟩ := cacheGet_vacant_tail (c := c) (b := c.mbc.currentRomBank.toNat) h
  obtain ⟨i, rfl⟩ := Nat.exists_eq_add_of_le' hj
  rw [select_slots, hy, List.getElem?_cons_succ] at hx
  exact (List.mem_replicate.1 (List.mem_of_getElem? hx)).2

end

/-! ## LOAD (R172) -/

/-- The state on which a successful LOAD runs its initial SELECT. -/
def State.loadedPool (s : State) (eager : Bool) : State :=
  { s with
    cart := none, lastError := 0, romLogged := false, slots := List.replicate s.slots.length (vacantSlot eager)
    events := s.events ++ [.fetch 0 16384 true] }

/-- A valid LOAD whose bank-0 fetch is OK runs the initial SELECT of the fresh cartridge and answers OK. -/
theorem exec_load_fetched {s : State} (hs : s.Sound) (hf : s.fatal = false) (v : Variant) {shift code : BitVec 4} (eager : Bool)
    (hv : loadValid code (loadCfgOf shift code s.payload.op1) = true) (hd : s.draws.bank0FetchOk = true) :
    exec (.load v shift code eager) s = .next
      ((select (freshCart v (loadCfgOf shift code s.payload.op1) (s.payload.romImage.slice 0 16384) s.payload)
        (s.loadedPool eager)).respond (.host .ok .empty)) := by
  change hostServe s _ = _
  rw [hostServe_ok hf, if_pos hv, loadCartridge_eq hs, if_pos hd, hd]
  rfl

theorem loadCfgOf_eq (shift code : BitVec 4) (op1 : BitVec 32) :
    loadCfgOf shift code op1 =
      { totalBanks := 2 ^ shift.toNat, ramBanks := if code.toNat = 0 then 0 else 2 ^ (code.toNat - 1), ramSizeBytes := op1.toNat } := by
  rw [loadCfgOf, ramBanksOf_eq, totalBanksOf, Nat.shiftLeft_eq, Nat.one_mul]

theorem freshCart_mbc (v : Variant) (shift code : BitVec 4) (op1 : BitVec 32) (bank0 : Memory) (p : Payload) :
    (freshCart v (loadCfgOf shift code op1) bank0 p).mbc =
      { currentRomBank := BitVec.ofNat 7 (1 % 2 ^ shift.toNat), currentRamBank := 0, ramEnabled := false
        bankingModeSelect := false, mapperVariant := v } := by
  rw [loadCfgOf_eq]
  rfl

theorem Memory.read_slice_zero {m : Memory} {len k : Nat} (hk : k < len) : (m.slice 0 len).read k = m.read k := by
  rw [Memory.read_slice, if_pos hk, Nat.zero_add]

/-- The bank selected after LOAD: 1, masked by the number of banks (R43). -/
theorem freshCart_romBank (v : Variant) (shift code : BitVec 4) (op1 : BitVec 32) (bank0 : Memory) (p : Payload) :
    (freshCart v (loadCfgOf shift code op1) bank0 p).mbc.currentRomBank.toNat = if shift = 0 then 0 else 1 := by
  rw [freshCart_mbc]
  by_cases h : shift = 0
  · subst h
    rfl
  · have hpos : shift.toNat ≠ 0 := fun e => h (BitVec.eq_of_toNat_eq e)
    rw [if_neg h, Nat.mod_eq_of_lt (Nat.one_lt_two_pow hpos)]
    rfl

/-- Settles O52: the frame of SELECT over the fresh cartridge and pool, and CACHE_GET of the selected bank on that pool. -/
theorem successfulLoadLeavesTheValuesOfR43 : Obligations.SuccessfulLoadLeavesTheValuesOfR43 := by
  intro s v shift code eager hs hf hcode hnoRam hram hd
  have hvalid := (loadValid_iff shift code s.payload.op1).2 ⟨hcode, hnoRam, hram⟩
  obtain ⟨n, hn⟩ : ∃ n, s.slots.length = n + 1 := Nat.exists_eq_add_one.2 hs.pool.nonempty
  have hpool : (s.loadedPool eager).slots = List.replicate (n + 1) (vacantSlot eager) := by rw [State.loadedPool, hn]
  have hbank := freshCart_romBank v shift code s.payload.op1 (s.payload.romImage.slice 0 16384) s.payload
  have hmbc := freshCart_mbc v shift code s.payload.op1 (s.payload.romImage.slice 0 16384) s.payload
  have hsound := freshCart_sound v (loadCfgOf_valid hvalid) s.payload
  have bankOne (h : shift ≠ 0) := hbank.trans (if_neg h)
  refine ⟨_, _, exec_load_fetched hs hf v eager hvalid hd, select_cart _ _, rfl, (select_fatal _ _).trans hf, select_romLogged _ _,
    select_arrivals _ _, select_payload _ _, select_draws _ _, loadCfgOf_eq _ _ _, hmbc, rfl, hsound.bank0,
    fun k hk => Memory.read_slice_zero hk, (select_poolSize _ _).trans List.length_replicate,
    fun j x hj hx => select_vacant_tail hpool hj hx, fun h0 => ?_,
    fun h1 hgrant => ⟨fun hfetch => ?_, fun hfetch => ?_⟩, fun h1 heager halloc hretry => ?_⟩
  · exact select_vacant_bank0 hpool (hbank.trans (if_pos h0))
  · obtain ⟨hmap, herr, hev, hslot⟩ := select_vacant_filled hpool (bankOne h1) (bufferGranted_iff.2 hgrant) hfetch
    exact ⟨hmap, herr, hev.trans (List.append_assoc _ _ _), _, hslot, fun k hk => read_fetched _ 1 k hk⟩
  · obtain ⟨hmap, herr, hev, hslot⟩ := select_vacant_fetchFailed hpool (bankOne h1) (bufferGranted_iff.2 hgrant) hfetch
    exact ⟨hmap, herr, hev.trans (List.append_assoc _ _ _), hslot⟩
  · subst heager
    exact select_vacant_noBuffer hpool (bankOne h1) (by simp [State.loadedPool, bufferGranted, halloc, hretry])

end Sys2Proof.Machine
end

section
/-! The ROM window of a mapped bank (R56, R103, R107): what RESOLVE can answer, and the byte each answer gives the read. -/

namespace Sys2Proof.Machine

/-! ## When CACHE_GET finds no buffer (R145, R147) -/

/-- ENSURE_BUFFER fails only when its retry after remediation fails. -/
theorem ensureBuffer_false {v : Nat} {s t : State} (h : ensureBuffer v s = (false, t)) : s.draws.allocRetryOk = false := by
  rcases ensureBuffer_cases v s with ⟨-, e⟩ | ⟨-, -, e⟩ | ⟨-, -, -, e⟩ | ⟨-, -, hretry, -⟩
  · cases e.symm.trans h
  · cases e.symm.trans h
  · cases e.symm.trans h
  · exact hretry

theorem miss_null {c : Cart} {b : Nat} {s : State} (h : (miss c b s).1 = .null) :
    s.draws.bankFetchOk = false ∨ s.draws.allocRetryOk = false := by
  rcases miss_cases c b s with ⟨q, he, -, -⟩ | ⟨q, -, -, hfetch, -⟩ | ⟨q, -, -, -, e⟩
  · exact .inr (ensureBuffer_false he)
  · exact .inl hfetch
  · rw [e] at h
    cases h

/-! ## What RESOLVE answers (R103) -/

/-- Over faithful slots RESOLVE answers bank 0's buffer, a slot with the bank's bytes, or, of a bank LOOKUP does not find, no
buffer after a failed fetch or a failed retry. -/
theorem resolve_answer {c : Cart} {s : State} (hf : ∀ x ∈ s.slots, x.Faithful c) (b : Nat) :
    (b = 0 ∧ (resolve c b s).1 = .bank0) ∨
    (∃ i data, (resolve c b s).1 = .slot i data ∧ ∀ k, k < 16384 → data.read k = c.romImage.read (b * 16384 + k)) ∨
    (b ≠ 0 ∧ lookup b s.slots = none ∧ (s.draws.bankFetchOk = false ∨ s.draws.allocRetryOk = false) ∧
      (resolve c b s).1 = .null) := by
  rcases resolve_cases c b s with ⟨hb, e⟩ | ⟨hb, i, data, hl, e⟩ | ⟨hb, hl, e⟩ <;> rw [e]
  · exact .inl ⟨hb, rfl⟩
  · exact .inr (.inl ⟨i, data, rfl, cacheGet_data c b s hf (congrArg Prod.fst (cacheGet_hit c b s hb hl))⟩)
  · cases hg : (cacheGet c b s).1 with
    | bank0 => exact absurd hg (cacheGet_ne_bank0 c b s hb)
    | slot i data => exact .inr (.inl ⟨i, data, rfl, cacheGet_data c b s hf hg⟩)
    | null =>
      rw [cacheGet_miss c b s hb hl] at hg
      exact .inr (.inr ⟨hb, hl, miss_null hg, rfl⟩)

/-! ## The answer to the read (R107) -/

section
variable {c : Cart} {off : Nat} {r : GetResult × State}

theorem answerRomx_bank0 (h : r.1 = .bank0) : answerRomx c off r = r.2.respond (.byte (c.bank0.read off)) := by
  obtain ⟨g, s⟩ := r
  cases h
  rfl

theorem answerRomx_slot {i : Nat} {data : Memory} (h : r.1 = .slot i data) :
    answerRomx c off r = r.2.respond (.byte (data.read off)) := by
  obtain ⟨g, s⟩ := r
  cases h
  rfl

theorem answerRomx_null (h : r.1 = .null) : answerRomx c off r = sentinelRom r.2 := by
  obtain ⟨g, s⟩ := r
  cases h
  rfl

end

theorem readRomWindow_mapped {c : Cart} {b : Nat} (hm : c.mappedBank = some b) (off : Nat) (s : State) :
    readRomWindow c off s = answerRomx c off (resolve c b s) := by simp only [readRomWindow, hm]

theorem exec_rdRomx_loaded {s : State} {c : Cart} (hf : s.fatal = false) (hc : s.cart = some c) (v : Variant) (off : BitVec 14)
    (d : Byte) : exec (.rdRomx v off d) s = .next (readRomWindow c off.toNat s) :=
  cpuServe_loaded hf hc _ _

/-- Settles O23, by what RESOLVE answers for the mapped bank. -/
theorem romWindowShowsTheMappedBank : Obligations.RomWindowShowsTheMappedBank := by
  intro s c b v off d hs hc hm
  obtain ⟨hcart, hfaithful⟩ := hs.cart c hc
  refine ⟨_, exec_rdRomx_loaded (hs.not_fatal hc) hc v off d, ?_⟩
  rw [readRomWindow_mapped hm]
  rcases resolve_answer hfaithful b with ⟨rfl, hbank0⟩ | ⟨i, data, hslot, hdata⟩ | ⟨hb, hl, hdraws, hnull⟩
  · left
    rw [answerRomx_bank0 hbank0, State.respond_response, hcart.bank0 _ off.isLt, Nat.zero_mul, Nat.zero_add]
  · left
    rw [answerRomx_slot hslot, State.respond_response, hdata _ off.isLt]
  · right
    rw [answerRomx_null hnull]
    exact ⟨hb, hs.pool.not_resident hl, hdraws, sentinelRom_response _, sentinelRom_romLogged _⟩

end Sys2Proof.Machine
end

section
/-! The two request formats (R70): a request's word decodes to the request, and a word decodes to a request whose word it is. -/

namespace Sys2Proof

/-! ## CPU keys (R71, R73) -/

theorem decodeKey_rdRomx (v : Variant) (off : BitVec 14) (d : Byte) : decodeKey (key14 v false 0b01#2 off d) = .rdRomx v off d := by
  rw [decodeKey_key14]
  cases (key14 v false 0b01#2 off d).getLsbD 21 <;> rfl

theorem decodeKey_passRom0Rd (v : Variant) (a : BitVec 14) (d : Byte) :
    decodeKey (key14 v false 0b00#2 a d) = .passRom0Rd v a d := by
  rw [decodeKey_key14]
  cases (key14 v false 0b00#2 a d).getLsbD 21 <;> rfl

/-- A CPU request's word is the word of a key that decodes to it. -/
theorem encode_cpu {i : Instr} (hp : i.port = .cpu) : ∃ k : CpuKey, encode i = k.zeroExtend 32 ∧ decodeKey k = i := by
  cases i with
  | wrARamen a d => exact ⟨_, rfl, decodeKey_key13 ..⟩
  | wrARomlo a d => exact ⟨_, rfl, decodeKey_key13 ..⟩
  | wrAHigh a d => exact ⟨_, rfl, decodeKey_key13 ..⟩
  | wrAMode a d => exact ⟨_, rfl, decodeKey_key13 ..⟩
  | wrBRamen a d => exact ⟨_, rfl, decodeKey_key13 ..⟩
  | wrBRomsel a d => exact ⟨_, rfl, decodeKey_key13 ..⟩
  | wrBRamsel a d => exact ⟨_, rfl, decodeKey_key13 ..⟩
  | wrBLatch a d => exact ⟨_, rfl, decodeKey_key13 ..⟩
  | rdRomx v off d => exact ⟨_, rfl, decodeKey_rdRomx v off d⟩
  | rdRam v woff d => exact ⟨_, rfl, decodeKey_key13 ..⟩
  | wrRam v woff d => exact ⟨_, rfl, decodeKey_key13 ..⟩
  | passRom0Rd v a d => exact ⟨_, rfl, decodeKey_passRom0Rd v a d⟩
  | pass8000 v we a d => exact ⟨_, rfl, decodeKey_pass8000 v we a d⟩
  | passC000 v we a d => exact ⟨_, rfl, decodeKey_passC000 v we a d⟩
  | load _ _ _ _ => cases hp
  | unload => cases hp
  | getRomBank _ => cases hp
  | pressureEvict => cases hp
  | sramExport => cases hp
  | sramImport => cases hp
  | readStatus => cases hp
  | readMbc => cases hp
  | readSlot _ => cases hp
  | hostReserved _ => cases hp

/-- A key is assembled from its top three address bits and the rest of its fields (R73, R75). -/
theorem key13_fields (k : CpuKey) :
    key13 (keyVariant k) (keyWrite k) (k.extractLsb' 21 3) (keyOffset13 k) (keyData k) = k := by
  have haddr : k.extractLsb' 21 3 ++ keyOffset13 k = keyAddr k := BitVec.extractLsb'_append_extractLsb'_eq_extractLsb' rfl
  rw [key13, haddr, assembleKey_fields]

theorem key14_fields (k : CpuKey) :
    key14 (keyVariant k) (keyWrite k) (k.extractLsb' 22 2) (keyOffset14 k) (keyData k) = k := by
  have haddr : k.extractLsb' 22 2 ++ keyOffset14 k = keyAddr k := BitVec.extractLsb'_append_extractLsb'_eq_extractLsb' rfl
  rw [key14, haddr, assembleKey_fields]

/-- A key from its row of R73 (`we` and A[15:13]) and the bits the row leaves free. -/
theorem key13_of_row {k : CpuKey} {we : Bool} {top : BitVec 3} (hw : keyWrite k = we) (h15 : k.getLsbD 23 = top.getLsbD 2)
    (h14 : k.getLsbD 22 = top.getLsbD 1) (h13 : k.getLsbD 21 = top.getLsbD 0) :
    key13 (keyVariant k) we top (keyOffset13 k) (keyData k) = k := by
  have htop : k.extractLsb' 21 3 = top := by
    apply BitVec.eq_of_getLsbD_eq
    intro i hi
    rw [BitVec.getLsbD_extractLsb']
    interval_cases i <;> simpa
  rw [← hw, ← htop, key13_fields]

theorem key14_of_row {k : CpuKey} {we : Bool} {top : BitVec 2} (hw : keyWrite k = we) (h15 : k.getLsbD 23 = top.getLsbD 1)
    (h14 : k.getLsbD 22 = top.getLsbD 0) : key14 (keyVariant k) we top (keyOffset14 k) (keyData k) = k := by
  have htop : k.extractLsb' 22 2 = top := by
    apply BitVec.eq_of_getLsbD_eq
    intro i hi
    rw [BitVec.getLsbD_extractLsb']
    interval_cases i <;> simpa
  rw [← hw, ← htop, key14_fields]

/-- A[15:13] of a register write (R73): A15 = 0, and A[14:13] picks the register. -/
def registerTop (a14 a13 : Bool) : BitVec 3 := 0#1 ++ BitVec.ofBool a14 ++ BitVec.ofBool a13

theorem registerTop_bits : ∀ a14 a13 : Bool,
    (registerTop a14 a13).getLsbD 2 = false ∧ (registerTop a14 a13).getLsbD 1 = a14 ∧ (registerTop a14 a13).getLsbD 0 = a13 := by
  decide

theorem encode_decodeRegisterWrite (v : Variant) (a14 a13 : Bool) (a : BitVec 13) (d : Byte) :
    encode (decodeRegisterWrite v a14 a13 a d) = (key13 v true (registerTop a14 a13) a d).zeroExtend 32 := by
  cases v <;> cases a14 <;> cases a13 <;> rfl

theorem encode_decodeKey (k : CpuKey) : encode (decodeKey k) = k.zeroExtend 32 := by
  rw [decodeKey]
  split
  next hw h15 =>
    obtain ⟨b15, b14, b13⟩ := registerTop_bits (k.getLsbD 22) (k.getLsbD 21)
    rw [encode_decodeRegisterWrite, key13_of_row hw (h15.trans b15.symm) b14.symm b13.symm]
  next hw h15 h14 => exact congrArg (BitVec.zeroExtend 32) (key14_of_row hw h15 h14)
  next hw h15 h14 => exact congrArg (BitVec.zeroExtend 32) (key14_of_row hw h15 h14)
  next h15 h14 h13 => exact congrArg (BitVec.zeroExtend 32) (key13_of_row rfl h15 h14 h13)
  next hw h15 h14 h13 => exact congrArg (BitVec.zeroExtend 32) (key13_of_row hw h15 h14 h13)
  next hw h15 h14 h13 => exact congrArg (BitVec.zeroExtend 32) (key13_of_row hw h15 h14 h13)
  next h15 h14 => exact congrArg (BitVec.zeroExtend 32) (key14_of_row rfl h15 h14)

/-- A word of the CPU port is the word of its low 26 bits. -/
theorem zeroExtend_extract_key {w : BitVec 32} (h : w >>> 26 = 0#32) : (w.extractLsb' 0 26).zeroExtend 32 = w := by
  have hlt : w.toNat / 2 ^ 26 = 0 := by simpa [Nat.shiftRight_eq_div_pow] using congrArg BitVec.toNat h
  apply BitVec.eq_of_toNat_eq
  rw [BitVec.toNat_setWidth, BitVec.extractLsb'_toNat, Nat.shiftRight_zero]
  omega

/-- The decoder answers the row that V, WE and A[15:13] (K[25:21]) pick. -/
theorem mnemonic_decodeKey_congr {k k' : CpuKey} (h : k.extractLsb' 21 5 = k'.extractLsb' 21 5) :
    (decodeKey k).mnemonic = (decodeKey k').mnemonic := by
  have hbit (i : Nat) (hi : i < 5) : k.getLsbD (21 + i) = k'.getLsbD (21 + i) := by
    simpa [BitVec.getLsbD_extractLsb', hi] using congrArg (BitVec.getLsbD · i) h
  have hv : keyVariant k = keyVariant k' := congrArg Variant.ofBit (hbit 4 (by decide))
  have hw : keyWrite k = keyWrite k' := hbit 3 (by decide)
  rw [decodeKey, decodeKey, hv, hw, hbit 0 (by decide), hbit 1 (by decide), hbit 2 (by decide)]
  generalize keyVariant k' = v, keyWrite k' = we, k'.getLsbD (21 + 2) = a15, k'.getLsbD (21 + 1) = a14, k'.getLsbD (21 + 0) = a13
  -- Row by row of R73; what the two requests still differ in are the free fields, which no mnemonic shows.
  cases we <;> cases a15 <;> cases a14 <;> cases a13 <;> cases v <;> rfl

/-- The key of `t` = V, WE, A[15:13] with every other bit 0. -/
def rowKey (t : BitVec 5) : CpuKey := t ++ 0#21

theorem and_rowKey (k : CpuKey) (m : BitVec 5) : k &&& rowKey m = rowKey (k.extractLsb' 21 5 &&& m) := by
  have hk : k.extractLsb' 21 5 ++ k.extractLsb' 0 21 = k.extractLsb' 0 26 := BitVec.extractLsb'_append_extractLsb'_eq_extractLsb' rfl
  rw [BitVec.extractLsb'_eq_self] at hk
  calc k &&& rowKey m = (k.extractLsb' 21 5 ++ k.extractLsb' 0 21) &&& (m ++ 0#21) := by rw [hk]; rfl
    _ = (k.extractLsb' 21 5 &&& m) ++ (k.extractLsb' 0 21 &&& 0#21) := BitVec.and_append
    _ = rowKey (k.extractLsb' 21 5 &&& m) := by rw [BitVec.and_zero]; rfl

theorem extract_rowKey (t : BitVec 5) : (rowKey t).extractLsb' 21 5 = t := by
  revert t; decide

/-- The masks of R73 read K[25:21] alone. -/
theorem holds_rowKey {r : TableRow} (hr : r ∈ cpuTable) (k : CpuKey) : r.holds k ↔ r.holds (rowKey (k.extractLsb' 21 5)) := by
  have hmask : ∀ r ∈ cpuTable, BitVec.ofNat 26 r.mask = rowKey (BitVec.ofNat 5 (r.mask / 2 ^ 21)) := by decide
  rw [TableRow.holds, TableRow.holds, hmask r hr, and_rowKey, and_rowKey, extract_rowKey]

/-- The row of each value of V, WE and A[15:13] (R73). -/
theorem rowKey_matches_one (t : BitVec 5) : ∃ r ∈ cpuTable, r.holds (rowKey t) ∧ (decodeKey (rowKey t)).mnemonic = r.mnemonic ∧
    ∀ r' ∈ cpuTable, r'.holds (rowKey t) → r' = r := by
  revert t; decide

/-- Settles O4: the rows and the decoder read K[25:21] alone, and each of its 32 values has one row. -/
theorem cpuKeyDecodesToTheOneRowItMatches : Obligations.CpuKeyDecodesToTheOneRowItMatches := by
  intro k
  obtain ⟨r, hr, hholds, hmn, huniq⟩ := rowKey_matches_one (k.extractLsb' 21 5)
  exact ⟨r, hr, (holds_rowKey hr k).2 hholds, (mnemonic_decodeKey_congr (extract_rowKey _).symm).trans hmn,
    fun r' hr' h => huniq r' hr' ((holds_rowKey hr' k).1 h)⟩

/-! ## Host words (R76, R81) -/

theorem decodeHost_reserved {h : HostWord} (hr : reservedHostWord h = true) : decodeHost h = .hostReserved h := if_pos hr

theorem reservedHostWord_eq_false {h : HostWord} {cmd lo : Nat} (hc : h.toNat % 16 = cmd) (hlo : hostReservedFrom cmd = some lo)
    (hlt : h.toNat < 2 ^ lo) : reservedHostWord h = false := by
  rw [reservedHostWord_eq, hc, hlo]
  simpa using hlt

/-- The bits an unreserved word sets lie below its command's first reserved bit (R81). -/
theorem toNat_lt_of_unreserved {h : HostWord} {cmd lo : Nat} (hr : reservedHostWord h = false) (hc : hostCmd h = cmd)
    (hlo : hostReservedFrom cmd = some lo) : h.toNat < 2 ^ lo := by
  rw [reservedHostWord_eq, ← hostCmd_eq, hc, hlo] at hr
  simpa using hr

/-- An unreserved word's CMD is one of the nine commands of R76. -/
theorem cmd_of_unreserved {h : HostWord} (hr : reservedHostWord h = false) : hostCmd h ∈ [1, 2, 3, 4, 5, 6, 7, 8, 9] := by
  have hlt : hostCmd h < 16 := (h.extractLsb' 0 4).isLt
  have hreserved : ∀ cmd < 16, cmd ∉ [1, 2, 3, 4, 5, 6, 7, 8, 9] → hostReservedFrom cmd = none := by decide
  by_contra hc
  rw [reservedHostWord, hreserved _ hlt hc] at hr
  cases hr

theorem cmd_cases {h : HostWord} (hr : reservedHostWord h = false) :
    hostCmd h = 1 ∨ hostCmd h = 2 ∨ hostCmd h = 3 ∨ hostCmd h = 4 ∨ hostCmd h = 5 ∨ hostCmd h = 6 ∨ hostCmd h = 7 ∨
      hostCmd h = 8 ∨ hostCmd h = 9 := by
  simpa using cmd_of_unreserved hr

/-- A bit of a word, as a digit of its number. -/
theorem toNat_getLsbD {w : Nat} (x : BitVec w) (i : Nat) : (x.getLsbD i).toNat = x.toNat / 2 ^ i % 2 := Nat.toNat_testBit ..

theorem getLsbD_eq_of_digit {w : Nat} {x : BitVec w} {i : Nat} {b : Bool} (h : x.toNat / 2 ^ i % 2 = b.toNat) : x.getLsbD i = b := by
  rw [← Bool.ofNat_toNat (x.getLsbD i), toNat_getLsbD, h, Bool.ofNat_toNat]

/-- A field of a word, as digits of its number. -/
theorem toNat_extract {w : Nat} (x : BitVec w) (i n : Nat) : (x.extractLsb' i n).toNat = x.toNat / 2 ^ i % 2 ^ n := by
  rw [BitVec.extractLsb'_toNat, Nat.shiftRight_eq_div_pow]

theorem loadWord_fields (v : Variant) (shift code : BitVec 4) (eager : Bool) :
    (loadWord v shift code eager).getLsbD 4 = v.bit ∧ (loadWord v shift code eager).extractLsb' 5 4 = shift ∧
      (loadWord v shift code eager).extractLsb' 9 4 = code ∧ (loadWord v shift code eager).getLsbD 13 = eager := by
  have hn := loadWord_toNat v shift code eager
  have hv := Bool.toNat_lt v.bit
  have he := Bool.toNat_lt eager
  refine ⟨getLsbD_eq_of_digit ?_, BitVec.eq_of_toNat_eq ?_, BitVec.eq_of_toNat_eq ?_, getLsbD_eq_of_digit ?_⟩ <;>
    simp only [toNat_extract, hn] <;> omega

theorem loadWord_command (v : Variant) (shift code : BitVec 4) (eager : Bool) :
    reservedHostWord (loadWord v shift code eager) = false ∧ hostCmd (loadWord v shift code eager) = 1 := by
  have hn := loadWord_toNat v shift code eager
  have hv := Bool.toNat_lt v.bit
  have he := Bool.toNat_lt eager
  have hcmd : (loadWord v shift code eager).toNat % 16 = 1 := by omega
  exact ⟨reservedHostWord_eq_false hcmd rfl (by omega), (hostCmd_eq _).trans hcmd⟩

theorem decodeHost_loadWord (v : Variant) (shift code : BitVec 4) (eager : Bool) :
    decodeHost (loadWord v shift code eager) = .load v shift code eager := by
  obtain ⟨hv, hshift, hcode, heager⟩ := loadWord_fields v shift code eager
  obtain ⟨hres, hcmd⟩ := loadWord_command v shift code eager
  rw [decodeHost, hres, hcmd, hv, hshift, hcode, heager, Variant.ofBit_bit]
  rfl

theorem fieldWord_field (field : BitVec 16) (cmd : BitVec 4) : (fieldWord field cmd).extractLsb' 4 16 = field := by
  apply BitVec.eq_of_toNat_eq
  rw [toNat_extract, fieldWord_toNat]
  omega

theorem fieldWord_command (field : BitVec 16) {cmd : BitVec 4} (hlo : hostReservedFrom cmd.toNat = some 20) :
    reservedHostWord (fieldWord field cmd) = false ∧ hostCmd (fieldWord field cmd) = cmd.toNat := by
  have hn := fieldWord_toNat field cmd
  have hcmd : (fieldWord field cmd).toNat % 16 = cmd.toNat := by omega
  exact ⟨reservedHostWord_eq_false hcmd hlo (by omega), (hostCmd_eq _).trans hcmd⟩

theorem decodeHost_getRomBank (bank : BitVec 16) : decodeHost (fieldWord bank 3#4) = .getRomBank bank := by
  obtain ⟨hres, hcmd⟩ := fieldWord_command bank (cmd := 3#4) rfl
  rw [decodeHost, hres, hcmd, fieldWord_field]
  rfl

theorem decodeHost_readSlot (slot : BitVec 16) : decodeHost (fieldWord slot 9#4) = .readSlot slot := by
  obtain ⟨hres, hcmd⟩ := fieldWord_command slot (cmd := 9#4) rfl
  rw [decodeHost, hres, hcmd, fieldWord_field]
  rfl

/-- A host request's word decodes to the request. -/
theorem decodeHost_encode {i : Instr} (hp : i.port = .host) (hwf : i.wellFormed = true) : decodeHost (encode i) = i := by
  cases i with
  | load v shift code eager => exact decodeHost_loadWord v shift code eager
  | unload => rfl
  | getRomBank bank => exact decodeHost_getRomBank bank
  | pressureEvict => rfl
  | sramExport => rfl
  | sramImport => rfl
  | readStatus => rfl
  | readMbc => rfl
  | readSlot slot => exact decodeHost_readSlot slot
  | hostReserved h => exact decodeHost_reserved hwf
  | wrARamen _ _ => cases hp
  | wrARomlo _ _ => cases hp
  | wrAHigh _ _ => cases hp
  | wrAMode _ _ => cases hp
  | wrBRamen _ _ => cases hp
  | wrBRomsel _ _ => cases hp
  | wrBRamsel _ _ => cases hp
  | wrBLatch _ _ => cases hp
  | rdRomx _ _ _ => cases hp
  | rdRam _ _ _ => cases hp
  | wrRam _ _ _ => cases hp
  | passRom0Rd _ _ _ => cases hp
  | pass8000 _ _ _ _ => cases hp
  | passC000 _ _ _ _ => cases hp

/-- The word of a command with no fields is its CMD. -/
theorem eq_cmd_of_unreserved {h : HostWord} {cmd : Nat} (hr : reservedHostWord h = false) (hc : hostCmd h = cmd)
    (hlo : hostReservedFrom cmd = some 4) : BitVec.ofNat 32 cmd = h := by
  have hlt := toNat_lt_of_unreserved hr hc hlo
  rw [hostCmd_eq] at hc
  apply BitVec.eq_of_toNat_eq
  rw [BitVec.toNat_ofNat]
  omega

theorem fieldWord_extract {h : HostWord} {cmd : BitVec 4} (hr : reservedHostWord h = false) (hc : hostCmd h = cmd.toNat)
    (hlo : hostReservedFrom cmd.toNat = some 20) : fieldWord (h.extractLsb' 4 16) cmd = h := by
  have hlt := toNat_lt_of_unreserved hr hc hlo
  rw [hostCmd_eq] at hc
  apply BitVec.eq_of_toNat_eq
  rw [fieldWord_toNat, toNat_extract]
  omega

theorem loadWord_extract {h : HostWord} (hr : reservedHostWord h = false) (hc : hostCmd h = 1) :
    loadWord (.ofBit (h.getLsbD 4)) (h.extractLsb' 5 4) (h.extractLsb' 9 4) (h.getLsbD 13) = h := by
  have hlt := toNat_lt_of_unreserved hr hc rfl
  rw [hostCmd_eq] at hc
  apply BitVec.eq_of_toNat_eq
  rw [loadWord_toNat, Variant.bit_ofBit, toNat_getLsbD, toNat_getLsbD, toNat_extract, toNat_extract]
  omega

/-- What a host word decodes to is a request of the block, and its word is that word. -/
theorem decodeHost_spec (h : HostWord) : (decodeHost h).wellFormed = true ∧ encode (decodeHost h) = h := by
  cases hr : reservedHostWord h with
  | true => rw [decodeHost_reserved hr]; exact ⟨hr, rfl⟩
  | false =>
    obtain hc | hc | hc | hc | hc | hc | hc | hc | hc := cmd_cases hr <;> rw [decodeHost, hr, hc]
    · exact ⟨rfl, loadWord_extract hr hc⟩
    · exact ⟨rfl, eq_cmd_of_unreserved hr hc rfl⟩
    · exact ⟨rfl, fieldWord_extract hr hc rfl⟩
    · exact ⟨rfl, eq_cmd_of_unreserved hr hc rfl⟩
    · exact ⟨rfl, eq_cmd_of_unreserved hr hc rfl⟩
    · exact ⟨rfl, eq_cmd_of_unreserved hr hc rfl⟩
    · exact ⟨rfl, eq_cmd_of_unreserved hr hc rfl⟩
    · exact ⟨rfl, eq_cmd_of_unreserved hr hc rfl⟩
    · exact ⟨rfl, fieldWord_extract hr hc rfl⟩

/-! ## The table of the host words (R76) -/

/-- The decoder answers a row of R76 exactly for the unreserved words with that row's CMD. -/
theorem mnemonic_decodeHost_iff {r : TableRow} (hr : r ∈ hostTable) (h : HostWord) :
    (decodeHost h).mnemonic = r.mnemonic ↔ reservedHostWord h = false ∧ hostCmd h = r.value := by
  cases hres : reservedHostWord h with
  | true =>
    have hname : ∀ r ∈ hostTable, "HOST_RESERVED" ≠ r.mnemonic := by decide
    rw [decodeHost_reserved hres]
    exact iff_of_false (hname r hr) (fun hfalse => Bool.noConfusion hfalse.1)
  | false =>
    obtain hc | hc | hc | hc | hc | hc | hc | hc | hc := cmd_cases hres <;> rw [decodeHost, hres, hc, and_iff_right rfl]
    · exact (by decide : ∀ r ∈ hostTable, "LOAD" = r.mnemonic ↔ 1 = r.value) r hr
    · exact (by decide : ∀ r ∈ hostTable, "UNLOAD" = r.mnemonic ↔ 2 = r.value) r hr
    · exact (by decide : ∀ r ∈ hostTable, "GET_ROM_BANK" = r.mnemonic ↔ 3 = r.value) r hr
    · exact (by decide : ∀ r ∈ hostTable, "PRESSURE_EVICT" = r.mnemonic ↔ 4 = r.value) r hr
    · exact (by decide : ∀ r ∈ hostTable, "SRAM_EXPORT" = r.mnemonic ↔ 5 = r.value) r hr
    · exact (by decide : ∀ r ∈ hostTable, "SRAM_IMPORT" = r.mnemonic ↔ 6 = r.value) r hr
    · exact (by decide : ∀ r ∈ hostTable, "READ_STATUS" = r.mnemonic ↔ 7 = r.value) r hr
    · exact (by decide : ∀ r ∈ hostTable, "READ_MBC" = r.mnemonic ↔ 8 = r.value) r hr
    · exact (by decide : ∀ r ∈ hostTable, "READ_SLOT" = r.mnemonic ↔ 9 = r.value) r hr

/-- What a mask of R76 keeps of a word: its CMD and its reserved bits. -/
theorem and_hostMask {n lo : Nat} (hlo : lo ∈ [4, 14, 20]) (hn : n < 2 ^ 32) :
    n &&& (2 ^ 32 - 2 ^ lo + 15) = n % 16 + 2 ^ lo * (n / 2 ^ lo) := by
  have hparts : ∀ lo ∈ [4, 14, 20], (2 ^ 32 - 2 ^ lo + 15) % 2 ^ lo = 2 ^ 4 - 1 ∧
      (2 ^ 32 - 2 ^ lo + 15) / 2 ^ lo = 2 ^ (32 - lo) - 1 ∧ 2 ^ 4 ∣ 2 ^ lo ∧ 2 ^ lo * 2 ^ (32 - lo) = 2 ^ 32 := by decide
  obtain ⟨hlow, hhigh, hdvd, hmul⟩ := hparts lo hlo
  change _ = n % 2 ^ 4 + _
  rw [← Nat.mod_add_div (n &&& (2 ^ 32 - 2 ^ lo + 15)) (2 ^ lo), Nat.and_mod_two_pow, Nat.and_div_two_pow, hlow, hhigh,
    Nat.and_two_pow_sub_one_eq_mod, Nat.and_two_pow_sub_one_eq_mod, Nat.mod_mod_of_dvd _ hdvd,
    Nat.mod_eq_of_lt (Nat.div_lt_of_lt_mul (hmul ▸ hn))]

/-- A row of R76 holds of the unreserved words with its CMD. -/
theorem holds_host_iff {r : TableRow} (hr : r ∈ hostTable) (h : HostWord) :
    r.holds h ↔ reservedHostWord h = false ∧ hostCmd h = r.value := by
  have hrow : ∀ r ∈ hostTable, r.mask < 2 ^ 32 ∧ r.value < 16 ∧
      ∃ lo ∈ [4, 14, 20], hostReservedFrom r.value = some lo ∧ 16 ≤ 2 ^ lo ∧ r.mask = 2 ^ 32 - 2 ^ lo + 15 := by decide
  obtain ⟨hmask, hval, lo, hlo, hfrom, hpow, hm⟩ := hrow r hr
  have hnum : r.holds h ↔ h.toNat % 16 + 2 ^ lo * (h.toNat / 2 ^ lo) = r.value := by
    rw [TableRow.holds, ← BitVec.toNat_inj, BitVec.toNat_and, BitVec.toNat_ofNat, BitVec.toNat_ofNat, Nat.mod_eq_of_lt hmask,
      Nat.mod_eq_of_lt (by omega), hm, and_hostMask hlo h.isLt]
  rw [hnum]
  constructor
  · intro heq
    have hquot : h.toNat / 2 ^ lo = 0 := by
      by_contra hne
      have := Nat.le_mul_of_pos_right (2 ^ lo) (Nat.pos_of_ne_zero hne)
      omega
    rw [hquot, Nat.mul_zero, Nat.add_zero] at heq
    exact ⟨reservedHostWord_eq_false heq hfrom (Nat.lt_of_div_eq_zero (by omega) hquot), (hostCmd_eq h).trans heq⟩
  · intro ⟨hres, hc⟩
    rw [Nat.div_eq_of_lt (toNat_lt_of_unreserved hres hc hfrom), Nat.mul_zero, Nat.add_zero, ← hostCmd_eq, hc]

/-- Settles O5: matching a row, and decoding to it, are both to be unreserved with its CMD. -/
theorem hostWordDecodesByItsMaskAndValue : Obligations.HostWordDecodesByItsMaskAndValue := by
  intro h
  refine ⟨fun r hr => (holds_host_iff hr h).trans (mnemonic_decodeHost_iff hr h).symm, fun hnone => ?_, fun hdec r hr hholds => ?_⟩
  · cases hres : reservedHostWord h with
    | true => exact decodeHost_reserved hres
    | false =>
      have hrow : ∀ cmd ∈ [1, 2, 3, 4, 5, 6, 7, 8, 9], ∃ r ∈ hostTable, cmd = r.value := by decide
      obtain ⟨r, hr, hcmd⟩ := hrow _ (cmd_of_unreserved hres)
      exact absurd ((holds_host_iff hr h).2 ⟨hres, hcmd⟩) (hnone r hr)
  · have hwf : (Instr.hostReserved h).wellFormed = true := hdec ▸ (decodeHost_spec h).1
    exact Bool.noConfusion (hwf.symm.trans ((holds_host_iff hr h).1 hholds).1)

/-! ## Words as numbers (R71, R76, R78, R79) -/

theorem ofNat_loadWord (v : Variant) (shift code : BitVec 4) (eager : Bool) :
    BitVec.ofNat 32 (1 + 16 * v.bit.toNat + 32 * shift.toNat + 512 * code.toNat + 8192 * eager.toNat) = loadWord v shift code eager := by
  rw [← loadWord_toNat, BitVec.ofNat_toNat, BitVec.setWidth_eq]

theorem ofNat_fieldWord (field : BitVec 16) (cmd : BitVec 4) :
    BitVec.ofNat 32 (cmd.toNat + 16 * field.toNat) = fieldWord field cmd := by
  rw [← fieldWord_toNat, BitVec.ofNat_toNat, BitVec.setWidth_eq]

/-- Settles O6: each number is that of the encoder's word. -/
theorem hostFieldsStandWhereR76PutsThem : Obligations.HostFieldsStandWhereR76PutsThem :=
  ⟨fun v shift code eager => (congrArg decodeHost (ofNat_loadWord v shift code eager)).trans (decodeHost_loadWord v shift code eager),
    fun bank => (congrArg decodeHost (ofNat_fieldWord bank 3#4)).trans (decodeHost_getRomBank bank),
    fun slot => (congrArg decodeHost (ofNat_fieldWord slot 9#4)).trans (decodeHost_readSlot slot)⟩

/-- Settles O3: each field of the append stands above the ones after it. -/
theorem keyIsAssembledAsR71Says : Obligations.KeyIsAssembledAsR71Says := by
  intro v we a d
  have h : (assembleKey v we a d).toNat = BitVec.toNat (w := 1 + 1 + 16 + 8) (BitVec.ofBool v.bit ++ BitVec.ofBool we ++ a ++ d) := rfl
  rw [h]
  simp only [BitVec.toNat_append, toNat_ofBool', Nat.shiftLeft_or_distrib, ← Nat.shiftLeft_add]

/-! ## Both directions, port by port (R70) -/

/-- Settles O1: a CPU request's word is that of a key that decodes to it, and a host request's word is read whole. -/
theorem decodeOfEncodeGivesTheRequestBack : Obligations.DecodeOfEncodeGivesTheRequestBack := by
  intro i hwf
  cases hp : i.port with
  | cpu =>
    obtain ⟨k, hword, hdec⟩ := encode_cpu hp
    rw [hword, decode_cpu_key, hdec]
  | host => exact congrArg Except.ok (decodeHost_encode hp hwf)

theorem wellFormed_decodeKey (k : CpuKey) : (decodeKey k).wellFormed = true := by
  rw [decodeKey]
  split <;> (try rfl)
  unfold decodeRegisterWrite
  split <;> rfl

/-- Settles O2: a CPU word is its key's, rebuilt from the row and the free bits; a host word is its command's, or reserved and kept
whole. -/
theorem encodeOfDecodeGivesTheWordBack : Obligations.EncodeOfDecodeGivesTheWordBack := by
  intro p w i hdec
  cases p with
  | cpu =>
    rw [decode] at hdec
    split at hdec
    next hw =>
      cases hdec
      exact ⟨wellFormed_decodeKey _, Machine.decodeKey_port _, (encode_decodeKey _).trans (zeroExtend_extract_key hw)⟩
    next => cases hdec
  | host =>
    cases hdec
    obtain ⟨hwf, hword⟩ := decodeHost_spec w
    exact ⟨hwf, Machine.decodeHost_port w, hword⟩

end Sys2Proof
end

section
/-! What a step runs (R102, R170), and what every host command answers (R76, R81). -/

namespace Sys2Proof.Machine

/-! ## The request a step runs -/

theorem step_cpu {s : State} {we : Bool} {a : Addr} {d : Byte} {dr : Draws} {rest : List Arrival}
    (h : s.arrivals = .cpu we a d false dr :: rest) : step s = exec (decodeKey (s.key we a d)) (s.latchCpu rest dr) := by
  simp [step, h]

theorem step_host {s : State} {w : HostWord} {p : Payload} {dr : Draws} {rest : List Arrival}
    (h : s.arrivals = .host w p dr :: rest) : step s = exec (decodeHost w) (s.latchHost rest p dr) := by
  simp [step, h]

/-- Settles O8: V of the key is the state's (R72), and latching is the record update of the statement. -/
theorem stepRunsTheDecodedRequest : Obligations.StepRunsTheDecodedRequest :=
  ⟨fun _ _ _ _ _ _ h => step_cpu h, fun _ _ _ _ _ h => step_host h⟩

/-! ## Reserved host words and invalid LOADs (R81, R171) -/

theorem decodeHost_noCommand {h : HostWord} (hcmd : h.toNat % 16 ∈ [0, 10, 11, 12, 13, 14, 15]) : decodeHost h = .hostReserved h := by
  have hnone : ∀ cmd ∈ [0, 10, 11, 12, 13, 14, 15], hostReservedFrom cmd = none := by decide
  apply decodeHost_reserved
  rw [reservedHostWord_eq, hnone _ hcmd]

theorem decodeHost_reservedBit {h : HostWord} {lo : Nat} (hlo : hostReservedFrom (h.toNat % 16) = some lo) (hbit : 2 ^ lo ≤ h.toNat) :
    decodeHost h = .hostReserved h := by
  apply decodeHost_reserved
  rw [reservedHostWord_eq, hlo]
  exact decide_eq_true hbit

/-- A LOAD whose operands R171 forbids. -/
theorem exec_load_invalid {s : State} (hf : s.fatal = false) (v : Variant) {shift code : BitVec 4} (eager : Bool)
    (hv : loadValid code (loadCfgOf shift code s.payload.op1) ≠ true) :
    exec (.load v shift code eager) s = .next ((s.raise .corruptOrOversizedInput).respond (.host .failed .empty)) := by
  change hostServe s _ = _
  rw [hostServe_ok hf, if_neg hv]

/-- Settles O49: a reserved word is one of no command or with a bit from its command's first reserved one on, and R171 stops at
RAMCODE 5. -/
theorem reservedHostWordIsRefused : Obligations.ReservedHostWordIsRefused := by
  have hfour : ∀ cmd ∈ [2, 4, 5, 6, 7, 8], hostReservedFrom cmd = some 4 := by decide
  have htwenty : ∀ cmd ∈ [3, 9], hostReservedFrom cmd = some 20 := by decide
  intro s h
  refine ⟨rfl, decodeHost_noCommand, fun hcmd => decodeHost_reservedBit (hfour _ hcmd), fun hcmd => decodeHost_reservedBit (hcmd ▸ rfl),
    fun hcmd => decodeHost_reservedBit (htwenty _ hcmd), fun v shift code eager hf hcode => exec_load_invalid hf v eager fun hv => ?_⟩
  have hle := ((loadValid_iff shift code s.payload.op1).1 hv).1
  omega

/-! ## The answers of the host commands (R76) -/

/-- `t` holds an answer of R76 to the host command `i` on the state `s`. -/
def AnswersAsR76 (i : Instr) (s t : State) : Prop :=
  ∃ (status : HostStatus) (v : HostValue), t.response = some (.host status v) ∧
    (status = .null → ∃ bank, i = .getRomBank bank) ∧
    (status = .failed → ∃ variant shift code eager, i = .load variant shift code eager) ∧
    (status = .refused → t = { s with response := some (.host .refused .empty) }) ∧
    (v ≠ .empty → status = .ok)

theorem answers_ok (i : Instr) (s : State) {t : State} {v : HostValue} (h : t.response = some (.host .ok v)) : AnswersAsR76 i s t :=
  ⟨.ok, v, h, nofun, nofun, nofun, fun _ => rfl⟩

theorem answers_refused (i : Instr) (s : State) : AnswersAsR76 i s s.refuse :=
  ⟨.refused, .empty, rfl, nofun, nofun, fun _ => rfl, fun h => absurd rfl h⟩

theorem answers_null (bank : BitVec 16) (s t : State) : AnswersAsR76 (.getRomBank bank) s (t.respond (.host .null .empty)) :=
  ⟨.null, .empty, rfl, fun _ => ⟨bank, rfl⟩, nofun, nofun, fun h => absurd rfl h⟩

theorem answers_failed (v : Variant) (shift code : BitVec 4) (eager : Bool) (s t : State) :
    AnswersAsR76 (.load v shift code eager) s (t.respond (.host .failed .empty)) :=
  ⟨.failed, .empty, rfl, nofun, fun _ => ⟨v, shift, code, eager, rfl⟩, nofun, fun h => absurd rfl h⟩

theorem hostServe_answers {i : Instr} {s e : State} (he : AnswersAsR76 i s e) : ∃ t, hostServe s e = .next t ∧ AnswersAsR76 i s t := by
  cases hf : s.fatal with
  | true => exact ⟨_, hostServe_fatal hf e, answers_refused i s⟩
  | false => exact ⟨_, hostServe_ok hf e, he⟩

theorem hostServeLoaded_answers {i : Instr} {s : State} {e : Cart → State} (he : ∀ c, AnswersAsR76 i s (e c)) :
    ∃ t, hostServeLoaded s e = .next t ∧ AnswersAsR76 i s t := by
  apply hostServe_answers
  cases s.cart with
  | none => exact answers_refused i s
  | some c => exact he c

theorem loadCartridge_answers (v : Variant) (shift code : BitVec 4) (eager : Bool) (cfg : LoadCfg) (s : State) :
    AnswersAsR76 (.load v shift code eager) s (loadCartridge v cfg eager s) := by
  cases hd : s.draws.bank0FetchOk with
  | false => rw [loadCartridge_failed hd]; exact answers_failed ..
  | true => rw [loadCartridge_fetched hd]; exact answers_ok _ _ rfl

theorem answerGet_answers (bank : BitVec 16) (c : Cart) (s : State) (r : GetResult × State) :
    AnswersAsR76 (.getRomBank bank) s (answerGet c r) := by
  obtain ⟨g, t⟩ := r
  cases g with
  | bank0 => exact answers_ok _ _ rfl
  | slot i data => exact answers_ok _ _ rfl
  | null => exact answers_null bank s t

/-- Every host command completes with an answer of R76. -/
theorem exec_host_answers {i : Instr} (hp : i.port = .host) (s : State) : ∃ t, exec i s = .next t ∧ AnswersAsR76 i s t := by
  cases i with
  | load v shift code eager =>
    apply hostServe_answers
    split
    · exact loadCartridge_answers ..
    · exact answers_failed ..
  | unload => exact hostServe_answers (answers_ok _ _ rfl)
  | getRomBank bank =>
    refine hostServeLoaded_answers fun c => ?_
    split
    · exact answers_null ..
    · exact answerGet_answers ..
  | pressureEvict => exact hostServeLoaded_answers fun c => answers_ok _ _ rfl
  | sramExport => exact hostServeLoaded_answers fun c => answers_ok _ _ rfl
  | sramImport => exact hostServeLoaded_answers fun c => answers_ok _ _ rfl
  | readStatus => exact ⟨_, rfl, answers_ok _ _ rfl⟩
  | readMbc => exact ⟨_, rfl, answers_ok _ _ rfl⟩
  | readSlot slot =>
    rw [exec, execReadSlot]
    cases s.slots[slot.toNat]? with
    | none => exact ⟨_, rfl, answers_refused _ s⟩
    | some x => exact ⟨_, rfl, answers_ok _ _ rfl⟩
  | hostReserved w => exact ⟨_, rfl, answers_refused _ s⟩
  | wrARamen _ _ => cases hp
  | wrARomlo _ _ => cases hp
  | wrAHigh _ _ => cases hp
  | wrAMode _ _ => cases hp
  | wrBRamen _ _ => cases hp
  | wrBRomsel _ _ => cases hp
  | wrBRamsel _ _ => cases hp
  | wrBLatch _ _ => cases hp
  | rdRomx _ _ _ => cases hp
  | rdRam _ _ _ => cases hp
  | wrRam _ _ _ => cases hp
  | passRom0Rd _ _ _ => cases hp
  | pass8000 _ _ _ _ => cases hp
  | passC000 _ _ _ _ => cases hp

/-- Settles O60: every entry check and every command's effect ends in an answer of R76. -/
theorem hostAnswersCarryTheStatusesOfR76 : Obligations.HostAnswersCarryTheStatusesOfR76 := by
  refine ⟨fun v => ⟨rfl, rfl, rfl, rfl⟩, fun i s hp => ?_⟩
  obtain ⟨t, hnext, status, v, hanswer⟩ := exec_host_answers hp s
  exact ⟨t, status, v, hnext, hanswer⟩

end Sys2Proof.Machine
end

section
/-! The router (40_router.md): which requests are served in which states, and what each window access answers and leaves. -/

namespace Sys2Proof.Machine

/-! ## Which requests complete (R100, R101, R206) -/

/-- A CPU request is gated as R101 says, or is a PASS row (R106). -/
theorem exec_cpu_gated {i : Instr} (hp : i.port = .cpu) (s : State) :
    (∃ r e, exec i s = cpuServe s r e) ∨ exec i s = passOn s := by
  cases i with
  | wrARamen a d => exact .inl ⟨_, _, rfl⟩
  | wrARomlo a d => exact .inl ⟨_, _, rfl⟩
  | wrAHigh a d => exact .inl ⟨_, _, rfl⟩
  | wrAMode a d => exact .inl ⟨_, _, rfl⟩
  | wrBRamen a d => exact .inl ⟨_, _, rfl⟩
  | wrBRomsel a d => exact .inl ⟨_, _, rfl⟩
  | wrBRamsel a d => exact .inl ⟨_, _, rfl⟩
  | wrBLatch a d => exact .inl ⟨_, _, rfl⟩
  | rdRomx v off d => exact .inl ⟨_, _, rfl⟩
  | rdRam v woff d => exact .inl ⟨_, _, rfl⟩
  | wrRam v woff d => exact .inl ⟨_, _, rfl⟩
  | passRom0Rd v a d => exact .inr rfl
  | pass8000 v we a d => exact .inr rfl
  | passC000 v we a d => exact .inr rfl
  | load _ _ _ _ => cases hp
  | unload => cases hp
  | getRomBank _ => cases hp
  | pressureEvict => cases hp
  | sramExport => cases hp
  | sramImport => cases hp
  | readStatus => cases hp
  | readMbc => cases hp
  | readSlot _ => cases hp
  | hostReserved _ => cases hp

theorem cpuServe_completes {s : State} (hf : s.fatal = false) (r : Response) (e : Cart → State) : ∃ t, cpuServe s r e = .next t := by
  cases hc : s.cart with
  | none => exact ⟨_, cpuServe_unloaded hf hc r e⟩
  | some c => exact ⟨_, cpuServe_loaded hf hc r e⟩

theorem exec_cpu_completes {i : Instr} {s : State} (hp : i.port = .cpu) (hf : s.fatal = false) : ∃ t, exec i s = .next t := by
  obtain ⟨r, e, h⟩ | h := exec_cpu_gated hp s <;> rw [h]
  · exact cpuServe_completes hf r e
  · exact ⟨_, passOn_ok hf⟩

theorem exec_cpu_fatal {i : Instr} {s : State} (hp : i.port = .cpu) (hf : s.fatal = true) : exec i s = .fault .stuckInFatal := by
  obtain ⟨r, e, h⟩ | h := exec_cpu_gated hp s <;> rw [h]
  · exact cpuServe_fatal hf r e
  · exact passOn_fatal hf

/-- Settles O18: a host command always answers, and the gate of a CPU request looks at FATAL first. -/
theorem onlyACpuRequestInFatalIsStuck : Obligations.OnlyACpuRequestInFatalIsStuck := fun _ s =>
  ⟨fun hp => (exec_host_answers hp s).imp fun _ h => h.1, exec_cpu_completes, exec_cpu_fatal⟩

/-- Settles O9: these are the branches of `step` that run no request. -/
theorem claimedAccessAndIdleBlockChangeNothing : Obligations.ClaimedAccessAndIdleBlockChangeNothing :=
  ⟨fun s we a d dr rest h => by simp [step, h], fun s h => by simp [step, h]⟩

/-- Settles O25: every row named answers at the gate of R101, the reads 0xFF and the writes `done`. -/
theorem unloadedBlockAnswersFFAndDropsWrites : Obligations.UnloadedBlockAnswersFFAndDropsWrites := by
  intro s v off a d hf hc
  have hdrop (e : Cart → State) : cpuServe s .done e = .next (s.respond .done) := cpuServe_unloaded hf hc _ e
  refine ⟨cpuServe_unloaded hf hc _ _, cpuServe_unloaded hf hc _ _, ?_⟩
  simp only [List.forall_mem_cons]
  exact ⟨hdrop _, hdrop _, hdrop _, hdrop _, hdrop _, hdrop _, hdrop _, hdrop _, hdrop _, nofun⟩

/-- Settles O26: the three rows are `passOn`, and their keys are those of their fixed address bits. -/
theorem passRowsAreNotTheBlocks : Obligations.PassRowsAreNotTheBlocks := fun _ v we a13 a14 d hf =>
  ⟨passOn_ok hf, passOn_ok hf, passOn_ok hf, decodeKey_passRom0Rd v a14 d, decodeKey_pass8000 v we a13 d,
    decodeKey_passC000 v we a14 d⟩

/-! ## The ROM window (R103, R104, R107) -/

/-- In a sound pool LOOKUP finds the one slot a bank is resident in (R142, INV1). -/
theorem PoolSound.lookup_resident {slots : List Slot} (hp : PoolSound slots) {i b : Nat} {data : Memory}
    (h : Resident slots i b data) : lookup b slots = some (i, data) := by
  obtain ⟨r, hi⟩ := h
  refine lookup_eq_some.2 ⟨⟨_, hi, Slot.holding_eq_some.2 ⟨rfl, rfl⟩⟩, fun j sl hj hsl => ?_⟩
  refine (Slot.holding_eq_none (hp.allocated sl (List.mem_of_getElem? hsl))).2 fun hbank => ?_
  exact absurd (hp.oneHome j i _ _ b hsl hi hbank rfl) (Nat.ne_of_lt hj)

theorem resolve_hit {b i : Nat} {data : Memory} {s : State} (hb : b ≠ 0) (h : lookup b s.slots = some (i, data)) (c : Cart) :
    resolve c b s = (.slot i data, s) := by simp [resolve, hb, h]

theorem resolve_miss {b : Nat} {s : State} (hb : b ≠ 0) (h : lookup b s.slots = none) (c : Cart) :
    resolve c b s = cacheGet c b s := by simp [resolve, hb, h]

theorem readRomWindow_unmapped {c : Cart} (hm : c.mappedBank = none) (off : Nat) (s : State) :
    readRomWindow c off s = sentinelRom s := by simp only [readRomWindow, hm]

/-- SENTINEL_ROM as one record update (R104). -/
theorem sentinelRom_eq (s : State) :
    sentinelRom s = { s with
      romLogged := true
      events := if s.romLogged then s.events else s.events ++ [.log s.lastError]
      response := some (.byte 0xFF) } := by
  obtain ⟨cart, fatal, romLogged, lastError, slots, arrivals, payload, draws, events, response⟩ := s
  cases romLogged <;> rfl

/-- CACHE_GET as a record update: what `cacheGet_frame` says, with the values named. -/
theorem cacheGet_snd_eq (c : Cart) (b : Nat) (s : State) :
    (cacheGet c b s).2 = { s with
      slots := (cacheGet c b s).2.slots
      lastError := (cacheGet c b s).2.lastError
      events := (cacheGet c b s).2.events } := by
  obtain ⟨slots, lastError, events, h⟩ := cacheGet_frame c b s
  rw [h]

/-- A read of a mapped bank, as what RESOLVE answers. -/
theorem exec_rdRomx_mapped {s : State} {c : Cart} {b : Nat} (hf : s.fatal = false) (hc : s.cart = some c)
    (hm : c.mappedBank = some b) (v : Variant) (off : BitVec 14) (d : Byte) :
    exec (.rdRomx v off d) s = .next (answerRomx c off.toNat (resolve c b s)) := by
  rw [exec_rdRomx_loaded hf hc, readRomWindow_mapped hm]

/-- Settles O27: RESOLVE answers bank 0's buffer or the slot LOOKUP finds, and keeps the state. -/
theorem romReadOfAResidentBankChangesNothing : Obligations.RomReadOfAResidentBankChangesNothing := by
  intro s c v off d hf hc
  refine ⟨fun hm => exec_rdRomx_mapped hf hc hm v off d, fun b i data hp hb hm hres => ?_⟩
  rw [exec_rdRomx_mapped hf hc hm, resolve_hit hb (hp.lookup_resident hres)]
  rfl

/-- Settles O28: with nothing mapped the read is SENTINEL_ROM, and RESOLVE is not asked. -/
theorem romReadWithNothingMappedIsTheLoggedSentinel : Obligations.RomReadWithNothingMappedIsTheLoggedSentinel := by
  intro s c v off d hf hc hm
  rw [exec_rdRomx_loaded hf hc, readRomWindow_unmapped hm, sentinelRom_eq]

/-- Settles O29: LOOKUP finds nothing, so RESOLVE is CACHE_GET, whose frame leaves the rest of the state. -/
theorem romReadOfAnEvictedBankRefetchesIt : Obligations.RomReadOfAnEvictedBankRefetchesIt := by
  intro s c b v off d hf hc hb hm hnone g t
  have ht : g.2 = t := cacheGet_snd_eq c b s
  have hread : exec (.rdRomx v off d) s = .next (answerRomx c off.toNat g) := by
    rw [exec_rdRomx_mapped hf hc hm, resolve_miss hb (lookup_of_not_resident hnone)]
  refine ⟨fun i data hslot => ?_, fun hnull => ?_, cacheGet_ne_bank0 c b s hb⟩
  · rw [hread, answerRomx_slot hslot, ht, State.respond_eq]
  · rw [hread, answerRomx_null hnull, ht, sentinelRom_eq]

/-! ## The RAM window (R105, R108, R109) -/

theorem readRamWindow_eq (c : Cart) (woff : BitVec 13) (s : State) :
    readRamWindow c woff s = s.respond (.byte
      (if c.mbc.ramEnabled = true ∧ 0 < c.cfg.ramBanks ∧ c.mbc.currentRamBank.toNat * 8192 + woff.toNat < c.cfg.ramSizeBytes
       then c.ram.read (c.mbc.currentRamBank.toNat * 8192 + woff.toNat) else 0xFF)) := by
  rw [readRamWindow]
  split_ifs with h
  · rw [ramOffset_some h]
  · rw [ramOffset_none h]

theorem writeRamWindow_stored {c : Cart} {woff : BitVec 13} {k : Nat} (h : ramOffset c woff = some k) (d : Byte) (s : State) :
    writeRamWindow c woff d s = (s.withCart { c with ram := c.ram.write k d }).respond .done := by simp only [writeRamWindow, h]

theorem writeRamWindow_dropped {c : Cart} {woff : BitVec 13} (h : ramOffset c woff = none) (d : Byte) (s : State) :
    writeRamWindow c woff d s = s.respond .done := by simp only [writeRamWindow, h]

theorem exec_rdRam_loaded {s : State} {c : Cart} (hf : s.fatal = false) (hc : s.cart = some c) (v : Variant) (woff : BitVec 13)
    (d : Byte) : exec (.rdRam v woff d) s = .next (readRamWindow c woff s) :=
  cpuServe_loaded hf hc _ _

theorem exec_wrRam_loaded {s : State} {c : Cart} (hf : s.fatal = false) (hc : s.cart = some c) (v : Variant) (woff : BitVec 13)
    (d : Byte) : exec (.wrRam v woff d) s = .next (writeRamWindow c woff d s) :=
  cpuServe_loaded hf hc _ _

/-- Settles O30: RAMOFF is the condition and the offset, and a read only answers. -/
theorem ramReadAnswersTheBankedByte : Obligations.RamReadAnswersTheBankedByte := by
  intro s c v woff d hf hc k
  refine ⟨?_, decodeKey_key13 ..⟩
  rw [exec_rdRam_loaded hf hc, readRamWindow_eq, State.respond_eq]

/-- Settles O31: RAMOFF decides, and a buffer read after a write is the byte written there and the old one elsewhere. -/
theorem ramWriteStoresTheBankedByte : Obligations.RamWriteStoresTheBankedByte := by
  intro s c v woff d hf hc hwf k
  refine ⟨fun h => ⟨c.ram.write k d, ?_, c.ram.read_write k d hwf⟩, fun h => ?_, decodeKey_key13 ..⟩
  · rw [exec_wrRam_loaded hf hc, writeRamWindow_stored (ramOffset_some h)]
    rfl
  · rw [exec_wrRam_loaded hf hc, writeRamWindow_dropped (ramOffset_none h), State.respond_eq]

end Sys2Proof.Machine
end

section
/-! The MBC state machine (41_mbc.md): what each register write leaves, the bank number it stores, and the reach of the cartridge RAM. -/

namespace Sys2Proof.Machine

/-! ## A register write on a loaded block (R110, R120, R121) -/

section
variable {s : State} {c : Cart}

theorem mbcWrite_loaded (hf : s.fatal = false) (hc : s.cart = some c) (e : Cart → State) :
    mbcWrite s e = .next ((e c).respond .done) :=
  cpuServe_loaded hf hc _ _

theorem latchWrite_loaded (hf : s.fatal = false) (hc : s.cart = some c) (f : Cart → Mbc) :
    latchWrite s f = .next ((s.withCart (c.withMbc (f c))).respond .done) :=
  mbcWrite_loaded hf hc _

theorem selectBank_eq_afterSelect (c : Cart) (b : BitVec 7) (s : State) : selectBank c b s = afterSelect s c b := by
  rw [selectBank, select_eq, cacheGet_snd_eq]
  rfl

/-- A write whose effect is a ROM bank and SELECT. -/
theorem selectWrite_loaded (hf : s.fatal = false) (hc : s.cart = some c) (b : Cart → BitVec 7) :
    mbcWrite s (fun c => selectBank c (b c) s) = .next ((afterSelect s c (b c)).respond .done) := by
  rw [mbcWrite_loaded hf hc, selectBank_eq_afterSelect]

theorem execWrAHigh_mode0 (hf : s.fatal = false) (hc : s.cart = some c) (hm : c.mbc.bankingModeSelect = false) (d : Byte) :
    execWrAHigh d s = .next ((afterSelect s c (romHighSelect c.cfg c.mbc.currentRomBank d)).respond .done) := by
  rw [execWrAHigh, mbcWrite_loaded hf hc, hm, if_neg Bool.false_ne_true, selectBank_eq_afterSelect]

theorem execWrAHigh_mode1 (hf : s.fatal = false) (hc : s.cart = some c) (hm : c.mbc.bankingModeSelect = true) (d : Byte) :
    execWrAHigh d s =
      .next ((s.withCart (c.withMbc { c.mbc with currentRamBank := maskRamBank c.cfg (highField d) })).respond .done) := by
  rw [execWrAHigh, mbcWrite_loaded hf hc, if_pos hm]

end

/-! ## The bank numbers written, from the data byte as a number (R74, R123, R124, R127) -/

theorem romLowSelect_eq (cfg : LoadCfg) (cur : BitVec 7) (d : Byte) :
    romLowSelect cfg cur d = maskRomBank cfg ((cur.toNat &&& 0x60) ||| (if d.toNat % 32 = 0 then 1 else d.toNat % 32)) := by
  rw [romLowSelect, zeroRemap, romLowField_eq]

theorem romHighSelect_eq (cfg : LoadCfg) (cur : BitVec 7) (d : Byte) :
    romHighSelect cfg cur d = maskRomBank cfg ((cur.toNat &&& 0x1F) ||| ((d.toNat % 4) <<< 5)) := by
  rw [romHighSelect, highField_eq]

theorem romFullSelect_eq (cfg : LoadCfg) (d : Byte) :
    romFullSelect cfg d = maskRomBank cfg (if d.toNat % 128 = 0 then 1 else d.toNat % 128) := by
  rw [romFullSelect, zeroRemap, romSelField_eq]

/-! ## The register writes (R122 to R129) -/

/-- Settles O32: both rows are a latch write of D[3:0] = 0xA. -/
theorem ramEnableWriteSetsTheLatch : Obligations.RamEnableWriteSetsTheLatch := by
  intro s c a d hf hc t
  have hwrite : latchWrite s (fun c => c.mbc.setRamEnabled (ramEnableValue d)) = .next t := by
    rw [latchWrite_loaded hf hc, ramEnableValue_eq]
    rfl
  exact ⟨hwrite, hwrite, decodeKey_key13 .., decodeKey_key13 ..⟩

/-- Settles O33: the row is a write of `romLowSelect` with SELECT. -/
theorem romLowWriteSelectsTheBank : Obligations.RomLowWriteSelectsTheBank := by
  intro s c a d hf hc lo b
  have hb : romLowSelect c.cfg c.mbc.currentRomBank d = BitVec.ofNat 7 b := romLowSelect_eq ..
  exact ⟨hb ▸ selectWrite_loaded hf hc fun c => romLowSelect c.cfg c.mbc.currentRomBank d, decodeKey_key13 ..⟩

/-- Settles O34: the mode latch picks the branch, and only mode 0 runs SELECT. -/
theorem highWriteSelectsRomOrRamBankByMode : Obligations.HighWriteSelectsRomOrRamBankByMode := by
  intro s c a d hf hc hi
  have hb : romHighSelect c.cfg c.mbc.currentRomBank d =
      BitVec.ofNat 7 (((c.mbc.currentRomBank.toNat &&& 0x1F) ||| (hi <<< 5)) % c.cfg.totalBanks) := romHighSelect_eq ..
  have hhi : highField d = hi := highField_eq d
  exact ⟨fun hm => hb ▸ execWrAHigh_mode0 hf hc hm d, fun hm => hhi ▸ execWrAHigh_mode1 hf hc hm d, decodeKey_key13 ..⟩

/-- Settles O35: WR_A_MODE is a latch write of D[0], WR_B_LATCH a write with no effect. -/
theorem modeWriteSetsTheLatchAndTheStubDoesNothing : Obligations.ModeWriteSetsTheLatchAndTheStubDoesNothing := by
  intro s c a d hf hc
  exact ⟨modeField_eq d ▸ latchWrite_loaded hf hc fun c => c.mbc.setMode (modeField d), mbcWrite_loaded hf hc _,
    decodeKey_key13 .., decodeKey_key13 ..⟩

/-- Settles O36: the row is a write of `romFullSelect` with SELECT. -/
theorem romSelectWriteSelectsTheBank : Obligations.RomSelectWriteSelectsTheBank := by
  intro s c a d hf hc b
  have hb : romFullSelect c.cfg d = BitVec.ofNat 7 b := romFullSelect_eq ..
  exact ⟨hb ▸ selectWrite_loaded hf hc fun c => romFullSelect c.cfg d, decodeKey_key13 ..⟩

/-- Settles O37: the row is a latch write of the masked RAM bank. -/
theorem ramSelectWriteSelectsTheRamBank : Obligations.RamSelectWriteSelectsTheRamBank := by
  intro s c a d hf hc
  exact ⟨ramSelField_eq d ▸
    latchWrite_loaded hf hc fun c => { c.mbc with currentRamBank := maskRamBank c.cfg (ramSelField d) }, decodeKey_key13 ..⟩

/-! ## No select write stores 0 in its field (R131) -/

/-- What a write leaves on a loaded block, whatever it answered. -/
theorem mbcWrite_next {s t : State} {c : Cart} {e : Cart → State} (hc : s.cart = some c) (h : mbcWrite s e = .next t) :
    t = (e c).respond .done := by
  obtain ⟨hf, -⟩ := cpuServe_next h
  exact Host.Outcome.next.inj (h.symm.trans (mbcWrite_loaded hf hc e))

/-- The latch after a write of a ROM bank is the bank written, whatever CACHE_GET answered (R121). -/
theorem selectWrite_romBank {s t : State} {c c' : Cart} {b : Cart → BitVec 7} (hc : s.cart = some c) (ht : t.cart = some c')
    (h : mbcWrite s (fun c => selectBank c (b c) s) = .next t) : c'.mbc.currentRomBank = b c := by
  rw [mbcWrite_next hc h, selectBank_eq_afterSelect] at ht
  cases ht
  rfl

theorem maskRomBank_of_128_banks {cfg : LoadCfg} {b : Nat} (hcfg : cfg.totalBanks = 128) (hb : b < 128) :
    (maskRomBank cfg b).toNat = b := by
  rw [maskRomBank, BitVec.toNat_ofNat, hcfg]
  omega

/-- A number made of two fields keeps to 7 bits. -/
theorem keepField_lt {cur m f : Nat} (hcur : cur < 128) (hf : f < 128) : (cur &&& m) ||| f < 128 :=
  Nat.or_lt_two_pow (n := 7) (Nat.lt_of_le_of_lt Nat.and_le_left hcur) hf

/-- The low 5 bits of a number whose bits below 5 are all the field's. -/
theorem keepHigh_mod (cur : Nat) {f : Nat} (hf : f < 32) : ((cur &&& 0x60) ||| f) % 32 = f := by
  rw [Nat.or_mod_two_pow (n := 5), Nat.and_mod_two_pow (n := 5)]
  simp [Nat.mod_eq_of_lt hf]

/-- Settles O38: with 128 banks the mask is the identity, and the field written is at least 1. -/
theorem selectWritesNeverStoreZeroInTheirField : Obligations.SelectWritesNeverStoreZeroInTheirField := by
  intro s t c c' a d hc hbanks ht
  refine ⟨fun h => ?_, fun h => ?_⟩
  · have hlo : (if d.toNat % 32 = 0 then 1 else d.toNat % 32) < 32 := by split <;> omega
    rw [selectWrite_romBank hc ht h, romLowSelect_eq, maskRomBank_of_128_banks hbanks (keepField_lt (BitVec.isLt _) (by omega)),
      keepHigh_mod _ hlo]
    split <;> omega
  · rw [selectWrite_romBank hc ht h, romFullSelect_eq, maskRomBank_of_128_banks hbanks (by split <;> omega)]
    split <;> omega

/-! ## Masking at the write and masking at use (R132) -/

/-- Masking to a power of two commutes with keeping bits and setting a field. -/
theorem keepField_mod (raw m f k : Nat) : ((raw % 2 ^ k &&& m) ||| f) % 2 ^ k = ((raw &&& m) ||| f) % 2 ^ k := by
  rw [Nat.or_mod_two_pow, Nat.and_mod_two_pow, Nat.mod_mod, ← Nat.and_mod_two_pow, ← Nat.or_mod_two_pow]

/-- A write that keeps some bits of the masked latch, as it would act on the unmasked value. -/
theorem maskRomBank_keepField {cfg : LoadCfg} {k raw f : Nat} (hcfg : cfg.totalBanks = 2 ^ k) (hraw : raw < 128) (hf : f < 128)
    (m : Nat) : (maskRomBank cfg (((BitVec.ofNat 7 (raw % 2 ^ k)).toNat &&& m) ||| f)).toNat = ((raw &&& m) ||| f) % 2 ^ k := by
  have hlatch : (BitVec.ofNat 7 (raw % 2 ^ k)).toNat = raw % 2 ^ k :=
    Nat.mod_eq_of_lt (Nat.lt_of_le_of_lt (Nat.mod_le _ _) hraw)
  have hfit : ((raw &&& m) ||| f) % 2 ^ k < 128 := Nat.lt_of_le_of_lt (Nat.mod_le _ _) (keepField_lt hraw hf)
  rw [maskRomBank, BitVec.toNat_ofNat, hcfg, hlatch, keepField_mod, Nat.mod_eq_of_lt hfit]

/-- Settles O39: both writes keep some bits of the latch and set a field of 7 bits. -/
theorem maskingAtTheWriteEqualsMaskingAtUse : Obligations.MaskingAtTheWriteEqualsMaskingAtUse := by
  intro cfg k raw d _ hcfg hraw
  rw [romLowSelect_eq, romHighSelect_eq]
  refine ⟨maskRomBank_keepField hcfg hraw ?_ 0x60, maskRomBank_keepField hcfg hraw ?_ 0x1F⟩
  · split <;> omega
  · rw [Nat.shiftLeft_eq]
    omega

/-! ## The reach of the cartridge RAM (R133) -/

section
variable {s t : State} {c : Cart}

theorem ramOffset_disabled (hen : c.mbc.ramEnabled = false) (woff : BitVec 13) : ramOffset c woff = none :=
  ramOffset_none fun h => Bool.false_ne_true (hen.symm.trans h.1)

theorem readRamWindow_dropped {woff : BitVec 13} (h : ramOffset c woff = none) (s : State) :
    readRamWindow c woff s = s.respond (.byte 0xFF) := by simp only [readRamWindow, h]

/-- While the RAM is disabled a CPU request leaves it as it was. -/
theorem CpuEffect.keepsRam (h : CpuEffect s t) (hc : s.cart = some c) (hen : c.mbc.ramEnabled = false) :
    ∃ c', t.cart = some c' ∧ c'.ram = c.ram := by
  cases h with
  | answer r => exact ⟨c, hc, rfl⟩
  | latch d m hd =>
    cases hc.symm.trans hd
    exact ⟨_, rfl, rfl⟩
  | store d k x hd he =>
    cases hc.symm.trans hd
    exact absurd (hen.symm.trans he) Bool.false_ne_true
  | select d b hd =>
    cases hc.symm.trans hd
    rw [selectBank_eq_afterSelect]
    exact ⟨_, rfl, rfl⟩
  | unmapped => exact ⟨c, (sentinelRom_cart s).trans hc, rfl⟩
  | refetched d b r => exact ⟨c, (cacheGet_cart d b s).trans hc, rfl⟩
  | degraded d b => exact ⟨c, (sentinelRom_cart _).trans ((cacheGet_cart d b s).trans hc), rfl⟩

/-! The same request on `u`, the state `s` with other RAM contents. -/

variable {u : State} {ram : Memory}

/-- A served request does the same on other RAM contents when its effect does. -/
theorem cpuServe_withRam {r : Response} {e e' : Cart → State} (hu : u = s.withCart { c with ram := ram }) (hc : s.cart = some c)
    (h : cpuServe s r e = .next t) (he : e' { c with ram := ram } = (e c).withRam ram) : cpuServe u r e' = .next (t.withRam ram) := by
  obtain ⟨hf, -⟩ := cpuServe_next h
  rw [cpuServe_loaded hf hc] at h
  have hfu : u.fatal = false := by rw [hu, State.withCart_fatal, hf]
  have hcu : u.cart = some { c with ram := ram } := by rw [hu, State.withCart_cart]
  rw [cpuServe_loaded hfu hcu, he, Host.Outcome.next.inj h]

theorem mbcWrite_withRam {e e' : Cart → State} (hu : u = s.withCart { c with ram := ram }) (hc : s.cart = some c)
    (h : mbcWrite s e = .next t) (he : e' { c with ram := ram } = (e c).withRam ram) : mbcWrite u e' = .next (t.withRam ram) :=
  cpuServe_withRam hu hc h (congrArg (·.respond .done) he)

theorem selectWrite_withRam {b b' : Cart → BitVec 7} (hu : u = s.withCart { c with ram := ram }) (hc : s.cart = some c)
    (h : mbcWrite s (fun c => selectBank c (b c) s) = .next t) (hb : b' { c with ram := ram } = b c) :
    mbcWrite u (fun c => selectBank c (b' c) u) = .next (t.withRam ram) :=
  mbcWrite_withRam hu hc h (by rw [hu, hb, selectBank_withRam])

theorem latchWrite_withRam {f f' : Cart → Mbc} (hu : u = s.withCart { c with ram := ram }) (hc : s.cart = some c)
    (h : latchWrite s f = .next t) (hm : f' { c with ram := ram } = f c) : latchWrite u f' = .next (t.withRam ram) :=
  mbcWrite_withRam hu hc h (by rw [hu, hm]; rfl)

theorem respond_withRam (hu : u = s.withCart { c with ram := ram }) (hc : s.cart = some c) (r : Response) :
    u.respond r = (s.respond r).withRam ram := by
  rw [hu, State.withRam, State.respond_cart, hc]
  rfl

theorem passOn_withRam (hu : u = s.withCart { c with ram := ram }) (hc : s.cart = some c) (h : passOn s = .next t) :
    passOn u = .next (t.withRam ram) := by
  obtain ⟨hf, -⟩ := passOn_effect h
  have hfu : u.fatal = false := by rw [hu, State.withCart_fatal, hf]
  rw [passOn_ok hf] at h
  rw [passOn_ok hfu, respond_withRam hu hc, Host.Outcome.next.inj h]

/-- While the RAM is disabled a CPU request does on any other RAM contents just what it does on these. -/
theorem exec_cpu_withRam {i : Instr} (hu : u = s.withCart { c with ram := ram }) (hc : s.cart = some c)
    (hen : c.mbc.ramEnabled = false) (hp : i.port = .cpu) (h : exec i s = .next t) : exec i u = .next (t.withRam ram) := by
  have hanswer := respond_withRam hu hc
  have hoff (woff : BitVec 13) : ramOffset { c with ram := ram } woff = none := ramOffset_disabled hen woff
  cases i with
  | wrARamen a d => exact latchWrite_withRam hu hc h rfl
  | wrARomlo a d => exact selectWrite_withRam hu hc h rfl
  | wrAHigh a d =>
    refine mbcWrite_withRam hu hc h ?_
    rw [hu]
    split
    · rfl
    · exact selectBank_withRam ..
  | wrAMode a d => exact latchWrite_withRam hu hc h rfl
  | wrBRamen a d => exact latchWrite_withRam hu hc h rfl
  | wrBRomsel a d => exact selectWrite_withRam hu hc h rfl
  | wrBRamsel a d => exact latchWrite_withRam hu hc h rfl
  | wrBLatch a d => exact cpuServe_withRam hu hc h (hanswer .done)
  | rdRomx v off d => exact cpuServe_withRam hu hc h (hu ▸ readRomWindow_withRam hc ram off.toNat)
  | rdRam v woff d =>
    refine cpuServe_withRam hu hc h ?_
    rw [readRamWindow_dropped (hoff woff), readRamWindow_dropped (ramOffset_disabled hen woff), hanswer]
  | wrRam v woff d =>
    refine cpuServe_withRam hu hc h ?_
    rw [writeRamWindow_dropped (hoff woff), writeRamWindow_dropped (ramOffset_disabled hen woff), hanswer]
  | passRom0Rd v a d => exact passOn_withRam hu hc h
  | pass8000 v we a d => exact passOn_withRam hu hc h
  | passC000 v we a d => exact passOn_withRam hu hc h
  | load _ _ _ _ => cases hp
  | unload => cases hp
  | getRomBank _ => cases hp
  | pressureEvict => cases hp
  | sramExport => cases hp
  | sramImport => cases hp
  | readStatus => cases hp
  | readMbc => cases hp
  | readSlot _ => cases hp
  | hostReserved _ => cases hp

theorem exec_rdRam_disabled (hc : s.cart = some c) (hen : c.mbc.ramEnabled = false) {v : Variant} {woff : BitVec 13} {d : Byte}
    (h : exec (.rdRam v woff d) s = .next t) : t.response = some (.byte 0xFF) := by
  obtain ⟨hf, -⟩ := cpuServe_next h
  rw [exec_rdRam_loaded hf hc, readRamWindow_dropped (ramOffset_disabled hen woff)] at h
  cases h
  rfl

end

/-- A write to an address the RAM serves, then a read of it: the read answers the byte written (R108, R109). -/
theorem write_then_read {s : State} {c : Cart} {woff : BitVec 13} (hf : s.fatal = false) (hc : s.cart = some c) (hwf : c.ram.wf)
    (haccess : c.mbc.ramEnabled = true ∧ 0 < c.cfg.ramBanks ∧ c.mbc.currentRamBank.toNat * 8192 + woff.toNat < c.cfg.ramSizeBytes)
    (v v' : Variant) (d d' : Byte) :
    ∃ s' s'', exec (.wrRam v woff d) s = .next s' ∧ exec (.rdRam v' woff d') s' = .next s'' ∧ s''.response = some (.byte d) := by
  obtain ⟨hstore, -⟩ := ramWriteStoresTheBankedByte s c v woff d hf hc hwf
  obtain ⟨ram', hwrite, hbyte⟩ := hstore haccess
  let s' : State := { s with cart := some { c with ram := ram' }, response := some .done }
  obtain ⟨hread, -⟩ := ramReadAnswersTheBankedByte s' { c with ram := ram' } v' woff d' hf rfl
  refine ⟨s', _, hwrite, hread, ?_⟩
  rw [if_pos haccess, hbyte, if_pos rfl]

/-- Settles O22: a disabled RAM gives every access the offset `none`, so no effect stores to it or reads it; once enabled, a read
answers what the write before it stored. -/
theorem ramEnableLaw : Obligations.RamEnableLaw := by
  refine ⟨fun s t c i hc hen hp h => ⟨?_, fun ram => exec_cpu_withRam rfl hc hen hp h, ?_⟩, ?_⟩
  · obtain ⟨-, heffect⟩ := exec_cpu_effect hp h
    exact heffect.keepsRam hc hen
  · rintro v woff d rfl
    exact exec_rdRam_disabled hc hen h
  · intro s c a en v v' woff d d' hf hc hwf hbanks hoff hen
    obtain ⟨ha, hb, -⟩ := ramEnableWriteSetsTheLatch s c a 0x0A hf hc
    obtain ⟨s2, s3, hwrite, hread, hbyte⟩ := write_then_read
      (s := (s.withCart (c.withMbc (c.mbc.setRamEnabled true))).respond .done) hf rfl hwf ⟨rfl, hbanks, hoff⟩ v v' d d'
    rcases hen with rfl | rfl
    · exact ⟨_, s2, s3, ha, hwrite, hread, hbyte⟩
    · exact ⟨_, s2, s3, hb, hwrite, hread, hbyte⟩

end Sys2Proof.Machine
end

section
/-! The LRU cache controller (42_cache.md): the victim and the hottest slot as R144 and R150 characterise them, what eviction frees,
how recency decays, and what each outcome of CACHE_GET leaves. -/

namespace Sys2Proof.Machine

/-! ## The victim (R144) -/

theorem IsVictim.le {slots : List Slot} {u v : Nat} (hu : IsVictim slots u) (hv : IsVictim slots v) : u ≤ v := by
  obtain ⟨x, hx, -, hfirst⟩ := hu
  obtain ⟨y, hy, hleast, -⟩ := hv
  by_contra hlt
  exact Nat.not_le.2 (hfirst v y (Nat.not_le.1 hlt) hy) (hleast x (List.mem_of_getElem? hx))

/-- `victim` computes the only index that R144 allows. -/
theorem IsVictim.victim_eq {slots : List Slot} {v : Nat} (hv : IsVictim slots v) : victim slots = v := by
  obtain ⟨x, hx, -⟩ := id hv
  have hvictim : IsVictim slots (victim slots) := victim_spec slots (List.ne_nil_of_mem (List.mem_of_getElem? hx))
  exact Nat.le_antisymm (hvictim.le hv) (hv.le hvictim)

/-- Settles O44: `victim_spec` is R144's description, and two indices that both meet it bound each other. -/
theorem victimIsTheLowestOfTheLeastRecent : Obligations.VictimIsTheLowestOfTheLeastRecent := fun slots hlen =>
  ⟨victim_spec slots (List.ne_nil_of_length_pos hlen), fun _ hv => hv.victim_eq.symm⟩

/-! ## The hottest slot (R150) -/

theorem isHottest_of_hottest {slots : List Slot} {h : Nat} (hh : hottest slots = some h) : IsHottest slots h := by
  have hspec := hottest_eq_some hh
  simp only [Option.isSome_iff_ne_none] at hspec
  exact hspec

theorem IsHottest.le {slots : List Slot} {g h : Nat} (hg : IsHottest slots g) (hh : IsHottest slots h) : g ≤ h := by
  obtain ⟨x, hx, hxocc, -, hfirst⟩ := hg
  obtain ⟨y, hy, hyocc, hmost, -⟩ := hh
  by_contra hlt
  exact Nat.not_le.2 (hfirst h y (Nat.not_le.1 hlt) hy hyocc) (hmost x (List.mem_of_getElem? hx) hxocc)

/-- `hottest` answers the only index that R150 allows. -/
theorem hottest_eq_some_iff {slots : List Slot} {h : Nat} : hottest slots = some h ↔ IsHottest slots h := by
  refine ⟨isHottest_of_hottest, fun hh => ?_⟩
  cases hans : hottest slots with
  | none =>
    obtain ⟨x, hx, hocc, -⟩ := hh
    exact absurd (hottest_eq_none.1 hans x (List.mem_of_getElem? hx)) hocc
  | some g =>
    have hg := isHottest_of_hottest hans
    rw [Nat.le_antisymm (hg.le hh) (hh.le hg)]

/-- Settles O45: `hottest` answers some slot when one is occupied, and R150 allows one answer. -/
theorem hottestIsTheLowestOfTheMostRecentOccupied : Obligations.HottestIsTheLowestOfTheMostRecentOccupied := fun _ =>
  ⟨fun _ => hottest_eq_some_iff, hottest_eq_none⟩

/-! ## Eviction (R151) -/

/-- Eviction at one index: an allocated slot other than the kept one is free, any other as before. -/
theorem freeExcept_slot {slots : List Slot} {i : Nat} {x : Slot} (hx : slots[i]? = some x) (keep : Option Nat) :
    (freeExcept keep 0 slots)[i]? = some (if x.allocated = true ∧ keep ≠ some i then Slot.free else x) := by
  rw [getElem?_freeExcept, hx]
  simp

/-- The pool after EVICT_NONESSENTIAL is what R151 says of it. -/
theorem evicted_freeExcept (slots : List Slot) : Evicted slots (freeExcept (hottest slots) 0 slots) := by
  refine ⟨length_freeExcept .., fun i x hx => ?_⟩
  rw [freeExcept_slot hx, ← hottest_eq_some_iff]
  refine ⟨fun hal hcold => ?_, fun hkept => ?_⟩
  · rw [if_pos ⟨hal, hcold⟩]
    rfl
  · rw [if_neg]
    rintro ⟨hal, hcold⟩
    rcases hkept with hkept | hkept
    · exact Bool.false_ne_true (hkept.symm.trans hal)
    · exact hcold hkept

/-- Only the kept slot may own a buffer after an eviction. -/
theorem keep_of_freeExcept_allocated {keep : Option Nat} {slots : List Slot} {i : Nat} {y : Slot}
    (hy : (freeExcept keep 0 slots)[i]? = some y) (hal : y.allocated = true) : keep = some i := by
  rw [getElem?_freeExcept, Option.map_eq_some_iff] at hy
  obtain ⟨x, -, rfl⟩ := hy
  by_contra hne
  cases hx : x.allocated <;> simp [hx, hne] at hal

/-- Settles O46: eviction frees slot by slot, and two slots that still own a buffer are both the hottest. -/
theorem evictionKeepsOnlyTheHottest : Obligations.EvictionKeepsOnlyTheHottest := by
  refine fun s => ⟨_, rfl, evicted_freeExcept s.slots, fun i j x y hx hy hxal hyal => ?_⟩
  have hi := keep_of_freeExcept_allocated hx hxal
  have hj := keep_of_freeExcept_allocated hy hyal
  exact Option.some.inj (hi.symm.trans hj)

/-! ## Recency (R143, R154) -/

/-- TOUCH at one index, with the decrement written as a number. -/
theorem touch_slot {slots : List Slot} {j : Nat} {x : Slot} (hx : slots[j]? = some x) (i : Nat) :
    (touch i slots)[j]? = some { x with recency := if j = i then 255 else BitVec.ofNat 8 (x.recency.toNat - 1) } := by
  rw [getElem?_touch, hx, Option.map_some]
  by_cases hji : j = i <;> simp [Slot.touched, hji, satDec_eq]

theorem touch_recency_self {slots : List Slot} {i : Nat} {x : Slot} (hx : (touch i slots)[i]? = some x) : x.recency = 255 := by
  rw [getElem?_touch, Option.map_eq_some_iff] at hx
  obtain ⟨y, -, rfl⟩ := hx
  rw [decide_eq_true rfl, Slot.touched_true_recency]

theorem touch_recency_other {slots : List Slot} {i j : Nat} {x : Slot} (hx : (touch i slots)[j]? = some x) (hji : j ≠ i) :
    x.recency.toNat ≤ 254 := by
  rw [getElem?_touch, Option.map_eq_some_iff] at hx
  obtain ⟨y, -, rfl⟩ := hx
  rw [decide_eq_false hji, Slot.touched_false_recency, satDec_toNat]
  omega

/-- A touched slot has 255 and any other less, so the least recency is another slot's. -/
theorem victim_touch_ne {slots : List Slot} {i : Nat} (hlen : 2 ≤ slots.length) : victim (touch i slots) ≠ i := by
  intro hvictim
  obtain ⟨x, hx, hleast, -⟩ := victim_spec (touch i slots) (List.ne_nil_of_length_pos (by rw [length_touch]; omega))
  rw [hvictim] at hx
  obtain ⟨j, hj, hji⟩ : ∃ j, j < (touch i slots).length ∧ j ≠ i :=
    ⟨if i = 0 then 1 else 0, by rw [length_touch]; split <;> omega, by split <;> omega⟩
  have hother := touch_recency_other (List.getElem?_eq_getElem hj) hji
  have hle := hleast _ (List.getElem_mem hj)
  rw [touch_recency_self hx] at hle
  exact absurd (hle.trans hother) (by decide)

/-- A slot loses one, floor 0, at every touch of another slot. -/
theorem recency_after_touches {j : Nat} {touches : List Nat} (hj : j ∉ touches) {slots : List Slot} {x : Slot}
    (hx : slots[j]? = some x) :
    ((touches.foldl (fun p t => touch t p) slots)[j]?).map (fun y => y.recency.toNat) =
      some (x.recency.toNat - touches.length) := by
  induction touches generalizing slots x with
  | nil => simp [hx]
  | cons t rest ih =>
    obtain ⟨hjt, hjrest⟩ := not_or.1 (mt List.mem_cons.2 hj)
    have htouched : (touch t slots)[j]? = some (x.touched false) := by
      rw [getElem?_touch, hx, decide_eq_false hjt, Option.map_some]
    rw [List.foldl_cons, ih hjrest htouched, Slot.touched_false_recency, satDec_toNat, List.length_cons, Nat.sub_sub, Nat.add_comm 1]

/-- Settles O47: (a) slot by slot, (b) by the least recency, (c) by induction on the touches. -/
theorem touchedSlotIsHottestAndNotTheVictim : Obligations.TouchedSlotIsHottestAndNotTheVictim := by
  refine fun slots i _ => ⟨fun j x hx => ⟨?_, touch_recency_other hx⟩, victim_touch_ne, fun j x touches hx hj => ?_⟩
  · rintro rfl
    exact touch_recency_self hx
  · exact recency_after_touches hj hx

/-! ## A hit (R140, R142) -/

theorem resident_of_lookup {slots : List Slot} {i b : Nat} {data : Memory} (h : lookup b slots = some (i, data)) :
    Resident slots i b data := by
  obtain ⟨⟨⟨al, occ, r⟩, hslot, hholding⟩, -⟩ := lookup_eq_some.1 h
  obtain ⟨rfl, rfl⟩ := Slot.holding_eq_some.1 hholding
  exact ⟨r, hslot⟩

theorem Resident.touch {slots : List Slot} {i b : Nat} {data : Memory} (h : Resident slots i b data) (j : Nat) :
    Resident (touch j slots) i b data := by
  obtain ⟨r, hslot⟩ := h
  exact ⟨_, touch_slot hslot j⟩

/-- Settles O40: the one slot that holds the bank is what LOOKUP finds, and a hit only touches it. -/
theorem getOfBank0OrAResidentBankFetchesNothing : Obligations.GetOfBank0OrAResidentBankFetchesNothing := fun c s =>
  ⟨cacheGet_zero c s, fun b i _ hp hb hres =>
    ⟨touch i s.slots, cacheGet_hit c b s hb (hp.lookup_resident hres), length_touch .., fun _ _ hx => touch_slot hx i⟩⟩

/-! ## A miss: filled, or NULL (R145, R147) -/

section
variable {c : Cart} {b v : Nat} {s : State} {q : List Slot}

theorem cacheGet_of_noBuffer (hb : b ≠ 0) (hn : ∀ y ∈ s.slots, y.bank ≠ some b) (hv : IsVictim s.slots v)
    (he : ensureBuffer v s = (false, s.withSlots q)) : cacheGet c b s = (.null, { s with slots := q, lastError := 3 }) := by
  rw [cacheGet_miss c b s hb (lookup_of_not_resident hn), miss, hv.victim_eq]
  simp only [he]
  rfl

theorem cacheGet_of_fetchFailed (hb : b ≠ 0) (hn : ∀ y ∈ s.slots, y.bank ≠ some b) (hv : IsVictim s.slots v)
    (he : ensureBuffer v s = (true, s.withSlots q)) (hd : s.draws.bankFetchOk = false) :
    cacheGet c b s = (.null, { s with
      slots := q, lastError := 2, events := s.events ++ [.fetch (b * 16384) 16384 false] }) := by
  rw [← hv.victim_eq] at he
  rw [cacheGet_miss c b s hb (lookup_of_not_resident hn), miss_of_buffer he, if_neg (by simp [hd])]
  rfl

/-- A miss whose victim got its buffer in the pool `q` and whose fetch is OK: the answer, the bytes, and every slot. -/
theorem cacheGet_of_fetched {x : Slot} (hb : b ≠ 0) (hn : ∀ y ∈ s.slots, y.bank ≠ some b) (hv : IsVictim s.slots v)
    (he : ensureBuffer v s = (true, s.withSlots q)) (hx : q[v]? = some { x with allocated := true })
    (hd : s.draws.bankFetchOk = true) :
    ∃ data slots', cacheGet c b s = (.slot v data, { s with
        slots := slots', events := s.events ++ [.fetch (b * 16384) 16384 true] }) ∧
      (∀ k, k < 16384 → data.read k = c.romImage.read (b * 16384 + k)) ∧ slots'.length = q.length ∧
      slots'[v]? = some { allocated := true, occupant := some { bank := b, data := data }, recency := 255 } ∧
      ∀ (j : Nat) (y : Slot), j ≠ v → q[j]? = some y →
        slots'[j]? = some { y with recency := BitVec.ofNat 8 (y.recency.toNat - 1) } := by
  refine ⟨c.romImage.slice (b * 16384) 16384, touch v (fill v b _ q), ?_, fun k => read_fetched c.romImage b k, by simp,
    getElem?_touch_fill_self b _ hx, fun j y => getElem?_touch_fill_other b _⟩
  rw [← hv.victim_eq] at he
  rw [cacheGet_miss c b s hb (lookup_of_not_resident hn), miss_of_buffer he, if_pos hd, hv.victim_eq]
  rfl

end

/-- Settles O41: ENSURE_BUFFER changes the victim alone, and the fill and its touch do the rest. -/
theorem missFillsTheVictim : Obligations.MissFillsTheVictim := by
  intro c b v x s _ hb hn hv hx hbuffer hd
  obtain ⟨q, he, hlen, hself, hother⟩ := ensureBuffer_direct hx hbuffer
  obtain ⟨data, slots', hget, hdata, hlen', hself', hother'⟩ := cacheGet_of_fetched (c := c) hb hn hv he hself hd
  exact ⟨data, slots', hget, hdata, hlen'.trans hlen, hself', fun j y hj hy => hother' j y hj ((hother j hj).trans hy)⟩

/-- Settles O42: ENSURE_BUFFER changes the victim alone, and after it a failed fetch changes no slot. -/
theorem failedFetchKeepsThePool : Obligations.FailedFetchKeepsThePool := by
  intro c b v x s _ hb hn hv hx hbuffer hd
  obtain ⟨q, he, hlen, hself, hother⟩ := ensureBuffer_direct hx hbuffer
  exact ⟨q, cacheGet_of_fetchFailed hb hn hv he hd, hlen, hself, fun j y hj hy => (hother j hj).trans hy⟩

/-! ## Remediation (R145, R146) -/

/-- ENSURE_BUFFER of a slot with no buffer whose first allocation fails: eviction, then the retry decides. -/
theorem ensureBuffer_remediated {v : Nat} {x : Slot} {s : State} (hx : s.slots[v]? = some x) (hal : x.allocated = false)
    (hd : s.draws.allocOk = false) :
    (s.draws.allocRetryOk = false → ensureBuffer v s = (false, s.withSlots (freeExcept (hottest s.slots) 0 s.slots))) ∧
    (s.draws.allocRetryOk = true →
      ensureBuffer v s = (true, s.withSlots (allocate v (freeExcept (hottest s.slots) 0 s.slots)))) := by
  have hnone : slotAllocated v s.slots = false := by simp [slotAllocated, hx, hal]
  rcases ensureBuffer_cases v s with ⟨ha, -⟩ | ⟨-, hd', -⟩ | ⟨-, -, hr, he⟩ | ⟨-, -, hr, he⟩
  · exact absurd (hnone.symm.trans ha) Bool.false_ne_true
  · exact absurd (hd.symm.trans hd') Bool.false_ne_true
  · exact ⟨fun hr' => absurd (hr'.symm.trans hr) Bool.false_ne_true, fun _ => he⟩
  · exact ⟨fun _ => he, fun hr' => absurd (hr.symm.trans hr') Bool.false_ne_true⟩

/-- Settles O43: eviction leaves the victim, which owns no buffer, as it was; the retry and the fetch pick among the three outcomes
of a miss. -/
theorem allocationFailureRemediatesOnce : Obligations.AllocationFailureRemediatesOnce := by
  intro c b v x s _ hb hn hv hx hal hd
  obtain ⟨hfails, hsucceeds⟩ := ensureBuffer_remediated hx hal hd
  let evicted := freeExcept (hottest s.slots) 0 s.slots
  have hevicted : Evicted s.slots evicted := evicted_freeExcept s.slots
  have hvictim : evicted[v]? = some x := (hevicted.2 v x hx).2 (.inl hal)
  have hself : (allocate v evicted)[v]? = some { x with allocated := true } := by simp [getElem?_allocate, hvictim]
  have hother (j : Nat) (hj : j ≠ v) : (allocate v evicted)[j]? = evicted[j]? := by simp [getElem?_allocate, hj.symm]
  refine ⟨evicted, hevicted, hvictim, fun hr => cacheGet_of_noBuffer hb hn hv (hfails hr), fun hr hf => ?_, fun hr hf => ?_⟩
  · exact ⟨_, cacheGet_of_fetchFailed hb hn hv (hsucceeds hr) hf, hself, hother⟩
  · obtain ⟨data, slots', hget, hdata, -, hself', hother'⟩ := cacheGet_of_fetched (c := c) hb hn hv (hsucceeds hr) hself hf
    exact ⟨data, slots', hget, hdata, hself', fun j y hj hy => hother' j y hj ((hother j hj).trans hy)⟩

/-! ## The second get (R155) -/

/-- The slot CACHE_GET answers holds the bank with the bytes answered. -/
theorem cacheGet_slot_resident {c : Cart} {b i : Nat} {data : Memory} {s s1 : State} (hp : PoolSound s.slots) (hb : b ≠ 0)
    (h : cacheGet c b s = (.slot i data, s1)) : Resident s1.slots i b data := by
  cases hl : lookup b s.slots with
  | some r =>
    rw [cacheGet_hit c b s hb (i := r.1) (data := r.2) hl] at h
    cases h
    exact (resident_of_lookup hl).touch _
  | none =>
    rw [cacheGet_miss c b s hb hl] at h
    rcases miss_cases c b s with ⟨q, -, -, e⟩ | ⟨q, -, -, -, e⟩ | ⟨q, he, -, -, e⟩ <;> rw [e] at h <;> cases h
    have hlt := victim_lt s.slots (List.ne_nil_of_length_pos hp.nonempty)
    obtain ⟨⟨al, occ, r⟩, hx, rfl⟩ := ensureBuffer_allocated _ s q he hlt
    exact ⟨_, getElem?_touch_fill_self b _ hx⟩

/-- Settles O24: the slot the first get answered holds the bank, so the second finds it; the first missed only if LOOKUP found no
slot. -/
theorem secondGetIsAHit : Obligations.SecondGetIsAHit := by
  intro c b i data s s1 s2 hp hb h hslots
  have hp1 : PoolSound s1.slots := by
    have hkept := cacheGet_poolSound c b s hp
    rwa [h] at hkept
  have hfound : lookup b s2.slots = some (i, data) := hslots ▸ hp1.lookup_resident (cacheGet_slot_resident hp hb h)
  refine ⟨⟨_, cacheGet_hit c b s2 hb hfound, rfl⟩, fun ⟨x, hx, hxb⟩ => ?_⟩
  cases hl : lookup b s.slots with
  | none => exact absurd hxb (hp.not_resident hl x hx)
  | some r =>
    rw [cacheGet_hit c b s hb (i := r.1) (data := r.2) hl] at h
    cases h
    rfl

end Sys2Proof.Machine
end

section
/-! The host commands (43_host.md): which are refused and what the served ones leave, the bytes GET_ROM_BANK and the SRAM transfers
move, and the status words as numbers. -/

namespace Sys2Proof.Machine

/-! ## Commands refused, and operands refused (R170, R171, R206) -/

/-- Settles O48: in FATAL and while nothing is loaded the entry checks refuse before the command runs. -/
theorem refusedCommandsChangeNothing : Obligations.RefusedCommandsChangeNothing := by
  intro s bank v shift code eager
  refine ⟨fun hf => ?_, fun hc => ?_⟩ <;> simp only [List.forall_mem_cons]
  · have hserve (e : State) : hostServe s e = .next s.refuse := hostServe_fatal hf e
    exact ⟨hserve _, hserve _, hserve _, hserve _, hserve _, hserve _, nofun⟩
  · have hserve (e : Cart → State) : hostServeLoaded s e = .next s.refuse := hostServeLoaded_unloaded hc e
    exact ⟨hserve _, hserve _, hserve _, hserve _, nofun⟩

/-- Settles O50: each of the operands named fails the validation of R171. -/
theorem invalidLoadOnlyRecordsTheError : Obligations.InvalidLoadOnlyRecordsTheError := by
  intro s v shift code eager hf hbad
  refine exec_load_invalid hf v eager fun hvalid => ?_
  obtain ⟨hcode, hnoRam, hram⟩ := (loadValid_iff shift code s.payload.op1).1 hvalid
  rcases hbad with hbig | ⟨hzero, hsize⟩ | ⟨hpos, hsize⟩
  · omega
  · exact hsize (hnoRam hzero)
  · have := hram hpos
    omega

/-! ## UNLOAD and PRESSURE_EVICT (R151, R173, R175) -/

theorem unloadEffects_eq (s : State) :
    unloadEffects s = { s with cart := none, slots := List.replicate s.slots.length Slot.free } := by
  rw [unloadEffects, List.map_const']

/-- UNLOAD outside FATAL takes the cartridge away if there is one. -/
theorem exec_unload {s : State} (hf : s.fatal = false) :
    exec .unload s = .next ((if s.loaded then unloadEffects s else s).respond (.host .ok .empty)) :=
  hostServe_ok hf _

/-- Settles O53: UNLOAD_EFFECTS runs only where a cartridge is there to destroy. -/
theorem unloadDestroysTheCartridge : Obligations.UnloadDestroysTheCartridge := by
  intro s hf
  refine ⟨fun hc => ?_, fun hc => ?_, by decide⟩ <;> rw [exec_unload hf]
  · have hl : s.loaded = true := Option.isSome_iff_ne_none.2 hc
    rw [if_pos hl, unloadEffects_eq]
    rfl
  · have hl : ¬ s.loaded = true := by simp [State.loaded, hc]
    rw [if_neg hl, State.respond_eq]

/-- Settles O55: the pool after the command is the one R151 describes. -/
theorem pressureEvictRunsTheEviction : Obligations.PressureEvictRunsTheEviction := fun s _ hf hc =>
  ⟨⟨_, hostServeLoaded_loaded hf hc _, evicted_freeExcept s.slots⟩, by decide⟩

/-! ## GET_ROM_BANK (R174) -/

/-- The string of a buffer, offset by offset. -/
theorem Memory.getElem?_bytes_of_lt (m : Memory) {n k : Nat} (hk : k < n) : (m.bytes n)[k]? = some (m.read k) := by
  rw [Memory.getElem?_bytes, if_pos hk]

theorem exec_getRomBank_loaded {s : State} {c : Cart} (hf : s.fatal = false) (hc : s.cart = some c) (bank : BitVec 16) :
    exec (.getRomBank bank) s = .next
      (if c.cfg.totalBanks ≤ bank.toNat then (s.raise .corruptOrOversizedInput).respond (.host .null .empty)
       else answerGet c (cacheGet c bank.toNat s)) :=
  hostServeLoaded_loaded hf hc _

theorem answerGet_null {c : Cart} {r : GetResult × State} (h : r.1 = .null) :
    answerGet c r = r.2.respond (.host .null .empty) := by
  obtain ⟨g, s⟩ := r
  cases h
  rfl

/-- Where CACHE_GET finds its bank, in the bank-0 buffer or in a slot, the answer is a buffer of the bank's image bytes. -/
theorem answerGet_found {c : Cart} {b : Nat} {s : State} (hc : c.Sound) (hfaithful : ∀ x ∈ s.slots, x.Faithful c)
    (hfound : (cacheGet c b s).1 ≠ .null) :
    ∃ data : Memory, answerGet c (cacheGet c b s) = (cacheGet c b s).2.respond (.host .ok (.bytes (data.bytes 16384))) ∧
      ∀ k, k < 16384 → data.read k = c.romImage.read (b * 16384 + k) := by
  rcases hr : cacheGet c b s with ⟨g, s1⟩
  have hg : (cacheGet c b s).1 = g := congrArg Prod.fst hr
  cases g with
  | bank0 =>
    have hb : b = 0 := not_imp_comm.1 (cacheGet_ne_bank0 c b s) (not_not_intro hg)
    refine ⟨c.bank0, rfl, fun k hk => ?_⟩
    rw [hb, Nat.zero_mul, Nat.zero_add, hc.bank0 k hk]
  | slot i data => exact ⟨data, rfl, cacheGet_data c b s hfaithful hg⟩
  | null => exact absurd hg hfound

/-- Settles O54: the range check, then what CACHE_GET answers within its frame. -/
theorem getRomBankAnswersTheBanksBytes : Obligations.GetRomBankAnswersTheBanksBytes := by
  intro s c bank hs hc
  obtain ⟨hcart, hfaithful⟩ := hs.cart c hc
  have hexec := exec_getRomBank_loaded (hs.not_fatal hc) hc bank
  refine ⟨fun hout => ?_, fun hin => ?_, hostFieldsStandWhereR76PutsThem.2.1 bank⟩
  · rw [hexec, if_pos hout]
    rfl
  · intro g t
    have ht : g.2 = t := cacheGet_snd_eq c bank.toNat s
    rw [if_neg (Nat.not_le.2 hin)] at hexec
    refine ⟨fun hnull => ?_, fun hfound => ?_, fun h0 => ?_⟩
    · rw [hexec, answerGet_null hnull, ← ht, State.respond_eq]
    · obtain ⟨data, hanswer, hdata⟩ := answerGet_found hcart hfaithful hfound
      refine ⟨data.bytes 16384, ?_, data.length_bytes 16384, fun k hk => ?_⟩
      · rw [hexec, hanswer, ← ht, State.respond_eq]
      · rw [data.getElem?_bytes_of_lt hk, hdata k hk]
    · subst h0
      exact ⟨rfl, rfl⟩

/-! ## The SRAM transfers (R176, R177) -/

/-- The RAM after an import: the first `min(L, n)` bytes are the string's, the tail is as it was. -/
theorem Memory.read_import {m : Memory} (hm : m.wf) (src : List Byte) (n x : Nat) :
    (Memory.writeBytes 0 (src.take n) m).read x = if x < min src.length n then src[x]?.getD 0 else m.read x := by
  rw [Memory.read_writeBytes _ _ _ hm, if_pos (Nat.zero_le x), Nat.sub_zero]
  split_ifs with hx
  · obtain ⟨hlen, hn⟩ := Nat.lt_min.1 hx
    rw [List.getElem?_take_of_lt hn, List.getElem?_eq_getElem hlen]
    rfl
  · rw [List.getElem?_eq_none (by rw [List.length_take]; omega)]
    rfl

/-- Settles O56: both commands run behind the loaded check alone, so the enable latch is not asked. -/
theorem sramTransfersMoveTheWholeRam : Obligations.SramTransfersMoveTheWholeRam := fun s c hf hc =>
  ⟨⟨_, hostServeLoaded_loaded hf hc _, c.ram.length_bytes _, fun _ hk => c.ram.getElem?_bytes_of_lt hk⟩,
    fun hwf => ⟨_, hostServeLoaded_loaded hf hc _, Memory.read_import hwf s.payload.src c.cfg.ramSizeBytes⟩,
    by decide, by decide⟩

/-! ## The status words as numbers (R36, R37, R38) -/

/-- An appended word is its high part above the width of its low part. -/
theorem toNat_append_eq_add {m n : Nat} (x : BitVec m) (y : BitVec n) : (x ++ y).toNat = 2 ^ n * x.toNat + y.toNat := by
  rw [BitVec.toNat_append, ← Nat.shiftLeft_add_eq_or_of_lt y.isLt, Nat.shiftLeft_eq, Nat.mul_comm]

theorem statusWord_toNat (s : State) :
    (statusWord s).toNat = s.loaded.toNat + 2 * s.fatal.toNat + 4 * s.romLogged.toNat + 16 * s.lastError.toNat := by
  have h : (statusWord s).toNat = BitVec.toNat (w := 8 + 4 + 1 + 1 + 1 + 1)
    (0#8 ++ s.lastError ++ 0#1 ++ BitVec.ofBool s.romLogged ++ BitVec.ofBool s.fatal ++ BitVec.ofBool s.loaded) := rfl
  rw [h]
  simp only [toNat_append_eq_add, toNat_ofBool', BitVec.toNat_ofNat]
  omega

/-- Nothing of `mappedBank` is cut when it is a 7-bit number. -/
theorem cartStatusWord_toNat {c : Cart} (hmapped : c.mappedBank.getD 0 < 128) :
    (cartStatusWord c).toNat = c.mbc.currentRomBank.toNat + 2 ^ 8 * c.mbc.currentRamBank.toNat + 2 ^ 11 * c.mbc.ramEnabled.toNat +
      2 ^ 12 * c.mbc.bankingModeSelect.toNat + 2 ^ 13 * c.mbc.mapperVariant.bit.toNat + 2 ^ 14 * c.mappedBank.isSome.toNat +
      2 ^ 16 * c.mappedBank.getD 0 := by
  have h : (cartStatusWord c).toNat = BitVec.toNat (w := 9 + 7 + 1 + 1 + 1 + 1 + 1 + 3 + 1 + 7)
    (0#9 ++ BitVec.ofNat 7 (c.mappedBank.getD 0) ++ 0#1 ++ BitVec.ofBool c.mappedBank.isSome ++ BitVec.ofBool c.mbc.mapperVariant.bit ++
      BitVec.ofBool c.mbc.bankingModeSelect ++ BitVec.ofBool c.mbc.ramEnabled ++ c.mbc.currentRamBank ++ 0#1 ++ c.mbc.currentRomBank) := rfl
  rw [h]
  simp only [toNat_append_eq_add, toNat_ofBool', BitVec.toNat_ofNat, Nat.mod_eq_of_lt hmapped]
  omega

/-- Nothing of the occupant's bank is cut when it is a 16-bit number. -/
theorem slotStatusWord_toNat {x : Slot} (hbank : x.bank.getD 0 < 2 ^ 16) :
    (slotStatusWord x).toNat =
      x.recency.toNat + 2 ^ 8 * x.bank.getD 0 + 2 ^ 24 * x.allocated.toNat + 2 ^ 25 * x.bank.isSome.toNat := by
  have h : (slotStatusWord x).toNat = BitVec.toNat (w := 6 + 1 + 1 + 16 + 8)
    (0#6 ++ BitVec.ofBool x.bank.isSome ++ BitVec.ofBool x.allocated ++ BitVec.ofNat 16 (x.bank.getD 0) ++ x.recency) := rfl
  rw [h]
  simp only [toNat_append_eq_add, toNat_ofBool', BitVec.toNat_ofNat, Nat.mod_eq_of_lt hbank]
  omega

/-- An optional number is below a bound that its value is below. -/
theorem getD_zero_lt {o : Option Nat} {n : Nat} (hn : 0 < n) (h : ∀ b, o = some b → b < n) : o.getD 0 < n := by
  cases o with
  | none => exact hn
  | some b => exact h b rfl

/-- In a sound state an occupant's bank fits the OCCUPANT field of R38. -/
theorem State.Sound.bank_lt {s : State} (hs : s.Sound) {x : Slot} (hx : x ∈ s.slots) {b : Nat} (hb : x.bank = some b) :
    b < 2 ^ 15 := by
  cases hc : s.cart with
  | none =>
    rw [hs.unloaded hc x hx] at hb
    cases hb
  | some c =>
    obtain ⟨hcart, hfaithful⟩ := hs.cart c hc
    obtain ⟨o, ho, rfl⟩ := Option.map_eq_some_iff.1 hb
    obtain ⟨hlt, -⟩ := hfaithful x hx o ho
    exact hlt.trans_le hcart.cfg.totalBanks_le

/-- Settles O57: the command's answer is the STATUS word, behind no entry check. -/
theorem readStatusAnswersTheStatusWord : Obligations.ReadStatusAnswersTheStatusWord :=
  ⟨by decide, fun s => ⟨statusWord s, rfl, statusWord_toNat s⟩⟩

theorem mbcStatusWord_unloaded {s : State} (hc : s.cart = none) : mbcStatusWord s = 0 := by simp only [mbcStatusWord, hc]

theorem mbcStatusWord_loaded {s : State} {c : Cart} (hc : s.cart = some c) : mbcStatusWord s = cartStatusWord c := by
  simp only [mbcStatusWord, hc]

/-- READ_MBC in every state (R179). -/
theorem exec_readMbc (s : State) : exec .readMbc s = .next (s.respond (.host .ok (.word32 (mbcStatusWord s)))) := rfl

/-- Settles O58: the word of a sound cartridge cuts nothing of its mapping. -/
theorem readMbcAnswersTheMbcStatusWord : Obligations.ReadMbcAnswersTheMbcStatusWord := by
  refine ⟨by decide, fun s => ⟨fun hc => ?_, fun c hc hcart => ⟨cartStatusWord c, ?_, ?_⟩⟩⟩
  · rw [exec_readMbc, mbcStatusWord_unloaded hc, State.respond_eq]
  · rw [exec_readMbc, mbcStatusWord_loaded hc, State.respond_eq]
  · exact cartStatusWord_toNat (getD_zero_lt (by decide) fun b hb => (hcart.mapped b hb).2)

theorem exec_readSlot_absent {s : State} {slot : BitVec 16} (h : s.slots[slot.toNat]? = none) :
    exec (.readSlot slot) s = .next s.refuse := by
  simp only [exec, execReadSlot, h]

theorem exec_readSlot_present {s : State} {slot : BitVec 16} {x : Slot} (h : s.slots[slot.toNat]? = some x) :
    exec (.readSlot slot) s = .next (s.respond (.host .ok (.word32 (slotStatusWord x)))) := by
  simp only [exec, execReadSlot, h]

/-- Settles O59: a slot that exists answers its word, which in a sound state cuts nothing of its bank. -/
theorem readSlotAnswersTheSlotStatusWord : Obligations.ReadSlotAnswersTheSlotStatusWord := by
  intro s slot
  refine ⟨fun hout => exec_readSlot_absent (List.getElem?_eq_none hout), fun x hx hs => ?_, hostFieldsStandWhereR76PutsThem.2.2 slot⟩
  have hbank : x.bank.getD 0 < 2 ^ 15 := getD_zero_lt (by decide) fun b hb => hs.bank_lt (List.mem_of_getElem? hx) hb
  exact ⟨slotStatusWord x, exec_readSlot_present hx, slotStatusWord_toNat (hbank.trans (by decide))⟩

end Sys2Proof.Machine
end

section
/-! FATAL (60_exceptions.md): the LOAD that enters it, that no other request does, and what a step in it may change. -/

namespace Sys2Proof.Machine

/-- Settles O51: the operands are those R171 allows, and the failed fetch takes LOAD's FATAL branch. -/
theorem failedBank0FetchIsFatal : Obligations.FailedBank0FetchIsFatal := by
  intro s v shift code eager hs hf hcode hnoRam hram hd
  have hvalid := (loadValid_iff shift code s.payload.op1).2 ⟨hcode, hnoRam, hram⟩
  change hostServe s _ = _
  rw [hostServe_ok hf, if_pos hvalid, loadCartridge_eq hs, hd, if_neg Bool.false_ne_true]
  rfl

section
variable {s t : State} {i : Instr}

/-! ## Entering FATAL (R205) -/

theorem CpuEffect.keepsFatal (h : CpuEffect s t) : t.fatal = s.fatal := by
  cases h with
  | answer => rfl
  | latch => rfl
  | store => rfl
  | select => exact select_fatal _ _
  | unmapped => exact sentinelRom_fatal s
  | refetched c b => exact cacheGet_fatal c b s
  | degraded c b => exact (sentinelRom_fatal _).trans (cacheGet_fatal c b s)

theorem loadCartridge_fetched_fatal (hd : s.draws.bank0FetchOk = true) (v : Variant) (cfg : LoadCfg) (eager : Bool) :
    (loadCartridge v cfg eager s).fatal = s.fatal := by
  obtain ⟨-, hentry, -⟩ := loadEntry_frame s
  rw [loadCartridge_fetched hd]
  exact (select_fatal _ _).trans hentry

/-- What LOAD's FATAL branch leaves (R205). -/
theorem loadCartridge_failed_record (hd : s.draws.bank0FetchOk = false) (v : Variant) (cfg : LoadCfg) (eager : Bool) :
    (loadCartridge v cfg eager s).lastError = 2 ∧ (loadCartridge v cfg eager s).cart = none ∧
      (loadCartridge v cfg eager s).response = some (.host .failed .empty) := by
  obtain ⟨hcart, -⟩ := loadEntry_frame s
  rw [loadCartridge_failed hd]
  exact ⟨rfl, hcart, rfl⟩

/-- Of the host commands only a LOAD with a failed bank-0 fetch enters FATAL. -/
theorem HostEffect.load_of_entersFatal (h : HostEffect i s t) (hf : s.fatal = false) (ht : t.fatal = true) :
    (∃ v shift code eager, i = .load v shift code eager) ∧ s.draws.bank0FetchOk = false ∧ t.lastError = 2 ∧ t.cart = none ∧
      t.response = some (.host .failed .empty) := by
  have changed (he : t.fatal = s.fatal) : False := Bool.false_ne_true (hf.symm.trans (he.symm.trans ht))
  cases h with
  | load v shift code eager hi =>
    cases hd : s.draws.bank0FetchOk with
    | true => exact (changed (loadCartridge_fetched_fatal hd v _ eager)).elim
    | false => exact ⟨⟨v, shift, code, eager, hi⟩, rfl, loadCartridge_failed_record hd v _ eager⟩
  | answer => exact (changed rfl).elim
  | invalid => exact (changed rfl).elim
  | unload => exact (changed rfl).elim
  | get c b => exact (changed (cacheGet_fatal c b s)).elim
  | evict => exact (changed rfl).elim
  | store => exact (changed rfl).elim

/-! ## In FATAL (R206, R207) -/

/-- A fatal block answers a host command and changes nothing. -/
theorem HostEffect.answer_of_fatal (h : HostEffect i s t) (hf : s.fatal = true) : ∃ r, t = s.respond r := by
  have served (hf' : s.fatal = false) : False := Bool.false_ne_true (hf'.symm.trans hf)
  cases h with
  | answer r => exact ⟨r, rfl⟩
  | invalid _ hf' => exact (served hf').elim
  | load _ _ _ _ _ hf' => exact (served hf').elim
  | unload _ hf' => exact (served hf').elim
  | get _ _ _ hf' => exact (served hf').elim
  | evict _ hf' => exact (served hf').elim
  | store _ _ hf' => exact (served hf').elim

end

/-- Settles O20: idling, RESET, a claimed access and every CPU request leave `fatal` 0, which leaves the host commands. -/
theorem fatalIsEnteredOnlyByAFailedBank0Fetch : Obligations.FatalIsEnteredOnlyByAFailedBank0Fetch := by
  intro s t hf hstep ht
  have changed (he : t.fatal = s.fatal) : False := Bool.false_ne_true (hf.symm.trans (he.symm.trans ht))
  rcases step_cases hstep with ⟨-, rfl⟩ | ⟨rest, -, rfl⟩ | ⟨we, a, d, dr, rest, -, rfl⟩ | ⟨we, a, d, dr, rest, -, -, -, heffect⟩ |
    ⟨w, p, dr, rest, harr, -, heffect⟩
  · exact (changed rfl).elim
  · cases ht
  · exact (changed rfl).elim
  · exact (changed heffect.keepsFatal).elim
  · obtain ⟨⟨v, shift, code, eager, hload⟩, hrecord⟩ := heffect.load_of_entersFatal hf ht
    exact ⟨w, p, dr, rest, v, shift, code, eager, harr, hload, hrecord⟩

/-- Settles O19: a step that is no RESET only takes its arrival off the stream or answers a host command, for a CPU request in FATAL
makes no step. -/
theorem fatalIsLeftOnlyByReset : Obligations.FatalIsLeftOnlyByReset := by
  intro s t hf hstep
  rcases step_cases hstep with ⟨-, rfl⟩ | ⟨rest, harr, -⟩ | ⟨we, a, d, dr, rest, -, rfl⟩ | ⟨we, a, d, dr, rest, -, hf', -⟩ |
    ⟨w, p, dr, rest, -, -, heffect⟩
  · exact .inr ⟨hf, rfl, rfl, rfl, rfl, rfl⟩
  · exact .inl ⟨rest, harr⟩
  · exact .inr ⟨hf, rfl, rfl, rfl, rfl, rfl⟩
  · exact absurd (hf'.symm.trans hf) Bool.false_ne_true
  · obtain ⟨r, rfl⟩ := heffect.answer_of_fatal hf
    exact .inr ⟨hf, rfl, rfl, rfl, rfl, rfl⟩

end Sys2Proof.Machine
end

section
/-! RESET (R220): one step from any state, its arrival being the RESET signal. -/

namespace Sys2Proof.Machine

/-- R220 with the pool written out: whatever the slots held, as many of them stand free. -/
theorem State.afterReset_eq (s : State) :
    s.afterReset =
      { s with cart := none, fatal := false, romLogged := false, lastError := 0, slots := List.replicate s.slots.length Slot.free } := by
  rw [State.afterReset, List.map_const']

/-- A step whose arrival is RESET takes it off the stream and resets the block. -/
theorem step_reset {s : State} {rest : List Arrival} (h : s.arrivals = .reset :: rest) :
    step s = .next ({ s with arrivals := rest }).afterReset := by
  rw [step, h]

/-- Settles O10: the step is `afterReset` of the shortened stream, which names every field it sets. -/
theorem resetSignalEmptiesTheBlock : Obligations.ResetSignalEmptiesTheBlock := by
  intro s rest harr
  rw [step_reset harr, State.afterReset_eq]
  rfl

end Sys2Proof.Machine
end

section
/-! The words of 95_test_vectors.md, each read as a word of its row (R71, R73, R76). -/

namespace Sys2Proof.Machine

/-- Settles O7: each word is the one its row's fixed bits and its fields make, and 0x12 is UNLOAD's CMD with a reserved bit. -/
theorem specWordsDecodeToTheirRequests : Obligations.SpecWordsDecodeToTheirRequests :=
  ⟨decodeKey_key13 .a true 0b000#3 0 0x0A, decodeKey_key13 .a true 0b001#3 0x1FFF 0x1F, decodeKey_key13 .b true 0b001#3 0 0x45,
    decodeKey_rdRomx .a 0x3FFF 0, decodeKey_key13 .b true 0b101#3 0x10 0x42, decodeKey_passC000 .a true 0x3FFF 0,
    decodeHost_loadWord .a 2 1 true, decodeHost_getRomBank 5, decodeHost_reservedBit (lo := 4) rfl (by decide)⟩

end Sys2Proof.Machine
end
